-- ==== Sys2Proof/Word.lean ====
section
/-! DEFINITION. The bit vectors the spec treats as bits (R9), and the operand sizes (R10). -/

namespace Sys2Proof

abbrev Byte := BitVec 8
abbrev Word := BitVec 16
abbrev Long := BitVec 32

/-- The Size Policy of R10: byte, word, long. -/
inductive Size where
  | b
  | w
  | l
deriving DecidableEq, Repr

/-- `bits(sz)` of R10. -/
@[reducible] def Size.bits : Size → Nat
  | .b => 8
  | .w => 16
  | .l => 32

/-- `bytes(sz)` of R10. -/
@[reducible] def Size.bytes : Size → Nat
  | .b => 1
  | .w => 2
  | .l => 4

end Sys2Proof
end

