-- ==== Sys2Proof/Config.lean ====
section
/-! DEFINITION. What an implementation fixes: the parameters of R8 that are choices between named values, and the
launch values that State.reset takes for the OPEN ones. No behaviour of this block has an undefined result (R180), so
there is no free value here. -/

namespace Sys2Proof

/-- `addrBits ∈ {24, 32}`, the address bits the bus decodes (R69). OPEN: a field of the bus in State, so that every
statement over all states holds for both. -/
inductive AddrBits where
  | bits24
  | bits32
deriving DecidableEq, Repr

@[reducible] def AddrBits.count : AddrBits → Nat
  | .bits24 => 24
  | .bits32 => 32

/-- `busByteOrder` (R62). OPEN with default `big`: a field of the bus in State. -/
inductive ByteOrder where
  | big
  | little
deriving DecidableEq, Repr

/-- `installedFamilies` (R8, D2): which of the two instruction-family installers built the dispatch table. -/
structure Families where
  compare : Bool
  logical : Bool
deriving DecidableEq, Repr

/-- The default of R8. -/
def Families.default : Families := ⟨true, true⟩

/-- DESIGN CHOICE, unsafe (log entry 2): the value of the OPEN launch input `resetPC` in State.reset. -/
def Config.launchPC : Long := 0x1000

/-- DESIGN CHOICE, unsafe (log entry 1): the value the boot of R291 gives every register in State.reset. -/
def Config.launchRegister : Long := 0

end Sys2Proof
end

