-- ==== Sys2Proof/Syntax.lean ====
section
/-! DEFINITION. Instructions as syntax: the twelve addressing modes with their extension data (R94, R137-R150), and the
one inductive Instr. The 290 rows of the opcode table are 35 pairs of instruction form and size, each with the legal
addressing modes of R100; a constructor stands for one such pair and the mode is its EA operand (R105, R152; log entry
17). -/

namespace Sys2Proof

/-- A register number, as the three-bit fields of R91 give it. -/
abbrev Reg := Fin 8

/-- The brief extension word of the indexed modes, without its ignored bits 10:8 (R95). -/
structure Brief where
  /-- bit 15: the index register is an address register -/
  isAddr : Bool
  /-- bits 14:12 -/
  reg : Reg
  /-- bit 11: all 32 bits of the index register, not its low word sign-extended -/
  isLong : Bool
  /-- bits 7:0 -/
  d8 : Byte
deriving DecidableEq, Repr

/-- An operand of an instruction of size `sz` with the extension data it consumed (R130, R137-R150). -/
inductive EA (sz : Size) where
  | dn (n : Reg)
  | an (n : Reg)
  | ind (n : Reg)
  | postInc (n : Reg)
  | preDec (n : Reg)
  | disp (n : Reg) (d16 : Word)
  | index (n : Reg) (x : Brief)
  | absW (a : Word)
  | absL (a : Long)
  | pcDisp (d16 : Word)
  | pcIndex (x : Brief)
  | imm (v : BitVec sz.bits)
deriving DecidableEq, Repr

/-- The name of an operand-resolver variant (R94). -/
inductive Variant where
  | dn | an | ind | postInc | preDec | disp | index | absW | absL | pcDisp | pcIndex | imm
deriving DecidableEq, Repr

def EA.variant {sz : Size} : EA sz → Variant
  | .dn _ => .dn
  | .an _ => .an
  | .ind _ => .ind
  | .postInc _ => .postInc
  | .preDec _ => .preDec
  | .disp _ _ => .disp
  | .index _ _ => .index
  | .absW _ => .absW
  | .absL _ => .absL
  | .pcDisp _ => .pcDisp
  | .pcIndex _ => .pcIndex
  | .imm _ => .imm

/-- The handlers of the dispatch table: the rows of R92, AND and OR once for each direction. -/
inductive Handler where
  | cmp | cmpa | cmpi | cmpm
  | andToReg | andToEa | orToReg | orToEa | eor
  | andi | ori | eori
deriving DecidableEq, Repr

/-- A handler with its auxiliary datum, the pair (size, variant) of R105: one row of the opcode table. -/
structure Form where
  handler : Handler
  size : Size
  variant : Variant
deriving DecidableEq, Repr

/-- The instructions (R191-R194, R211-R218). The operand order is that of the assembler (R128): source, destination. -/
inductive Instr where
  | cmpB (ea : EA .b) (dn : Reg)
  | cmpW (ea : EA .w) (dn : Reg)
  | cmpL (ea : EA .l) (dn : Reg)
  | cmpaW (ea : EA .w) (an : Reg)
  | cmpaL (ea : EA .l) (an : Reg)
  | cmpiB (v : Byte) (ea : EA .b)
  | cmpiW (v : Word) (ea : EA .w)
  | cmpiL (v : Long) (ea : EA .l)
  | cmpmB (ay ax : Reg)
  | cmpmW (ay ax : Reg)
  | cmpmL (ay ax : Reg)
  | andB (ea : EA .b) (dn : Reg)
  | andW (ea : EA .w) (dn : Reg)
  | andL (ea : EA .l) (dn : Reg)
  | andToEaB (dn : Reg) (ea : EA .b)
  | andToEaW (dn : Reg) (ea : EA .w)
  | andToEaL (dn : Reg) (ea : EA .l)
  | orB (ea : EA .b) (dn : Reg)
  | orW (ea : EA .w) (dn : Reg)
  | orL (ea : EA .l) (dn : Reg)
  | orToEaB (dn : Reg) (ea : EA .b)
  | orToEaW (dn : Reg) (ea : EA .w)
  | orToEaL (dn : Reg) (ea : EA .l)
  | eorB (dn : Reg) (ea : EA .b)
  | eorW (dn : Reg) (ea : EA .w)
  | eorL (dn : Reg) (ea : EA .l)
  | andiB (v : Byte) (ea : EA .b)
  | andiW (v : Word) (ea : EA .w)
  | andiL (v : Long) (ea : EA .l)
  | oriB (v : Byte) (ea : EA .b)
  | oriW (v : Word) (ea : EA .w)
  | oriL (v : Long) (ea : EA .l)
  | eoriB (v : Byte) (ea : EA .b)
  | eoriW (v : Word) (ea : EA .w)
  | eoriL (v : Long) (ea : EA .l)
deriving DecidableEq, Repr

/-- The four operand shapes of R92, which every function on syntax takes apart. -/
inductive View where
  /-- F1: source `<ea>`, destination register Rx -/
  | toReg (h : Handler) (sz : Size) (ea : EA sz) (rx : Reg)
  /-- F2: source Dn (Rx), destination `<ea>` -/
  | toEa (h : Handler) (sz : Size) (rx : Reg) (ea : EA sz)
  /-- F3: source immediate, destination `<ea>` -/
  | immToEa (h : Handler) (sz : Size) (v : BitVec sz.bits) (ea : EA sz)
  /-- F4: source (Ay)+, destination (Ax)+ -/
  | postInc (sz : Size) (ay ax : Reg)
deriving DecidableEq, Repr

/-- The shape and fields of an instruction (R92). -/
def Instr.view : Instr → View
  | .cmpB ea dn => .toReg .cmp .b ea dn
  | .cmpW ea dn => .toReg .cmp .w ea dn
  | .cmpL ea dn => .toReg .cmp .l ea dn
  | .cmpaW ea an => .toReg .cmpa .w ea an
  | .cmpaL ea an => .toReg .cmpa .l ea an
  | .cmpiB v ea => .immToEa .cmpi .b v ea
  | .cmpiW v ea => .immToEa .cmpi .w v ea
  | .cmpiL v ea => .immToEa .cmpi .l v ea
  | .cmpmB ay ax => .postInc .b ay ax
  | .cmpmW ay ax => .postInc .w ay ax
  | .cmpmL ay ax => .postInc .l ay ax
  | .andB ea dn => .toReg .andToReg .b ea dn
  | .andW ea dn => .toReg .andToReg .w ea dn
  | .andL ea dn => .toReg .andToReg .l ea dn
  | .andToEaB dn ea => .toEa .andToEa .b dn ea
  | .andToEaW dn ea => .toEa .andToEa .w dn ea
  | .andToEaL dn ea => .toEa .andToEa .l dn ea
  | .orB ea dn => .toReg .orToReg .b ea dn
  | .orW ea dn => .toReg .orToReg .w ea dn
  | .orL ea dn => .toReg .orToReg .l ea dn
  | .orToEaB dn ea => .toEa .orToEa .b dn ea
  | .orToEaW dn ea => .toEa .orToEa .w dn ea
  | .orToEaL dn ea => .toEa .orToEa .l dn ea
  | .eorB dn ea => .toEa .eor .b dn ea
  | .eorW dn ea => .toEa .eor .w dn ea
  | .eorL dn ea => .toEa .eor .l dn ea
  | .andiB v ea => .immToEa .andi .b v ea
  | .andiW v ea => .immToEa .andi .w v ea
  | .andiL v ea => .immToEa .andi .l v ea
  | .oriB v ea => .immToEa .ori .b v ea
  | .oriW v ea => .immToEa .ori .w v ea
  | .oriL v ea => .immToEa .ori .l v ea
  | .eoriB v ea => .immToEa .eori .b v ea
  | .eoriW v ea => .immToEa .eori .w v ea
  | .eoriL v ea => .immToEa .eori .l v ea

/-- The dispatch-table row an instruction belongs to. -/
def View.form : View → Form
  | .toReg h sz ea _ => ⟨h, sz, ea.variant⟩
  | .toEa h sz _ ea => ⟨h, sz, ea.variant⟩
  | .immToEa h sz _ ea => ⟨h, sz, ea.variant⟩
  | .postInc sz _ _ => ⟨.cmpm, sz, .postInc⟩

def Instr.form (i : Instr) : Form := i.view.form

/-- `extension_size` of a variant at a size, in bytes (R131). -/
def Variant.extSize (sz : Size) : Variant → Nat
  | .dn | .an | .ind | .postInc | .preDec => 0
  | .disp | .index | .absW | .pcDisp | .pcIndex => 2
  | .absL => 4
  | .imm => match sz with
    | .b | .w => 2
    | .l => 4

def EA.extSize {sz : Size} (ea : EA sz) : Nat := ea.variant.extSize sz

/-- Length in bytes: `2 + ext_size(source) + ext_size(destination)` (R99). -/
def View.length : View → Nat
  | .toReg _ _ ea _ => 2 + ea.extSize
  | .toEa _ _ _ ea => 2 + ea.extSize
  | .immToEa _ sz _ ea => 2 + Variant.imm.extSize sz + ea.extSize
  | .postInc _ _ _ => 2

def Instr.length (i : Instr) : Nat := i.view.length

end Sys2Proof
end

