-- ==== Sys2Proof/WellFormed.lean ====
section
/-! DEFINITION. Which instructions exist: the legal addressing modes of each instruction at each size (R100), and the
writability rule of R111. A Form outside this list has no row in the opcode table. -/

namespace Sys2Proof

/-- Class "data alterable" of R100. -/
def Variant.dataAlterable : List Variant :=
  [.dn, .ind, .postInc, .preDec, .disp, .index, .absW, .absL]

/-- Class "memory alterable" of R100. -/
def Variant.memoryAlterable : List Variant :=
  [.ind, .postInc, .preDec, .disp, .index, .absW, .absL]

/-- Class "data" of R100: all except An. -/
def Variant.data : List Variant :=
  [.dn, .ind, .postInc, .preDec, .disp, .index, .absW, .absL, .pcDisp, .pcIndex, .imm]

/-- All twelve modes. -/
def Variant.all : List Variant :=
  [.dn, .an, .ind, .postInc, .preDec, .disp, .index, .absW, .absL, .pcDisp, .pcIndex, .imm]

/-- The legal modes of R100, one list for each instruction and size. -/
def Handler.legalModes : Handler → Size → List Variant
  | .cmp, .b => Variant.data
  | .cmp, .w => Variant.all
  | .cmp, .l => Variant.all
  | .cmpa, .b => []
  | .cmpa, .w => Variant.all
  | .cmpa, .l => Variant.all
  | .cmpi, _ => Variant.dataAlterable
  | .cmpm, _ => [.postInc]
  | .andToReg, _ => Variant.data
  | .orToReg, _ => Variant.data
  | .andToEa, _ => Variant.memoryAlterable
  | .orToEa, _ => Variant.memoryAlterable
  | .eor, _ => Variant.dataAlterable
  | .andi, _ => Variant.dataAlterable
  | .ori, _ => Variant.dataAlterable
  | .eori, _ => Variant.dataAlterable

/-- A form is legal when its mode is among the legal ones. -/
def Form.legal (f : Form) : Bool := (f.handler.legalModes f.size).contains f.variant

/-- A handler that writes through its `<ea>` operand (R210). -/
def Handler.writesEa : Handler → Bool
  | .andToEa | .orToEa | .eor | .andi | .ori | .eori => true
  | .cmp | .cmpa | .cmpi | .cmpm | .andToReg | .orToReg => false

/-- The variants that provide no `put` (R111, R138, R148-R150). -/
def Variant.readOnly : Variant → Bool
  | .an | .pcDisp | .pcIndex | .imm => true
  | .dn | .ind | .postInc | .preDec | .disp | .index | .absW | .absL => false

/-- The writability rule of R111 and R246: no form writes through a read-only variant. -/
def Form.writable (f : Form) : Bool := !(f.handler.writesEa && f.variant.readOnly)

/-- The byte-size address-register-direct form is invalid (R21, R154). -/
def Form.sized (f : Form) : Bool := !(f.size == .b && f.variant == .an)

/-- An instruction is well formed when it belongs to an installed row (R100), writes nothing read-only (R111) and reads
no address register as a byte (R154). The last two follow from the first; they are kept as checks of their own because
R103 and R246 ask a table to be refused for each. -/
def Instr.wellFormed (i : Instr) : Bool := i.form.legal && i.form.writable && i.form.sized

end Sys2Proof
end

