-- ==== Sys2Proof/Decode.lean ====
section
/-! DEFINITION. Byte order, the dispatch table with its masked lookup (R101-R106), the decoder of an instruction's bytes
and, after it, the encoder. The table is built by the two installers as the spec says it is; the encoder is written from
the same encoding tables (R91-R101). -/

namespace Sys2Proof

/-! ### Byte order (R62) -/

/-- The word whose byte at the lower address is `x` and at the higher `y`. The big order is R62's; the other order is its
mirror image (DEDUCED, log entry 5). -/
def ByteOrder.joinWord : ByteOrder → Byte → Byte → Word
  | .big, x, y => x ++ y
  | .little, x, y => y ++ x

/-- The long whose word at the lower address is `x` and at the higher `y`. -/
def ByteOrder.joinLong : ByteOrder → Word → Word → Long
  | .big, x, y => x ++ y
  | .little, x, y => y ++ x

/-- The bytes of a word, lower address first. -/
def ByteOrder.splitWord : ByteOrder → Word → Byte × Byte
  | .big, v => (v.extractLsb' 8 8, v.extractLsb' 0 8)
  | .little, v => (v.extractLsb' 0 8, v.extractLsb' 8 8)

/-- The words of a long, lower address first. -/
def ByteOrder.splitLong : ByteOrder → Long → Word × Word
  | .big, v => (v.extractLsb' 16 16, v.extractLsb' 0 16)
  | .little, v => (v.extractLsb' 0 16, v.extractLsb' 16 16)

/-! ### Fields of the opcode word (R91, R93, R94) -/

/-- Bits 11:9, Rx or Ax. -/
def rxField (w : Word) : Reg := (w.extractLsb' 9 3).toFin

/-- Bits 2:0, reg or Ay. -/
def ryField (w : Word) : Reg := (w.extractLsb' 0 3).toFin

/-- The two-bit size code of R93. -/
def Size.code : Size → Word
  | .b => 0
  | .w => 1
  | .l => 2

/-- The effective-address field of R94 with a zero register number: `mode << 3`, and for mode 111 its reg too. -/
def Variant.code : Variant → Word
  | .dn => 0b000000
  | .an => 0b001000
  | .ind => 0b010000
  | .postInc => 0b011000
  | .preDec => 0b100000
  | .disp => 0b101000
  | .index => 0b110000
  | .absW => 0b111000
  | .absL => 0b111001
  | .pcDisp => 0b111010
  | .pcIndex => 0b111011
  | .imm => 0b111100

/-- Modes 000 to 110 carry a register number in bits 2:0 (R94). -/
def Variant.hasReg : Variant → Bool
  | .dn | .an | .ind | .postInc | .preDec | .disp | .index => true
  | .absW | .absL | .pcDisp | .pcIndex | .imm => false

/-- The base pattern of a row (R101). -/
def Form.base (f : Form) : Word :=
  match f.handler with
  | .cmp => 0xB000 ||| f.size.code <<< 6 ||| f.variant.code
  | .cmpa => (match f.size with | .l => 0xB1C0 | _ => 0xB0C0) ||| f.variant.code
  | .cmpi => 0x0C00 ||| f.size.code <<< 6 ||| f.variant.code
  | .cmpm => 0xB108 ||| f.size.code <<< 6
  | .andToReg => 0xC000 ||| f.size.code <<< 6 ||| f.variant.code
  | .andToEa => 0xC100 ||| f.size.code <<< 6 ||| f.variant.code
  | .orToReg => 0x8000 ||| f.size.code <<< 6 ||| f.variant.code
  | .orToEa => 0x8100 ||| f.size.code <<< 6 ||| f.variant.code
  | .eor => 0xB100 ||| f.size.code <<< 6 ||| f.variant.code
  | .andi => 0x0200 ||| f.size.code <<< 6 ||| f.variant.code
  | .ori => 0x0000 ||| f.size.code <<< 6 ||| f.variant.code
  | .eori => 0x0A00 ||| f.size.code <<< 6 ||| f.variant.code

/-- F3 words have no Rx field (R91). -/
def Handler.hasRx : Handler → Bool
  | .cmpi | .andi | .ori | .eori => false
  | .cmp | .cmpa | .cmpm | .andToReg | .andToEa | .orToReg | .orToEa | .eor => true

/-- The don't-care mask of a row: the register fields it has (R101). -/
def Form.dontCare (f : Form) : Word :=
  (if f.handler.hasRx then 0x0E00 else 0) ||| (if f.variant.hasReg then 0x0007 else 0)

/-! ### The dispatch table (R102, R103) -/

/-- `(base, dontcare, handler, aux)` of R102. -/
structure Entry where
  base : Word
  dontCare : Word
  form : Form
deriving DecidableEq, Repr

def Form.entry (f : Form) : Entry := ⟨f.base, f.dontCare, f⟩

/-- The rows of one instruction: every size, every legal mode (R100). -/
def Handler.forms (h : Handler) : List Form :=
  [Size.b, Size.w, Size.l].flatMap fun sz => (h.legalModes sz).map fun v => ⟨h, sz, v⟩

/-- The installer of the compare family (D2). -/
def compareInstaller : List Entry :=
  ([.cmp, .cmpa, .cmpi, .cmpm].flatMap Handler.forms).map Form.entry

/-- The installer of the logical family (D2). -/
def logicalInstaller : List Entry :=
  ([.andToReg, .andToEa, .orToReg, .orToEa, .eor, .andi, .ori, .eori].flatMap Handler.forms).map Form.entry

/-- The table is built once from the installed families (R43, R103, R290). -/
def dispatchTable (fam : Families) : List Entry :=
  (if fam.compare then compareInstaller else []) ++ (if fam.logical then logicalInstaller else [])

/-- The masked test of R102: `base == w & ~dontcare`. -/
def Entry.hits (e : Entry) (w : Word) : Bool := e.base == w &&& ~~~ e.dontCare

/-- Two rows overlap when they agree on every bit both care about. -/
def Entry.overlaps (e f : Entry) : Bool :=
  (e.base ^^^ f.base) &&& ~~~ e.dontCare &&& ~~~ f.dontCare == 0

/-- One row is acceptable: its base has no don't-care bit set (C4), its form is legal and writable (R103, R111). -/
def Entry.acceptable (e : Entry) : Bool :=
  (e.base &&& e.dontCare == 0) && e.form.legal && e.form.writable && e.form.sized

/-- The validation at build time: every row acceptable, rows mutually exclusive (R103). -/
def tableValid : List Entry → Bool
  | [] => true
  | e :: t => e.acceptable && t.all (fun f => !e.overlaps f) && tableValid t

/-- Startup refuses a table that fails validation: no run starts with it (R103, R290). -/
def startup (t : List Entry) : Option (List Entry) := if tableValid t then some t else none

/-- The masked lookup: a pure function of the word and the table (R102, R106). -/
def lookup (t : List Entry) (w : Word) : Option Form := (t.find? (·.hits w)).map (·.form)

/-! ### From a row and its extension data to the instruction -/

/-- The brief extension word (R95); bits 10:8 are ignored. -/
def Brief.ofWord (e : Word) : Brief :=
  ⟨e.getLsbD 15, (e.extractLsb' 12 3).toFin, e.getLsbD 11, e.extractLsb' 0 8⟩

/-- The operand a variant gives at size `sz` with register number `n` and extension `x` (16 bits in its low half, or 32)
(R94-R97). -/
def EA.make (sz : Size) (n : Reg) (x : Long) : Variant → EA sz
  | .dn => .dn n
  | .an => .an n
  | .ind => .ind n
  | .postInc => .postInc n
  | .preDec => .preDec n
  | .disp => .disp n (x.setWidth 16)
  | .index => .index n (Brief.ofWord (x.setWidth 16))
  | .absW => .absW (x.setWidth 16)
  | .absL => .absL x
  | .pcDisp => .pcDisp (x.setWidth 16)
  | .pcIndex => .pcIndex (Brief.ofWord (x.setWidth 16))
  | .imm => .imm (x.setWidth sz.bits)

/-- Bytes of the F3 immediate, the source of its instruction, which comes first in the stream (R98). -/
def Form.immSize (f : Form) : Nat :=
  match f.handler with
  | .cmpi | .andi | .ori | .eori => Variant.imm.extSize f.size
  | .cmp | .cmpa | .cmpm | .andToReg | .andToEa | .orToReg | .orToEa | .eor => 0

/-- Bytes of the `<ea>` operand's extension (R131). -/
def Form.eaSize (f : Form) : Nat := f.variant.extSize f.size

/-- The shape a row's word stands for (R92), given its immediate and its `<ea>` extension. -/
def Form.view (f : Form) (w : Word) (imm x : Long) : View :=
  match f.handler with
  | .cmp | .cmpa | .andToReg | .orToReg =>
    .toReg f.handler f.size (EA.make f.size (ryField w) x f.variant) (rxField w)
  | .andToEa | .orToEa | .eor =>
    .toEa f.handler f.size (rxField w) (EA.make f.size (ryField w) x f.variant)
  | .cmpi | .andi | .ori | .eori =>
    .immToEa f.handler f.size (imm.setWidth f.size.bits) (EA.make f.size (ryField w) x f.variant)
  | .cmpm => .postInc f.size (ryField w) (rxField w)

/-- The instruction of a shape; none for the shapes no row has. -/
def View.instr : View → Option Instr
  | .toReg .cmp .b ea n => some (.cmpB ea n)
  | .toReg .cmp .w ea n => some (.cmpW ea n)
  | .toReg .cmp .l ea n => some (.cmpL ea n)
  | .toReg .cmpa .w ea n => some (.cmpaW ea n)
  | .toReg .cmpa .l ea n => some (.cmpaL ea n)
  | .toReg .andToReg .b ea n => some (.andB ea n)
  | .toReg .andToReg .w ea n => some (.andW ea n)
  | .toReg .andToReg .l ea n => some (.andL ea n)
  | .toReg .orToReg .b ea n => some (.orB ea n)
  | .toReg .orToReg .w ea n => some (.orW ea n)
  | .toReg .orToReg .l ea n => some (.orL ea n)
  | .toEa .andToEa .b n ea => some (.andToEaB n ea)
  | .toEa .andToEa .w n ea => some (.andToEaW n ea)
  | .toEa .andToEa .l n ea => some (.andToEaL n ea)
  | .toEa .orToEa .b n ea => some (.orToEaB n ea)
  | .toEa .orToEa .w n ea => some (.orToEaW n ea)
  | .toEa .orToEa .l n ea => some (.orToEaL n ea)
  | .toEa .eor .b n ea => some (.eorB n ea)
  | .toEa .eor .w n ea => some (.eorW n ea)
  | .toEa .eor .l n ea => some (.eorL n ea)
  | .immToEa .cmpi .b v ea => some (.cmpiB v ea)
  | .immToEa .cmpi .w v ea => some (.cmpiW v ea)
  | .immToEa .cmpi .l v ea => some (.cmpiL v ea)
  | .immToEa .andi .b v ea => some (.andiB v ea)
  | .immToEa .andi .w v ea => some (.andiW v ea)
  | .immToEa .andi .l v ea => some (.andiL v ea)
  | .immToEa .ori .b v ea => some (.oriB v ea)
  | .immToEa .ori .w v ea => some (.oriW v ea)
  | .immToEa .ori .l v ea => some (.oriL v ea)
  | .immToEa .eori .b v ea => some (.eoriB v ea)
  | .immToEa .eori .w v ea => some (.eoriW v ea)
  | .immToEa .eori .l v ea => some (.eoriL v ea)
  | .postInc .b ay ax => some (.cmpmB ay ax)
  | .postInc .w ay ax => some (.cmpmW ay ax)
  | .postInc .l ay ax => some (.cmpmL ay ax)
  | .toReg _ _ _ _ => none
  | .toEa _ _ _ _ => none
  | .immToEa _ _ _ _ => none

/-- The instruction of a row, its word and its extension data. -/
def Form.assemble (f : Form) (w : Word) (imm x : Long) : Option Instr := (f.view w imm x).instr

/-! ### The decoder on bytes -/

/-- Why bytes are no instruction. -/
inductive DecodeError where
  /-- no row matches the opcode word (R104) -/
  | illegal (word : Word)
  /-- the bytes end inside the instruction -/
  | truncated
deriving DecidableEq, Repr

/-- One word of the instruction stream in the bus's byte order. -/
def takeWord (o : ByteOrder) : List Byte → Option (Word × List Byte)
  | x :: y :: t => some (o.joinWord x y, t)
  | _ => none

/-- One long of the instruction stream (R96, R97). -/
def takeLong (o : ByteOrder) : List Byte → Option (Long × List Byte)
  | x :: y :: z :: u :: t => some (o.joinLong (o.joinWord x y) (o.joinWord z u), t)
  | _ => none

/-- One extension of `n` bytes, 0, 2 or 4 (R131). -/
def takeExt (o : ByteOrder) (n : Nat) (bs : List Byte) : Option (Long × List Byte) :=
  match n with
  | 0 => some (0, bs)
  | 2 => (takeWord o bs).map fun p => (p.1.setWidth 32, p.2)
  | _ => takeLong o bs

/-- The instruction at the head of `bs` in byte order `o`, with the bytes after it. -/
def decodeBytes (fam : Families) (o : ByteOrder) (bs : List Byte) : Except DecodeError (Instr × List Byte) :=
  match takeWord o bs with
  | none => .error .truncated
  | some (w, bs1) =>
    match lookup (dispatchTable fam) w with
    | none => .error (.illegal w)
    | some f =>
      match takeExt o f.immSize bs1 with
      | none => .error .truncated
      | some (imm, bs2) =>
        match takeExt o f.eaSize bs2 with
        | none => .error .truncated
        | some (x, bs3) =>
          match f.assemble w imm x with
          | none => .error (.illegal w)
          | some i => .ok (i, bs3)

/-! ### The encoder -/

/-- The register number in bits 2:0 of an operand's field (R94); zero where mode 111 fixes those bits. -/
def EA.regField {sz : Size} : EA sz → Reg
  | .dn n | .an n | .ind n | .postInc n | .preDec n | .disp n _ | .index n _ => n
  | .absW _ | .absL _ | .pcDisp _ | .pcIndex _ | .imm _ => 0

/-- The opcode word of a row with its register numbers put in. -/
def Form.word (f : Form) (rx ry : Reg) : Word :=
  f.base ||| (BitVec.ofNat 16 rx.val <<< 9) ||| BitVec.ofNat 16 ry.val

/-- The opcode word of an instruction (R91, R101). -/
def View.opword (v : View) : Word :=
  match v with
  | .toReg _ _ ea rx => v.form.word rx ea.regField
  | .toEa _ _ rx ea => v.form.word rx ea.regField
  | .immToEa _ _ _ ea => v.form.word 0 ea.regField
  | .postInc _ ay ax => v.form.word ax ay

/-- The brief extension word with its ignored bits 10:8 zero (R95). -/
def Brief.word (x : Brief) : Word :=
  (BitVec.ofBool x.isAddr).setWidth 16 <<< 15 ||| BitVec.ofNat 16 x.reg.val <<< 12 |||
    (BitVec.ofBool x.isLong).setWidth 16 <<< 11 ||| x.d8.setWidth 16

/-- One piece of the instruction stream after the opcode word: a word, or a long that is read as one access (D38). -/
inductive ExtItem where
  | word (v : Word)
  | long (v : Long)
deriving DecidableEq, Repr

/-- The extension of an immediate of size `sz`; the high byte of a byte immediate is zero (R97). -/
def immItem (sz : Size) (v : BitVec sz.bits) : ExtItem :=
  match sz with
  | .b | .w => .word (v.setWidth 16)
  | .l => .long (v.setWidth 32)

/-- The extension of an operand (R95-R97, R131). -/
def EA.items {sz : Size} : EA sz → List ExtItem
  | .dn _ | .an _ | .ind _ | .postInc _ | .preDec _ => []
  | .disp _ d => [.word d]
  | .index _ x => [.word x.word]
  | .absW a => [.word a]
  | .absL a => [.long a]
  | .pcDisp d => [.word d]
  | .pcIndex x => [.word x.word]
  | .imm v => [immItem sz v]

/-- The extensions of an instruction, source first (R98). -/
def View.items : View → List ExtItem
  | .toReg _ _ ea _ => ea.items
  | .toEa _ _ _ ea => ea.items
  | .immToEa _ sz v ea => immItem sz v :: ea.items
  | .postInc _ _ _ => []

/-- The words of an extension under the big order (R96). -/
def ExtItem.words : ExtItem → List Word
  | .word v => [v]
  | .long v => [v.extractLsb' 16 16, v.extractLsb' 0 16]

/-- The words of an instruction as the spec writes them, in the big order. -/
def encode (i : Instr) : List Word := i.view.opword :: i.view.items.flatMap ExtItem.words

def ByteOrder.wordBytes (o : ByteOrder) (v : Word) : List Byte := [(o.splitWord v).1, (o.splitWord v).2]

def ExtItem.bytes (o : ByteOrder) : ExtItem → List Byte
  | .word v => o.wordBytes v
  | .long v => o.wordBytes (o.splitLong v).1 ++ o.wordBytes (o.splitLong v).2

/-- The bytes of an instruction in byte order `o`, lowest address first. -/
def encodeBytes (o : ByteOrder) (i : Instr) : List Byte :=
  o.wordBytes i.view.opword ++ i.view.items.flatMap (ExtItem.bytes o)

/-! ### The host's view of the decoder -/

/-- Word `k` of an instruction numbered as the opcode table numbers it, the bits at and above `nbits` zero. -/
def tableWord (nbits w k : Nat) : Word := BitVec.ofNat 16 (w % 2 ^ nbits / 2 ^ (16 * k))

/-- The five words of the longest instruction (R99), laid out in byte order `o`. -/
def tableBytes (o : ByteOrder) (nbits w : Nat) : List Byte :=
  [0, 1, 2, 3, 4].flatMap fun k => o.wordBytes (tableWord nbits w k)

/-- The instruction the decoder reads from an instruction whose bits are `w`, all bits above `nbits` zero. -/
def decodeTableWord (nbits w : Nat) : Option Instr :=
  match decodeBytes Families.default .big (tableBytes .big nbits w) with
  | .ok (i, _) => some i
  | .error _ => none

end Sys2Proof
end

