-- ==== Sys2Proof/Machine/State.lean ====
section
/-! DEFINITION. The machine's state as plain data (10_state.md), the reasons a step can stop, and the state after reset.
The fields that are not the spec's own tuple are the bus behind the port (20_memory.md), the host's calls
(70_reset_and_hazards.md R292) and the configuration of R43. -/

namespace Sys2Proof.Machine

/-- `Cell32 = Unwritten | Val(Bits32)` (R26). -/
inductive Cell where
  | unwritten
  | val (v : Long)
deriving DecidableEq, Repr

/-- The status word's fields (R30). The bits between them are not implemented. -/
structure StatusReg where
  /-- bit 13, 1 = supervisor -/
  s : Bool
  /-- bits 10:8, the interrupt priority mask -/
  i : BitVec 3
  /-- bit 4, extend -/
  x : Bool
  /-- bit 3, negative -/
  n : Bool
  /-- bit 2, zero -/
  z : Bool
  /-- bit 1, overflow -/
  v : Bool
  /-- bit 0, carry -/
  c : Bool
deriving DecidableEq, Repr

/-- The four address-space tags (R60). -/
inductive Tag where
  | supervisorProgram
  | supervisorData
  | userProgram
  | userData
deriving DecidableEq, Repr

/-- Which access of a transaction it is (R240). -/
inductive AccessKind where
  | opcode
  | extension
  | operandRead
  | operandWrite
  | framePush
  | vectorFetch
deriving DecidableEq, Repr

/-- One bus transaction the block has issued (R60): a write carries the value it sends, zero-extended to 32 bits. -/
structure Access where
  kind : AccessKind
  tag : Tag
  addr : Long
  size : Size
  sent : Option Long
deriving DecidableEq, Repr

/-- What the bus answers to one access (R61, R68; log entry 7). -/
inductive BusAnswer where
  /-- the reference bus: a read returns the bytes last written, a write stores its bytes -/
  | memory
  /-- something that is not plain memory: a read returns the low bits of `v`, a write is accepted and stores no byte -/
  | device (v : Long)
  /-- the access fails; after a failed write the bytes of its destination hold `left`, or what they held (R68, C9) -/
  | fail (left : Option Long)
deriving DecidableEq, Repr

/-- Memory as (address, byte) pairs: addresses strictly rising, no entry equal to what an unlisted address reads as. -/
abbrev Memory := List (Nat × Byte)

/-- The bus behind the block's one master port, with its OPEN parameters (R60-R62, R69). -/
structure Bus where
  addrBits : AddrBits
  byteOrder : ByteOrder
  mem : Memory
  /-- the answers to the next accesses, oldest first; an access after their end is answered by the reference bus -/
  answers : List BusAnswer
  /-- the accesses issued so far, oldest first -/
  log : List Access
deriving DecidableEq, Repr

/-- A transaction the host can ask of the block at an instruction boundary (R292), or its own use of the bus between
transactions. -/
inductive HostCall where
  | reset (pc : Long) (ccr : BitVec 5)
  | decodeAndExecute
  | maybeDeliverInterrupt
  | requestInterrupt (p : Nat) (v : Byte)
  /-- `x` is the port's index: 0..7 = D0..D7, 8..15 = A0..A7 (R25) -/
  | getRegister (x : Fin 16) (sz : Size)
  | setRegister (x : Fin 16) (sz : Size) (v : Long)
  | getStatus
  | setStatus (v : Word)
  | getPc
  | setPc (v : Long)
  | busRead (addr : Long) (sz : Size)
  | busWrite (addr : Long) (sz : Size) (v : Long)
deriving DecidableEq, Repr

/-- What a host call gives back (R292); a fault is an outcome of the step and no reply. -/
inductive HostReply where
  | none
  | ok
  | value (v : Long)
  | rejected
deriving DecidableEq, Repr

/-- The host port: the calls still to come, oldest first, and what the last one gave back (log entry 10). -/
structure HostPort where
  calls : List HostCall
  reply : HostReply
deriving DecidableEq, Repr

/-- A register as a fault names it (R240); A7 is the live stack pointer. -/
inductive RegName where
  | d (n : Reg)
  | a (n : Reg)
deriving DecidableEq, Repr

/-- The faults of R240. Each is terminal (R13) and never vectored (R248). -/
inductive Fault where
  /-- Raised by decode_and_execute when no dispatch entry matches the word at `pc` (R241). Safe: the spec reports the
  condition to the driver and takes no further step. -/
  | illegal (pc : Long) (word : Word)
  /-- Raised by any access the bus fails (R242). Safe: terminal in the spec too. -/
  | busFault (kind : AccessKind) (tag : Tag) (addr : Long) (size : Size)
  /-- Raised by any word or long access at an odd address, before it reaches the bus (R243). Safe: terminal in the spec
  too. -/
  | misaligned (kind : AccessKind) (tag : Tag) (addr : Long) (size : Size)
  /-- Raised by any read of an unwritten register cell: the spec says that the machine stops here (R26, R190, R210, R240,
  R244, R260, D22). No register of State.reset is unwritten. Safe: terminal in the spec too. -/
  | unwritten (reg : RegName)
deriving DecidableEq, Repr

/-- What has no meaning at all. -/
inductive Refusal where
  /-- An instruction with no meaning yet, rejected by its name in the opcode table. Safe. No arm answers with it. -/
  | notModelled (mnemonic : String)
  /-- Raised by a descriptor that the type system of the hardware makes impossible: a `put` through An, an immediate or
  a PC-relative operand, or a byte read of An (R111, R246, R154). No decoded instruction reaches it. Safe. -/
  | invalidOperand
deriving DecidableEq, Repr

/-- Why a transaction stopped. -/
inductive Stop where
  | fault (f : Fault)
  | refused (r : Refusal)
deriving DecidableEq, Repr

/-- An interrupt level 1..7, held as 0..6. -/
abbrev Level := Fin 7

/-- Everything the spec gives the machine. -/
structure State where
  /-- D0-D7 (R20) -/
  d : Vector Cell 8
  /-- A0-A7; A7 is the live stack pointer (R20, R27) -/
  a : Vector Cell 8
  /-- the stack pointer of the other mode (R27) -/
  shadowSP : Cell
  /-- R29 -/
  pc : Long
  /-- R30 -/
  sr : StatusReg
  /-- the pending vectors of levels 1..7, at index level - 1, oldest first (R38) -/
  queues : Vector (List Byte) 7
  /-- "interrupt outstanding" (R38, R39) -/
  outstanding : Bool
  /-- the installed families, from which the dispatch table is built (R8, R43) -/
  families : Families
  bus : Bus
  port : HostPort
deriving DecidableEq, Repr

/-- The machine right after reset, in the state of the boot of R291: supervisor mode, mask 7 and an idle interrupt
controller as R44 and R290 give them; memory lists nothing (DESIGN CHOICE, unsafe, log entry 3); every register holds Config.launchRegister (DESIGN CHOICE, unsafe, log
entry 1), pc holds Config.launchPC and the flags are clear (DESIGN CHOICE, unsafe, log entry 2). What the bus answers is
open (R61, I24): here `bus.answers` is empty, and no step adds to it, so in every run from this state the bus is plain
memory that never fails (DESIGN CHOICE, unsafe, log entry 7). No host call waits (DESIGN CHOICE, log entry 10). R290's own reset
transaction, which leaves the cells unwritten, is HostCall.reset. -/
def State.reset : State where
  d := Vector.replicate 8 (.val Config.launchRegister)
  a := Vector.replicate 8 (.val Config.launchRegister)
  shadowSP := .val Config.launchRegister
  pc := Config.launchPC
  sr := { s := true, i := 7, x := false, n := false, z := false, v := false, c := false }
  queues := Vector.replicate 7 []
  outstanding := false
  families := Families.default
  bus := { addrBits := .bits32, byteOrder := .big, mem := [], answers := [], log := [] }
  port := { calls := [], reply := .none }

end Sys2Proof.Machine
end

