-- ==== Sys2Proof/Machine/Ops.lean ====
section
/-! DEFINITION. The named operations over memory, the bus port, registers, the status word, the privilege mode and the
interrupt controller. An operation that can stop is an Op: it answers a value with the next state, or the reason it
stopped with the state its earlier steps left (R260, R264, D39). -/

namespace Sys2Proof.Machine

/-- An operation of the block. -/
abbrev Op (α : Type) := EStateM Stop State α

/-- The outcome the host sees; a fault is terminal, so the state at a fault is dropped here (R13; log entry 11). -/
def toOutcome {α : Type} : EStateM.Result Stop State α → Host.Outcome State Fault Refusal
  | .ok _ s => .next s
  | .error (.fault f) _ => .fault f
  | .error (.refused r) _ => .refused r

def raise {α : Type} (f : Fault) : Op α := throw (.fault f)

/-! ### Updates of one field -/

def State.setD (s : State) (n : Reg) (c : Cell) : State := { s with d := s.d.set n c }
def State.setA (s : State) (n : Reg) (c : Cell) : State := { s with a := s.a.set n c }
def State.setShadow (s : State) (c : Cell) : State := { s with shadowSP := c }
def State.setPC (s : State) (v : Long) : State := { s with pc := v }
def State.setSR (s : State) (r : StatusReg) : State := { s with sr := r }
def State.setQueue (s : State) (l : Level) (q : List Byte) : State := { s with queues := s.queues.set l q }
def State.setOutstanding (s : State) (o : Bool) : State := { s with outstanding := o }
def State.setBus (s : State) (b : Bus) : State := { s with bus := b }
def State.setPort (s : State) (p : HostPort) : State := { s with port := p }

/-! ### Memory: the byte array behind the reference bus (R61) -/

/-- What an unlisted address reads as (DESIGN CHOICE, unsafe, log entry 3). -/
def Memory.blank : Byte := 0

def Memory.read : Memory → Nat → Byte
  | [], _ => Memory.blank
  | (k, v) :: t, a => if k = a then v else Memory.read t a

/-- Put `v` at `a`, keeping the canonical form: writing the blank value removes the entry. -/
def Memory.write : Memory → Nat → Byte → Memory
  | [], a, v => if v = Memory.blank then [] else [(a, v)]
  | (k, u) :: t, a, v =>
    if a < k then (if v = Memory.blank then (k, u) :: t else (a, v) :: (k, u) :: t)
    else if a = k then (if v = Memory.blank then t else (a, v) :: t)
    else (k, u) :: Memory.write t a v

/-- Every address is at least `lo`, addresses strictly rise, no entry is blank. -/
def Memory.wfFrom : Nat → Memory → Bool
  | _, [] => true
  | lo, (k, v) :: t => decide (lo ≤ k) && decide (v ≠ Memory.blank) && Memory.wfFrom (k + 1) t

/-- The canonical form. -/
def Memory.wf (m : Memory) : Bool := Memory.wfFrom 0 m

/-- The cell a 32-bit address selects: the bus decodes `addr mod 2^addrBits` (R69). -/
def Bus.cell (b : Bus) (addr : Long) : Nat := addr.toNat % 2 ^ b.addrBits.count

/-- The memory's form, with every entry inside the decoded address space. -/
def Bus.wf (b : Bus) : Bool := b.mem.wf && b.mem.all fun e => decide (e.1 < 2 ^ b.addrBits.count)

/-- Read one byte. -/
def Bus.peekByte (b : Bus) (addr : Long) : Byte := b.mem.read (b.cell addr)

def Bus.peekWord (b : Bus) (addr : Long) : Word :=
  b.byteOrder.joinWord (b.peekByte addr) (b.peekByte (addr + 1))

def Bus.peekLong (b : Bus) (addr : Long) : Long :=
  b.byteOrder.joinLong (b.peekWord addr) (b.peekWord (addr + 2))

/-- What the byte array holds at `addr`, at a size (R62). Each byte's address is decoded by itself (log entry 6). -/
def Bus.peek (b : Bus) (addr : Long) : (sz : Size) → BitVec sz.bits
  | .b => b.peekByte addr
  | .w => b.peekWord addr
  | .l => b.peekLong addr

def Bus.pokeByte (b : Bus) (addr : Long) (v : Byte) : Bus := { b with mem := b.mem.write (b.cell addr) v }

def Bus.pokeWord (b : Bus) (addr : Long) (v : Word) : Bus :=
  (b.pokeByte addr (b.byteOrder.splitWord v).1).pokeByte (addr + 1) (b.byteOrder.splitWord v).2

def Bus.pokeLong (b : Bus) (addr : Long) (v : Long) : Bus :=
  (b.pokeWord addr (b.byteOrder.splitLong v).1).pokeWord (addr + 2) (b.byteOrder.splitLong v).2

/-- Store at a size in the bus's byte order (R62). -/
def Bus.poke (b : Bus) (addr : Long) : (sz : Size) → BitVec sz.bits → Bus
  | .b, v => b.pokeByte addr v
  | .w, v => b.pokeWord addr v
  | .l, v => b.pokeLong addr v

/-! ### The bus port (R60, R63, R68, R73) -/

/-- The answer to the next access. -/
def Bus.answer (b : Bus) : BusAnswer := b.answers.headD .memory

/-- Put an access on the port: it takes the next answer and stands in the log. -/
def Bus.issue (b : Bus) (x : Access) : Bus := { b with answers := b.answers.tail, log := b.log ++ [x] }

/-- What a read brings back; none when the access fails. -/
def Bus.readAnswer (b : Bus) (addr : Long) (sz : Size) : Option (BitVec sz.bits) :=
  match b.answer with
  | .memory => some (b.peek addr sz)
  | .device v => some (v.setWidth sz.bits)
  | .fail _ => none

/-- What a write does to the bytes behind the bus, and whether the access succeeds (R66, R68). -/
def Bus.writeAnswer (b : Bus) (addr : Long) (sz : Size) (v : BitVec sz.bits) : Bus × Bool :=
  match b.answer with
  | .memory => (b.poke addr sz v, true)
  | .device _ => (b, true)
  | .fail none => (b, false)
  | .fail (some u) => (b.poke addr sz (u.setWidth sz.bits), false)

/-- A word or long access at an odd address (R63, R243). -/
def misaligned (addr : Long) (sz : Size) : Bool := sz != .b && addr.getLsbD 0

/-- `MemRead(tag, addr, n)` of R60 for an access of kind `kind`. -/
def busRead (kind : AccessKind) (tag : Tag) (addr : Long) (sz : Size) : Op (BitVec sz.bits) :=
  if misaligned addr sz then raise (.misaligned kind tag addr sz)
  else do
    let s ← get
    set (s.setBus (s.bus.issue ⟨kind, tag, addr, sz, none⟩))
    match s.bus.readAnswer addr sz with
    | some v => pure v
    | none => raise (.busFault kind tag addr sz)

/-- `MemWrite(tag, addr, n, v)` of R60 for an access of kind `kind`. -/
def busWrite (kind : AccessKind) (tag : Tag) (addr : Long) (sz : Size) (v : BitVec sz.bits) : Op Unit :=
  if misaligned addr sz then raise (.misaligned kind tag addr sz)
  else do
    let s ← get
    set (s.setBus ((s.bus.writeAnswer addr sz v).1.issue ⟨kind, tag, addr, sz, some (v.setWidth 32)⟩))
    if (s.bus.writeAnswer addr sz v).2 then pure () else raise (.busFault kind tag addr sz)

/-- The program selector (R36); it follows SR.S by being computed from it (R37). -/
def State.progTag (s : State) : Tag := if s.sr.s then .supervisorProgram else .userProgram

/-- The data selector (R36). -/
def State.dataTag (s : State) : Tag := if s.sr.s then .supervisorData else .userData

/-! ### Registers (R20-R27) -/

def State.cell (s : State) : RegName → Cell
  | .d n => s.d[n]
  | .a n => s.a[n]

def Cell.written : Cell → Bool
  | .unwritten => false
  | .val _ => true

/-- The value of a written cell. An operation looks at it only after it has checked that the cell is written. -/
def Cell.value : Cell → Long
  | .unwritten => 0
  | .val v => v

def State.value (s : State) (r : RegName) : Long := (s.cell r).value

/-- Read all 32 bits of a register; an unwritten cell faults (R26, R244). -/
def readReg (r : RegName) : Op Long := do
  let s ← get
  match s.cell r with
  | .val v => pure v
  | .unwritten => raise (.unwritten r)

/-- Read registers in order for nothing but the fault an unwritten one raises. -/
def requireRegs : List RegName → Op Unit
  | [] => pure ()
  | r :: t => do
    let _ ← readReg r
    requireRegs t

/-- `D[31:bits(sz)] ++ trunc_sz(v)` (R22). -/
def replaceLow (old : Long) : (sz : Size) → BitVec sz.bits → Long
  | .b, v => old.extractLsb' 8 24 ++ v
  | .w, v => old.extractLsb' 16 16 ++ v
  | .l, v => v

/-- Data-register write at a width; a narrow write to an unwritten cell faults (R22). -/
def writeD (sz : Size) (n : Reg) (v : BitVec sz.bits) : Op Unit := do
  match sz with
  | .l => modify fun s => s.setD n (.val (v.setWidth 32))
  | .b | .w =>
    let old ← readReg (.d n)
    modify fun s => s.setD n (.val (replaceLow old sz v))

/-- Address-register write: always all 32 bits (R23). -/
def writeA (n : Reg) (v : Long) : Op Unit := modify fun s => s.setA n (.val v)

/-! ### The status word and the privilege mode (R30-R34) -/

/-- `status()`: the composed word (R31). -/
def StatusReg.word (r : StatusReg) : Word :=
  (BitVec.ofBool r.s).setWidth 16 <<< 13 ||| r.i.setWidth 16 <<< 8 ||| (BitVec.ofBool r.x).setWidth 16 <<< 4 |||
    (BitVec.ofBool r.n).setWidth 16 <<< 3 ||| (BitVec.ofBool r.z).setWidth 16 <<< 2 |||
    (BitVec.ofBool r.v).setWidth 16 <<< 1 ||| (BitVec.ofBool r.c).setWidth 16

/-- `enter_privileged(b)`: the only swap of the live and the shadow stack pointer (R33). -/
def State.enterPrivileged (s : State) (b : Bool) : State :=
  if s.sr.s = b then s
  else ((s.setA 7 s.shadowSP).setShadow s.a[7]).setSR { s.sr with s := b }

/-- `set_status(v)`: the mode first, then the mask and the flags; the other bits are ignored (R34). -/
def State.setStatus (s : State) (v : Word) : State :=
  (s.enterPrivileged (v.getLsbD 13)).setSR
    { s := v.getLsbD 13, i := v.extractLsb' 8 3, x := v.getLsbD 4, n := v.getLsbD 3, z := v.getLsbD 2, v := v.getLsbD 1,
      c := v.getLsbD 0 }

/-- The user stack pointer, in whichever slot it is (R28). -/
def State.usp (s : State) : Cell := if s.sr.s then s.shadowSP else s.a[7]

/-- The supervisor stack pointer (R28). -/
def State.ssp (s : State) : Cell := if s.sr.s then s.a[7] else s.shadowSP

/-! ### The interrupt controller (R251-R262) -/

/-- The levels from 7 down to 1. -/
def Level.descending : List Level := [6, 5, 4, 3, 2, 1, 0]

/-- The priority number 1..7 of a level. -/
def Level.number (l : Level) : BitVec 3 := BitVec.ofNat 3 (l.val + 1)

/-- Some queue is non-empty (R39). -/
def State.anyPending (s : State) : Bool := Level.descending.any fun l => !s.queues[l].isEmpty

/-- The arbiter: the highest level whose queue is not empty (R254). -/
def State.selected (s : State) : Option Level := Level.descending.find? fun l => !s.queues[l].isEmpty

/-- Acceptance: level 7, or strictly above the mask (R255, R256). -/
def State.accepts (s : State) (l : Level) : Bool := l == 6 || decide (s.sr.i < l.number)

/-- The level the next delivery attempt delivers, if any (R254, R255). -/
def State.deliverable (s : State) : Option Level :=
  match s.selected with
  | some l => if s.accepts l then some l else none
  | none => none

/-- The level an interrupt priority names; none outside 1..7 (R245). -/
def levelOf (p : Nat) : Option Level := if h : 1 ≤ p ∧ p ≤ 7 then some ⟨p - 1, by omega⟩ else none

/-- `request_interrupt(p, v)`; none when it is rejected (R245, R252). -/
def State.requestInterrupt (s : State) (p : Nat) (v : Byte) : Option State :=
  match levelOf p with
  | some l => some ((s.setQueue l (s.queues[l] ++ [v])).setOutstanding true)
  | none => none

/-- The address of a vector's entry: `4·v`, the table at 0 (R72). -/
def vectorAddress (v : Byte) : Long := v.setWidth 32 <<< 2

/-- Taking an exception: the delivery sequence of R260 from the dequeued vector `v` of level `l` on, in the spec's order.
It saves the pc and the status word on the supervisor stack, enters supervisor mode, raises the mask to the level, and
puts the handler's address in pc. -/
def takeException (l : Level) (v : Byte) : Op Unit := do
  let s ← get
  let old := s.sr.word
  let oldpc := s.pc
  modify fun s => s.enterPrivileged true
  modify fun s => s.setSR { s.sr with i := l.number }
  let sp ← readReg (.a 7)
  busWrite .framePush .supervisorData (sp - 4) .l oldpc
  busWrite .framePush .supervisorData (sp - 6) .w old
  writeA 7 (sp - 6)
  let h ← busRead .vectorFetch .supervisorProgram (vectorAddress v) .l
  modify fun s => s.setOutstanding s.anyPending
  modify fun s => s.setPC h

/-- `maybe_deliver_interrupt`: one delivery attempt (R258-R260). -/
def maybeDeliverInterrupt : Op Unit := do
  let s ← get
  match s.deliverable with
  | none => pure ()
  | some l =>
    match s.queues[l] with
    | [] => pure ()
    | v :: rest =>
      set (s.setQueue l rest)
      takeException l v

/-- The return from a handler: the block has no instruction for it, and a host resumes the interrupted context by these
calls, with the status word and the pc it reads in the frame (R265). -/
def State.resumeCalls (s : State) : List HostCall :=
  let ssp := s.value (.a 7)
  [.busRead ssp .w, .busRead (ssp + 2) .l, .setRegister 15 .l (ssp + 6), .setPc (s.bus.peekLong (ssp + 2)),
    .setStatus (s.bus.peekWord ssp)]

/-! ### Reset (R290) -/

/-- `reset(resetPC, resetCCR)`: no bus access; the memory, the configuration and the host's calls are not the block's
and stay. `ccr` is X, N, Z, V, C from bit 4 down. -/
def State.resetTransaction (s : State) (pc : Long) (ccr : BitVec 5) : State :=
  { s with
    d := Vector.replicate 8 .unwritten
    a := Vector.replicate 8 .unwritten
    shadowSP := .unwritten
    pc := pc
    sr := { s := true, i := 7, x := ccr.getLsbD 4, n := ccr.getLsbD 3, z := ccr.getLsbD 2, v := ccr.getLsbD 1,
            c := ccr.getLsbD 0 }
    queues := Vector.replicate 7 []
    outstanding := false }

end Sys2Proof.Machine
end

