-- ==== Sys2Proof/Machine/Flags.lean ====
section
/-! DEFINITION. The ALU (R174, R175, R178, R179) and the two flag setters (R176, R177). Operands are bit vectors of the
operation's width, so truncation to the width is the arithmetic of BitVec (R174). -/

namespace Sys2Proof.Machine

/-- The logical operations of R175. -/
inductive LogicalOp where
  | and
  | or
  | eor
deriving DecidableEq, Repr

/-- `ALU_op(sz, d, s)` (R175, R178). -/
def LogicalOp.apply {w : Nat} : LogicalOp → BitVec w → BitVec w → BitVec w
  | .and, d, s => d &&& s
  | .or, d, s => d ||| s
  | .eor, d, s => d ^^^ s

/-- `setFromCompare(sz, d, s)`: destination minus source; X unchanged (R176). -/
def StatusReg.compared {w : Nat} (sr : StatusReg) (d s : BitVec w) : StatusReg :=
  let r := d - s
  { sr with
    n := r.msb
    z := r == 0
    v := (s.msb != d.msb) && (r.msb != d.msb)
    c := decide (d < s) }

/-- `setFromValue(sz, r)`: N and Z from the result, V and C cleared; X unchanged (R177). -/
def StatusReg.valued {w : Nat} (sr : StatusReg) (r : BitVec w) : StatusReg :=
  { sr with n := r.msb, z := r == 0, v := false, c := false }

/-- The 32-bit source of CMPA: a word is sign-extended (R179). -/
def addressSource (sz : Size) (v : BitVec sz.bits) : Long := v.signExtend 32

/-- The condition-code update of a compare. -/
def setFromCompare {w : Nat} (d s : BitVec w) : Op Unit := modify fun st => st.setSR (st.sr.compared d s)

/-- The condition-code update of a logical instruction. -/
def setFromValue {w : Nat} (r : BitVec w) : Op Unit := modify fun st => st.setSR (st.sr.valued r)

end Sys2Proof.Machine
end

