-- ==== Sys2Proof/Machine/Operands.lean ====
section
/-! DEFINITION. The operand resolver (40_operand_resolver.md): every addressing mode's location, `get`, `put` and
`finish`. The extension words a descriptor reads are the EA's own data, fetched once before (R133, Machine/Fetch.lean). -/

namespace Sys2Proof.Machine

/-- Where an operand is once its address is computed (R133). -/
inductive Loc (sz : Size) where
  | dreg (n : Reg)
  | areg (n : Reg)
  /-- in data space -/
  | mem (addr : Long)
  /-- in program space, read only: the PC-relative modes (R70, R148, R149) -/
  | prog (addr : Long)
  | imm (v : BitVec sz.bits)
deriving DecidableEq, Repr

/-- `step(n, sz)`: A7 keeps the stack aligned (R136). -/
def stepSize (n : Reg) (sz : Size) : Long := if n = 7 ∧ sz = .b then 2 else BitVec.ofNat 32 sz.bytes

end Sys2Proof.Machine

namespace Sys2Proof

open Machine

/-- The index register of a brief extension word (R145). -/
def Brief.regName (x : Brief) : RegName := if x.isAddr then .a x.reg else .d x.reg

/-- `index(e)`: the low word sign-extended, or all 32 bits (R145). -/
def Brief.index (x : Brief) (r : Long) : Long := if x.isLong then r else (r.extractLsb' 0 16).signExtend 32

/-- The registers an operand's address is formed from, in the order they are read: base, then index (log entry 12). -/
def EA.addressRegs {sz : Size} : EA sz → List RegName
  | .dn _ | .an _ | .absW _ | .absL _ | .pcDisp _ | .imm _ => []
  | .ind n | .postInc n | .preDec n | .disp n _ => [.a n]
  | .index n x => [.a n, x.regName]
  | .pcIndex x => [x.regName]

/-- The location of an operand whose first extension word is at `c` (R137-R150). -/
def EA.loc {sz : Size} (s : State) (c : Long) : EA sz → Loc sz
  | .dn n => .dreg n
  | .an n => .areg n
  | .ind n => .mem (s.value (.a n))
  | .postInc n => .mem (s.value (.a n))
  | .preDec n => .mem (s.value (.a n) - stepSize n sz)
  | .disp n d => .mem (s.value (.a n) + d.signExtend 32)
  | .index n x => .mem (s.value (.a n) + x.d8.signExtend 32 + x.index (s.value x.regName))
  | .absW a => .mem (a.signExtend 32)
  | .absL a => .mem a
  | .pcDisp d => .prog (c + d.signExtend 32)
  | .pcIndex x => .prog (c + x.d8.signExtend 32 + x.index (s.value x.regName))
  | .imm v => .imm v

/-- Resolve an operand once: read the registers of its address, then compute the location (R133, R247). -/
def EA.resolve {sz : Size} (ea : EA sz) (c : Long) : Op (Loc sz) := do
  requireRegs ea.addressRegs
  let s ← get
  pure (ea.loc s c)

/-- `finish`: the deferred post-increment or pre-decrement (R134, R141, R142). -/
def EA.finish {sz : Size} : EA sz → Op Unit
  | .postInc n => do
    let v ← readReg (.a n)
    writeA n (v + stepSize n sz)
  | .preDec n => do
    let v ← readReg (.a n)
    writeA n (v - stepSize n sz)
  | .dn _ | .an _ | .ind _ | .disp _ _ | .index _ _ | .absW _ | .absL _ | .pcDisp _ | .pcIndex _ | .imm _ => pure ()

end Sys2Proof

namespace Sys2Proof.Machine

/-- `get` (R135, R137, R138, R148-R150). -/
def Loc.get {sz : Size} : Loc sz → Op (BitVec sz.bits)
  | .dreg n => do
    let v ← readReg (.d n)
    pure (v.setWidth sz.bits)
  | .areg n =>
    if sz = .b then throw (.refused .invalidOperand)
    else do
      let v ← readReg (.a n)
      pure (v.setWidth sz.bits)
  | .mem addr => do
    let s ← MonadState.get
    busRead .operandRead s.dataTag addr sz
  | .prog addr => do
    let s ← MonadState.get
    busRead .operandRead s.progTag addr sz
  | .imm v => pure v

/-- `put`, which the read-only variants do not provide (R111, R135, R137). -/
def Loc.put {sz : Size} (v : BitVec sz.bits) : Loc sz → Op Unit
  | .dreg n => writeD sz n v
  | .mem addr => do
    let s ← MonadState.get
    busWrite .operandWrite s.dataTag addr sz v
  | .areg _ | .prog _ | .imm _ => throw (.refused .invalidOperand)

/-- The pc of the next instruction: past the base word and all extensions, modulo 2^32 (R170). -/
def advance (n : Nat) : Op Unit := modify fun s => s.setPC (s.pc + BitVec.ofNat 32 n)

end Sys2Proof.Machine
end

