-- ==== Sys2Proof/Machine/Compare.lean ====
section
/-! DEFINITION. The compare family: the compare branch of the uniform handler (R171, R190) and one meaning for each
constructor of CMP, CMPA, CMPI and CMPM (R191-R194). -/

namespace Sys2Proof.Machine

/-- The compare branch of R171, in the order of R172: source, destination, flags, `finish` of both, the next pc. -/
def compareHandler (sz : Size) (src dst : EA sz) : Op Unit := do
  let st ← get
  let c := st.pc + 2
  let ls ← src.resolve c
  let s ← ls.get
  let ld ← dst.resolve (c + BitVec.ofNat 32 src.extSize)
  let d ← ld.get
  setFromCompare d s
  src.finish
  dst.finish
  advance (2 + src.extSize + dst.extSize)

/-- CMPA: the destination is all 32 bits of An, a word source is sign-extended, the compare is at 32 bits (R179, R192). -/
def compareAddressHandler (sz : Size) (src : EA sz) (n : Reg) : Op Unit := do
  let st ← get
  let ls ← src.resolve (st.pc + 2)
  let s ← ls.get
  let d ← readReg (.a n)
  setFromCompare d (addressSource sz s)
  src.finish
  advance (2 + src.extSize)

/-- CMP (R191). -/
def execCmpB (ea : EA .b) (dn : Reg) (s : State) : Host.Outcome State Fault Refusal :=
  toOutcome (compareHandler .b ea (.dn dn) s)
def execCmpW (ea : EA .w) (dn : Reg) (s : State) : Host.Outcome State Fault Refusal :=
  toOutcome (compareHandler .w ea (.dn dn) s)
def execCmpL (ea : EA .l) (dn : Reg) (s : State) : Host.Outcome State Fault Refusal :=
  toOutcome (compareHandler .l ea (.dn dn) s)

/-- CMPA (R192). -/
def execCmpaW (ea : EA .w) (an : Reg) (s : State) : Host.Outcome State Fault Refusal :=
  toOutcome (compareAddressHandler .w ea an s)
def execCmpaL (ea : EA .l) (an : Reg) (s : State) : Host.Outcome State Fault Refusal :=
  toOutcome (compareAddressHandler .l ea an s)

/-- CMPI (R193): the immediate is the source, the `<ea>` is only read. -/
def execCmpiB (v : Byte) (ea : EA .b) (s : State) : Host.Outcome State Fault Refusal :=
  toOutcome (compareHandler .b (.imm v) ea s)
def execCmpiW (v : Word) (ea : EA .w) (s : State) : Host.Outcome State Fault Refusal :=
  toOutcome (compareHandler .w (.imm v) ea s)
def execCmpiL (v : Long) (ea : EA .l) (s : State) : Host.Outcome State Fault Refusal :=
  toOutcome (compareHandler .l (.imm v) ea s)

/-- CMPM (R194): both operands at the original registers, then both registers move. -/
def execCmpmB (ay ax : Reg) (s : State) : Host.Outcome State Fault Refusal :=
  toOutcome (compareHandler .b (.postInc ay) (.postInc ax) s)
def execCmpmW (ay ax : Reg) (s : State) : Host.Outcome State Fault Refusal :=
  toOutcome (compareHandler .w (.postInc ay) (.postInc ax) s)
def execCmpmL (ay ax : Reg) (s : State) : Host.Outcome State Fault Refusal :=
  toOutcome (compareHandler .l (.postInc ay) (.postInc ax) s)

end Sys2Proof.Machine
end

