-- ==== Sys2Proof/Machine/Logical.lean ====
section
/-! DEFINITION. The logical family: the logical branch of the uniform handler (R171, R210) and one meaning for each
constructor of AND, OR, EOR, ANDI, ORI and EORI (R211-R218). -/

namespace Sys2Proof.Machine

/-- The logical branch of R171, in the order of R172: source, destination, the write back at the address computed once,
flags, `finish` of both, the next pc. -/
def logicalHandler (op : LogicalOp) (sz : Size) (src dst : EA sz) : Op Unit := do
  let st ← get
  let c := st.pc + 2
  let ls ← src.resolve c
  let s ← ls.get
  let ld ← dst.resolve (c + BitVec.ofNat 32 src.extSize)
  let d ← ld.get
  ld.put (op.apply d s)
  setFromValue (op.apply d s)
  src.finish
  dst.finish
  advance (2 + src.extSize + dst.extSize)

/-- AND `<ea>,Dn` (R211). -/
def execAndB (ea : EA .b) (dn : Reg) (s : State) : Host.Outcome State Fault Refusal :=
  toOutcome (logicalHandler .and .b ea (.dn dn) s)
def execAndW (ea : EA .w) (dn : Reg) (s : State) : Host.Outcome State Fault Refusal :=
  toOutcome (logicalHandler .and .w ea (.dn dn) s)
def execAndL (ea : EA .l) (dn : Reg) (s : State) : Host.Outcome State Fault Refusal :=
  toOutcome (logicalHandler .and .l ea (.dn dn) s)

/-- AND `Dn,<ea>` (R212). -/
def execAndToEaB (dn : Reg) (ea : EA .b) (s : State) : Host.Outcome State Fault Refusal :=
  toOutcome (logicalHandler .and .b (.dn dn) ea s)
def execAndToEaW (dn : Reg) (ea : EA .w) (s : State) : Host.Outcome State Fault Refusal :=
  toOutcome (logicalHandler .and .w (.dn dn) ea s)
def execAndToEaL (dn : Reg) (ea : EA .l) (s : State) : Host.Outcome State Fault Refusal :=
  toOutcome (logicalHandler .and .l (.dn dn) ea s)

/-- OR `<ea>,Dn` (R213). -/
def execOrB (ea : EA .b) (dn : Reg) (s : State) : Host.Outcome State Fault Refusal :=
  toOutcome (logicalHandler .or .b ea (.dn dn) s)
def execOrW (ea : EA .w) (dn : Reg) (s : State) : Host.Outcome State Fault Refusal :=
  toOutcome (logicalHandler .or .w ea (.dn dn) s)
def execOrL (ea : EA .l) (dn : Reg) (s : State) : Host.Outcome State Fault Refusal :=
  toOutcome (logicalHandler .or .l ea (.dn dn) s)

/-- OR `Dn,<ea>` (R214). -/
def execOrToEaB (dn : Reg) (ea : EA .b) (s : State) : Host.Outcome State Fault Refusal :=
  toOutcome (logicalHandler .or .b (.dn dn) ea s)
def execOrToEaW (dn : Reg) (ea : EA .w) (s : State) : Host.Outcome State Fault Refusal :=
  toOutcome (logicalHandler .or .w (.dn dn) ea s)
def execOrToEaL (dn : Reg) (ea : EA .l) (s : State) : Host.Outcome State Fault Refusal :=
  toOutcome (logicalHandler .or .l (.dn dn) ea s)

/-- EOR `Dn,<ea>` (R215). -/
def execEorB (dn : Reg) (ea : EA .b) (s : State) : Host.Outcome State Fault Refusal :=
  toOutcome (logicalHandler .eor .b (.dn dn) ea s)
def execEorW (dn : Reg) (ea : EA .w) (s : State) : Host.Outcome State Fault Refusal :=
  toOutcome (logicalHandler .eor .w (.dn dn) ea s)
def execEorL (dn : Reg) (ea : EA .l) (s : State) : Host.Outcome State Fault Refusal :=
  toOutcome (logicalHandler .eor .l (.dn dn) ea s)

/-- ANDI (R216). -/
def execAndiB (v : Byte) (ea : EA .b) (s : State) : Host.Outcome State Fault Refusal :=
  toOutcome (logicalHandler .and .b (.imm v) ea s)
def execAndiW (v : Word) (ea : EA .w) (s : State) : Host.Outcome State Fault Refusal :=
  toOutcome (logicalHandler .and .w (.imm v) ea s)
def execAndiL (v : Long) (ea : EA .l) (s : State) : Host.Outcome State Fault Refusal :=
  toOutcome (logicalHandler .and .l (.imm v) ea s)

/-- ORI (R217). -/
def execOriB (v : Byte) (ea : EA .b) (s : State) : Host.Outcome State Fault Refusal :=
  toOutcome (logicalHandler .or .b (.imm v) ea s)
def execOriW (v : Word) (ea : EA .w) (s : State) : Host.Outcome State Fault Refusal :=
  toOutcome (logicalHandler .or .w (.imm v) ea s)
def execOriL (v : Long) (ea : EA .l) (s : State) : Host.Outcome State Fault Refusal :=
  toOutcome (logicalHandler .or .l (.imm v) ea s)

/-- EORI (R218). -/
def execEoriB (v : Byte) (ea : EA .b) (s : State) : Host.Outcome State Fault Refusal :=
  toOutcome (logicalHandler .eor .b (.imm v) ea s)
def execEoriW (v : Word) (ea : EA .w) (s : State) : Host.Outcome State Fault Refusal :=
  toOutcome (logicalHandler .eor .w (.imm v) ea s)
def execEoriL (v : Long) (ea : EA .l) (s : State) : Host.Outcome State Fault Refusal :=
  toOutcome (logicalHandler .eor .l (.imm v) ea s)

end Sys2Proof.Machine
end

