-- ==== Sys2Proof/Machine/Dispatch.lean ====
section
/-! DEFINITION. One arm per constructor of Instr, each a direct call of its meaning. -/

namespace Sys2Proof.Machine

def exec (i : Instr) (s : State) : Host.Outcome State Fault Refusal :=
  match i with
  | .cmpB ea dn => Sys2Proof.Machine.execCmpB ea dn s
  | .cmpW ea dn => Sys2Proof.Machine.execCmpW ea dn s
  | .cmpL ea dn => Sys2Proof.Machine.execCmpL ea dn s
  | .cmpaW ea an => Sys2Proof.Machine.execCmpaW ea an s
  | .cmpaL ea an => Sys2Proof.Machine.execCmpaL ea an s
  | .cmpiB v ea => Sys2Proof.Machine.execCmpiB v ea s
  | .cmpiW v ea => Sys2Proof.Machine.execCmpiW v ea s
  | .cmpiL v ea => Sys2Proof.Machine.execCmpiL v ea s
  | .cmpmB ay ax => Sys2Proof.Machine.execCmpmB ay ax s
  | .cmpmW ay ax => Sys2Proof.Machine.execCmpmW ay ax s
  | .cmpmL ay ax => Sys2Proof.Machine.execCmpmL ay ax s
  | .andB ea dn => Sys2Proof.Machine.execAndB ea dn s
  | .andW ea dn => Sys2Proof.Machine.execAndW ea dn s
  | .andL ea dn => Sys2Proof.Machine.execAndL ea dn s
  | .andToEaB dn ea => Sys2Proof.Machine.execAndToEaB dn ea s
  | .andToEaW dn ea => Sys2Proof.Machine.execAndToEaW dn ea s
  | .andToEaL dn ea => Sys2Proof.Machine.execAndToEaL dn ea s
  | .orB ea dn => Sys2Proof.Machine.execOrB ea dn s
  | .orW ea dn => Sys2Proof.Machine.execOrW ea dn s
  | .orL ea dn => Sys2Proof.Machine.execOrL ea dn s
  | .orToEaB dn ea => Sys2Proof.Machine.execOrToEaB dn ea s
  | .orToEaW dn ea => Sys2Proof.Machine.execOrToEaW dn ea s
  | .orToEaL dn ea => Sys2Proof.Machine.execOrToEaL dn ea s
  | .eorB dn ea => Sys2Proof.Machine.execEorB dn ea s
  | .eorW dn ea => Sys2Proof.Machine.execEorW dn ea s
  | .eorL dn ea => Sys2Proof.Machine.execEorL dn ea s
  | .andiB v ea => Sys2Proof.Machine.execAndiB v ea s
  | .andiW v ea => Sys2Proof.Machine.execAndiW v ea s
  | .andiL v ea => Sys2Proof.Machine.execAndiL v ea s
  | .oriB v ea => Sys2Proof.Machine.execOriB v ea s
  | .oriW v ea => Sys2Proof.Machine.execOriW v ea s
  | .oriL v ea => Sys2Proof.Machine.execOriL v ea s
  | .eoriB v ea => Sys2Proof.Machine.execEoriB v ea s
  | .eoriW v ea => Sys2Proof.Machine.execEoriW v ea s
  | .eoriL v ea => Sys2Proof.Machine.execEoriL v ea s

end Sys2Proof.Machine
end

