-- ==== Sys2Proof/Machine/Fetch.lean ====
section
/-! DEFINITION. The decoder's bus accesses (R107): the opcode word, the lookup, then the extension words in operand order
(R98, R132), each read once (R133, R76). -/

namespace Sys2Proof.Machine

/-- The forms whose source descriptor is the register Rx: its `get` comes before the destination's extension fetch
(R172, R247; DEDUCED, log entry 13). -/
def sourceRegs (f : Form) (w : Word) : List RegName :=
  match f.handler with
  | .andToEa | .orToEa | .eor => [.d (rxField w)]
  | .cmp | .cmpa | .cmpi | .cmpm | .andToReg | .orToReg | .andi | .ori | .eori => []

/-- One extension of 0, 2 or 4 bytes at `c`: a 32-bit extension is one long read (R65, D38). -/
def fetchExt (c : Long) (n : Nat) : Op Long := do
  let s ← get
  match n with
  | 0 => pure 0
  | 2 =>
    let v ← busRead .extension s.progTag c .w
    pure (v.setWidth 32)
  | _ => busRead .extension s.progTag c .l

/-- The instruction at pc (R107): an odd pc is misaligned, a word with no entry is illegal (R104). -/
def fetchInstr : Op Instr := do
  let s ← get
  let w ← busRead .opcode s.progTag s.pc .w
  match lookup (dispatchTable s.families) w with
  | none => raise (.illegal s.pc w)
  | some f =>
    requireRegs (sourceRegs f w)
    let imm ← fetchExt (s.pc + 2) f.immSize
    let x ← fetchExt (s.pc + 2 + BitVec.ofNat 32 f.immSize) f.eaSize
    match f.assemble w imm x with
    | some i => pure i
    | none => raise (.illegal s.pc w)

end Sys2Proof.Machine
end

