-- ==== Sys2Proof/Machine/Driver.lean ====
section
/-! DEFINITION. The transactions of the block as its driver calls them: decode_and_execute, the reference loop (R258) and
the host port (R292). -/

namespace Sys2Proof.Machine

/-- `decode_and_execute()`: one instruction (R107). -/
def decodeAndExecute (s : State) : Host.Outcome State Fault Refusal :=
  match fetchInstr s with
  | .ok i s' => exec i s'
  | .error (.fault f) _ => .fault f
  | .error (.refused r) _ => .refused r

/-- One iteration of the reference loop: one delivery attempt, then one instruction (R258). -/
def loopIteration (s : State) : Host.Outcome State Fault Refusal :=
  match maybeDeliverInterrupt s with
  | .ok _ s' => decodeAndExecute s'
  | .error (.fault f) _ => .fault f
  | .error (.refused r) _ => .refused r

/-- How a run ends (R293). -/
inductive RunEnd where
  /-- the first boundary with `pc = stopPC`, checked before that boundary's delivery attempt -/
  | ended (s : State)
  /-- the fuel is used up before that -/
  | hang (s : State)
  | fault (f : Fault)
  | refused (r : Refusal)
deriving DecidableEq, Repr

/-- A run of the reference loop from a launch state until `stopPC`, an OPEN launch parameter (R293). The block itself does
not stop there. DESIGN CHOICE, unsafe (log entry 19): R293 and R253 leave open that a requester enqueues during the run;
runTo repeats the loop alone, takes no call of `port.calls`, and no request lands between its iterations. -/
def runTo (stopPC : Long) : Nat → State → RunEnd
  | 0, s => if s.pc = stopPC then .ended s else .hang s
  | k + 1, s =>
    if s.pc = stopPC then .ended s
    else match loopIteration s with
      | .next s' => runTo stopPC k s'
      | .fault f => .fault f
      | .refused r => .refused r

/-- The register of a port index (R25). -/
def portReg (x : Fin 16) : RegName :=
  if h : x.val < 8 then .d ⟨x.val, h⟩ else .a ⟨x.val - 8, by omega⟩

/-- Give the host its answer. -/
def answerHost (r : HostReply) : Op Unit := modify fun s => s.setPort { s.port with reply := r }

/-- `get register(x, sz)` (R21, R25); there is no byte read of an address register (log entry 14). -/
def hostGetRegister (r : RegName) (sz : Size) : Op Unit :=
  match r, sz with
  | .a _, .b => answerHost .rejected
  | r, sz => do
    let v ← readReg r
    answerHost (.value ((v.setWidth sz.bits).setWidth 32))

/-- `set register(x, sz, v)`: a word write to An sign-extends, a byte write to An is rejected (R22, R24, R245). -/
def hostSetRegister (r : RegName) (sz : Size) (v : Long) : Op Unit :=
  match r, sz with
  | .d n, sz => do
    writeD sz n (v.setWidth sz.bits)
    answerHost .ok
  | .a _, .b => answerHost .rejected
  | .a n, .w => do
    writeA n ((v.extractLsb' 0 16).signExtend 32)
    answerHost .ok
  | .a n, .l => do
    writeA n v
    answerHost .ok

/-- Every host call but decode_and_execute (R292). -/
def hostTransaction : HostCall → Op Unit
  | .reset pc ccr => do
    modify fun s => s.resetTransaction pc ccr
    answerHost .ok
  | .maybeDeliverInterrupt => do
    maybeDeliverInterrupt
    answerHost .ok
  | .requestInterrupt p v => do
    let s ← get
    match s.requestInterrupt p v with
    | some s' =>
      set s'
      answerHost .ok
    | none => answerHost .rejected
  | .getRegister x sz => hostGetRegister (portReg x) sz
  | .setRegister x sz v => hostSetRegister (portReg x) sz v
  | .getStatus => do
    let s ← get
    answerHost (.value (s.sr.word.setWidth 32))
  | .setStatus v => do
    modify fun s => s.setStatus v
    answerHost .ok
  | .getPc => do
    let s ← get
    answerHost (.value s.pc)
  | .setPc v => do
    modify fun s => s.setPC v
    answerHost .ok
  | .busRead addr sz => do
    let s ← get
    answerHost (.value ((s.bus.peek addr sz).setWidth 32))
  | .busWrite addr sz v => do
    modify fun s => s.setBus (s.bus.poke addr sz (v.setWidth sz.bits))
    answerHost .ok
  | .decodeAndExecute => answerHost .ok

/-- One host call, taken from the head of the list (R292). -/
def hostCall (c : HostCall) (s : State) : Host.Outcome State Fault Refusal :=
  match c with
  | .decodeAndExecute => decodeAndExecute (s.setPort { s.port with reply := .ok })
  | .reset _ _ | .maybeDeliverInterrupt | .requestInterrupt _ _ | .getRegister _ _ | .setRegister _ _ _ | .getStatus
  | .setStatus _ | .getPc | .setPc _ | .busRead _ _ | .busWrite _ _ _ => toOutcome (hostTransaction c s)

/-- Put bytes into memory from `addr` on. -/
def Bus.pokeBytes (b : Bus) (addr : Long) : List Byte → Bus
  | [] => b
  | v :: t => Bus.pokeBytes (b.pokeByte addr v) (addr + 1) t

/-- Nothing stands between this state and its next fetch: no host call, no prepared bus answer, no interrupt the next
attempt would deliver, an even pc (log entry 18). -/
def State.readyToFetch (s : State) : State :=
  { s with
    pc := s.pc &&& ~~~ 1
    queues := if s.deliverable.isSome then Vector.replicate 7 [] else s.queues
    outstanding := if s.deliverable.isSome then false else s.outstanding
    bus := { s.bus with answers := [] }
    port := { s.port with calls := [] } }

/-- The instruction bits `w` where the next step fetches (log entry 18). -/
def State.placeTableWord (s : State) (nbits w : Nat) : State :=
  let t := s.readyToFetch
  t.setBus (t.bus.pokeBytes t.pc (tableBytes t.bus.byteOrder nbits w))

end Sys2Proof.Machine
end

