-- ==== Sys2Proof/Machine/Step.lean ====
section
/-! DEFINITION. One step of the machine: the host's next call if it has made one, else one iteration of the reference
loop of R258 (log entry 9). -/

namespace Sys2Proof.Machine

def step (s : State) : Host.Outcome State Fault Refusal :=
  match s.port.calls with
  | [] => loopIteration s
  | c :: rest => hostCall c (s.setPort { s.port with calls := rest })

def State.withFetchWord (s : State) (nbits w : Nat) : State := s.placeTableWord nbits w

end Sys2Proof.Machine
end

