-- ==== Sys2Proof/Safety.lean ====
section
/-! DEFINITION. The terms claims are stated in: when an operand can be used, what it holds, what an instruction leaves
on the bus port, the machine's invariant, and when a run has not gone wrong. -/

namespace Sys2Proof.Machine

/-- Every register cell holds a value (the boot of R291). -/
def State.allWritten (s : State) : Bool :=
  s.d.toList.all Cell.written && s.a.toList.all Cell.written && s.shadowSP.written

/-- The next access, and every later one, is answered by the reference bus of R61. -/
def State.plainBus (s : State) : Prop := s.bus.answers = []

/-- The flag `outstanding` tells whether a queue is non-empty (R39). -/
def State.controllerConsistent (s : State) : Bool := s.outstanding == s.anyPending

/-- The machine's invariant: memory in canonical form inside the decoded address space, and the controller in one of its
two states (R268). -/
def State.wf (s : State) : Bool := s.bus.wf && s.controllerConsistent

/-- The host asks for nothing and no interrupt is due: the next step runs one instruction and nothing else. -/
def State.atInstruction (s : State) : Prop := s.port.calls = [] ∧ s.deliverable = none

/-- Bytes of memory from `addr` on. -/
def Bus.bytesAt (b : Bus) (addr : Long) : Nat → List Byte
  | 0 => []
  | k + 1 => b.peekByte addr :: Bus.bytesAt b (addr + 1) k

def BusAnswer.fails : BusAnswer → Bool
  | .fail _ => true
  | .memory | .device _ => false

/-- Of the next accesses, the one after `k` others is the first that the bus fails (R68). -/
def Bus.failsAt (b : Bus) (k : Nat) : Bool :=
  (b.answers.take k).all (fun x => !x.fails) && (b.answers[k]?.any fun x => x.fails)

/-- The cells a store of size `sz` at `addr` writes. -/
def Bus.footprint (b : Bus) (addr : Long) : Size → List Nat
  | .b => [b.cell addr]
  | .w => [b.cell addr, b.cell (addr + 1)]
  | .l => [b.cell addr, b.cell (addr + 1), b.cell (addr + 2), b.cell (addr + 3)]

/-- A long or word operand in memory has an even address. -/
def Loc.aligned {sz : Size} : Loc sz → Bool
  | .mem a | .prog a => !misaligned a sz
  | .dreg _ | .areg _ | .imm _ => true

/-- What a location holds. -/
def Loc.contents {sz : Size} (s : State) : Loc sz → BitVec sz.bits
  | .dreg n => (s.value (.d n)).setWidth sz.bits
  | .areg n => (s.value (.a n)).setWidth sz.bits
  | .mem a | .prog a => s.bus.peek a sz
  | .imm v => v

/-- The bus access that reading a location makes (R70). -/
def Loc.reads {sz : Size} (s : State) : Loc sz → List Access
  | .mem a => [⟨.operandRead, s.dataTag, a, sz, none⟩]
  | .prog a => [⟨.operandRead, s.progTag, a, sz, none⟩]
  | .dreg _ | .areg _ | .imm _ => []

/-- The bus access that writing a location makes (R70). -/
def Loc.writes {sz : Size} (s : State) (v : BitVec sz.bits) : Loc sz → List Access
  | .mem a => [⟨.operandWrite, s.dataTag, a, sz, some (v.setWidth 32)⟩]
  | .dreg _ | .areg _ | .prog _ | .imm _ => []

/-- The state after these accesses have gone out on the port. -/
def State.logged (s : State) (xs : List Access) : State := s.setBus { s.bus with log := s.bus.log ++ xs }

/-- The state with `v` stored at a location: a data register's low bits, or bytes of memory (R22, R135). -/
def Loc.store {sz : Size} (s : State) (v : BitVec sz.bits) : Loc sz → State
  | .dreg n => s.setD n (.val (replaceLow (s.value (.d n)) sz v))
  | .mem a => s.setBus (s.bus.poke a sz v)
  | .areg _ | .prog _ | .imm _ => s

/-- `k` steps from a state, stopping at the first fault or refusal. -/
def State.runSteps (s : State) (k : Nat) : Host.Outcome State Fault Refusal := Host.Core.run Sys2Proof.core k s

/-- The three bus accesses of a delivery that starts with supervisor stack pointer `sp` (R260, R70). -/
def deliveryAccesses (sp oldpc : Long) (old : Word) (v : Byte) : List Access :=
  [⟨.framePush, .supervisorData, sp - 4, .l, some oldpc⟩,
    ⟨.framePush, .supervisorData, sp - 6, .w, some (old.setWidth 32)⟩,
    ⟨.vectorFetch, .supervisorProgram, vectorAddress v, .l, none⟩]

/-- The extension reads of the operands with these extension sizes, from cursor `c` on (R65, R98). -/
def extensionReads (g : Tag) : Long → List Nat → List Access
  | _, [] => []
  | c, n :: t =>
    (if n = 0 then [] else [⟨.extension, g, c, if n = 2 then .w else .l, none⟩]) ++
      extensionReads g (c + BitVec.ofNat 32 n) t

/-- No fault and no refusal. -/
def completes : Host.Outcome State Fault Refusal → Bool
  | .next _ => true
  | .fault _ => false
  | .refused _ => false

end Sys2Proof.Machine

namespace Sys2Proof

open Machine

/-- Every register an operand reads: those of its address, or itself. -/
def EA.regs {sz : Size} : EA sz → List RegName
  | .dn n => [.d n]
  | .an n => [.a n]
  | .ind n | .postInc n | .preDec n | .disp n _ => [.a n]
  | .index n x => [.a n, x.regName]
  | .pcIndex x => [x.regName]
  | .absW _ | .absL _ | .pcDisp _ | .imm _ => []

/-- The operand can be read and, where its mode allows it, written: its registers are written and its address is aligned
(R63, R244). -/
def EA.ready {sz : Size} (s : State) (c : Long) (ea : EA sz) : Bool :=
  (ea.regs.all fun r => (s.cell r).written) && (ea.loc s c).aligned

/-- What the operand holds before the instruction (R133). -/
def EA.operand {sz : Size} (s : State) (c : Long) (ea : EA sz) : BitVec sz.bits := (ea.loc s c).contents s

/-- The state after the operand's `finish` (R134, R141, R142). -/
def EA.finished {sz : Size} (s : State) : EA sz → State
  | .postInc n => s.setA n (.val (s.value (.a n) + stepSize n sz))
  | .preDec n => s.setA n (.val (s.value (.a n) - stepSize n sz))
  | .dn _ | .an _ | .ind _ | .disp _ _ | .index _ _ | .absW _ | .absL _ | .pcDisp _ | .pcIndex _ | .imm _ => s

/-- The address register a mode moves. -/
def EA.moves {sz : Size} : EA sz → List Reg
  | .postInc n | .preDec n => [n]
  | .dn _ | .an _ | .ind _ | .disp _ _ | .index _ _ | .absW _ | .absL _ | .pcDisp _ | .pcIndex _ | .imm _ => []

/-- The logical operation of a handler (R211-R218); none for the compare family. -/
def Handler.logicalOp : Handler → Option LogicalOp
  | .andToReg | .andToEa | .andi => some .and
  | .orToReg | .orToEa | .ori => some .or
  | .eor | .eori => some .eor
  | .cmp | .cmpa | .cmpi | .cmpm => none

/-- The extension sizes of the operands, source first (R98, R99). -/
def View.extSizes : View → List Nat
  | .toReg _ _ ea _ => [ea.extSize]
  | .toEa _ _ _ ea => [ea.extSize]
  | .immToEa _ sz _ ea => [Variant.imm.extSize sz, ea.extSize]
  | .postInc _ _ _ => []

/-- The fetches of an instruction at the pc: its opcode word, then its extensions (R107, R70). -/
def Instr.fetches (i : Instr) (s : State) : List Access :=
  ⟨.opcode, s.progTag, s.pc, .w, none⟩ :: extensionReads s.progTag (s.pc + 2) i.view.extSizes

/-- The address registers an instruction's addressing modes move. -/
def View.moves : View → List Reg
  | .toReg _ _ ea _ => ea.moves
  | .toEa _ _ _ ea => ea.moves
  | .immToEa _ _ _ ea => ea.moves
  | .postInc _ ay ax => [ay, ax]

def Instr.moves (i : Instr) : List Reg := i.view.moves

/-- The data registers a logical instruction writes. -/
def View.dataDest : View → List Reg
  | .toReg _ _ _ rx => [rx]
  | .toEa _ _ _ (.dn n) => [n]
  | .immToEa _ _ _ (.dn n) => [n]
  | .toEa _ _ _ _ => []
  | .immToEa _ _ _ _ => []
  | .postInc _ _ _ => []

/-- The size and the location a logical instruction writes, computed once before the instruction (R133, R210). -/
def View.dest (s : State) : View → Σ sz, Loc sz
  | .toReg _ sz _ rx => ⟨sz, .dreg rx⟩
  | .toEa _ sz _ ea => ⟨sz, ea.loc s (s.pc + 2)⟩
  | .immToEa _ sz _ ea => ⟨sz, ea.loc s (s.pc + 2 + BitVec.ofNat 32 (Variant.imm.extSize sz))⟩
  | .postInc sz _ ax => ⟨sz, .mem (s.value (.a ax))⟩

end Sys2Proof
end

