-- ==== Sys2Proof/Certificates/Slice0/Obligations.lean ====
section
/-! DEFINITION. What the provers are asked: the statements of the spec's numbered rules over this model. -/

open Sys2Proof Sys2Proof.Machine

/-! ### Encoding and dispatch (30_encoding.md) -/

/-- R103: startup accepts exactly the tables whose rows are all acceptable (R100, R111, R154) and of which no two rows
match one word; any other table is refused. -/
def Obligations.ValidatedTablesAreExclusive : Prop :=
  ∀ t : List Entry,
    startup t = (if (∀ e ∈ t, e.acceptable = true) ∧ t.Pairwise (fun e f => ∀ w, ¬ (e.hits w = true ∧ f.hits w = true))
      then some t else none)

/-- R102, R103, R100: with both families installed, the lookup of a word gives a row exactly when the row is one of R100's
and its masked match holds; so at most one row matches. -/
def Obligations.LookupFindsTheMatchingRow : Prop :=
  ∀ (w : Word) (f : Form),
    lookup (dispatchTable Families.default) w = some f ↔ f.legal = true ∧ f.base = w &&& ~~~ f.dontCare

/-- R108: what each line of the opcode map holds, and that every word of the other lines is illegal. -/
def Obligations.LinesOfTheOpcodeMap : Prop :=
  (∀ (w : Word) (f : Form), lookup (dispatchTable Families.default) w = some f →
    (w.extractLsb' 12 4 = 0b0000 ∧ f.handler ∈ [Handler.ori, .andi, .eori, .cmpi]) ∨
    (w.extractLsb' 12 4 = 0b1000 ∧ f.handler ∈ [Handler.orToReg, .orToEa]) ∨
    (w.extractLsb' 12 4 = 0b1011 ∧ f.handler ∈ [Handler.cmp, .cmpa, .cmpm, .eor]) ∨
    (w.extractLsb' 12 4 = 0b1100 ∧ f.handler ∈ [Handler.andToReg, .andToEa])) ∧
  ∀ s : State, misaligned s.pc .w = false →
    ∀ w : Word, s.bus.readAnswer s.pc .w = some w → w.extractLsb' 12 4 ∉ [0b0000#4, 0b1000#4, 0b1011#4, 0b1100#4] →
      decodeAndExecute s = .fault (.illegal s.pc w)

/-- R98, R99 and the encodings of R91-R101: in either byte order the decoder reads back every well-formed instruction from
its bytes, every operand at every value, and leaves the bytes after it. -/
def Obligations.DecodeOfEncodeIsIdentity : Prop :=
  ∀ (o : ByteOrder) (i : Instr) (rest : List Byte), i.wellFormed = true →
    decodeBytes Families.default o (encodeBytes o i ++ rest) = .ok (i, rest)

/-- R99, R111, R154: what is decoded is well formed, its length is the number of bytes consumed, and its encoder gives
back the opcode word. -/
def Obligations.DecodedInstructionsAreWellFormed : Prop :=
  ∀ (fam : Families) (o : ByteOrder) (bs rest : List Byte) (i : Instr), decodeBytes fam o bs = .ok (i, rest) →
    i.wellFormed = true ∧ bs.length = i.length + rest.length ∧ bs.drop i.length = rest ∧
      bs.take 2 = o.wordBytes i.view.opword

/-- Words written out from R91-R97, one of each family and format, decode to the instruction they stand for. -/
def Obligations.KnownWordsDecode : Prop :=
  decodeBytes Families.default .big [0xB0, 0x41] = .ok (.cmpW (.dn 1) 0, []) ∧
  decodeBytes Families.default .big [0xB1, 0xC9] = .ok (.cmpaL (.an 1) 0, []) ∧
  decodeBytes Families.default .big [0x0C, 0x69, 0x00, 0x10, 0xFF, 0xFE] = .ok (.cmpiW 0x10 (.disp 1 0xFFFE), []) ∧
  decodeBytes Families.default .big [0xB3, 0x08] = .ok (.cmpmB 0 1, []) ∧
  decodeBytes Families.default .big [0xC7, 0xB0, 0x10, 0xFC] =
    .ok (.andToEaL 3 (.index 0 ⟨false, 1, false, 0xFC⟩), []) ∧
  decodeBytes Families.default .big [0x88, 0xB8, 0x80, 0x00] = .ok (.orL (.absW 0x8000) 4, []) ∧
  decodeBytes Families.default .big [0xBB, 0xB9, 0x00, 0x00, 0x70, 0x00] = .ok (.eorL 5 (.absL 0x7000), []) ∧
  decodeBytes Families.default .big [0x0A, 0x82, 0xFF, 0xFF, 0xFF, 0xFF] = .ok (.eoriL 0xFFFFFFFF (.dn 2), [])

/-! ### Stepping (30_encoding.md R107, 60_exceptions.md R258) -/

/-- R107, R258: with no host call and no due interrupt, on the reference bus, a step at an even pc fetches the instruction
its bytes decode to and is that instruction's meaning; the fetches are the only thing around it. -/
def Obligations.StepRunsTheDecodedInstruction : Prop :=
  ∀ (s : State) (i : Instr) (rest : List Byte), s.atInstruction → s.plainBus → misaligned s.pc .w = false →
    decodeBytes s.families s.bus.byteOrder (s.bus.bytesAt s.pc 10) = .ok (i, rest) →
    step s = exec i (s.logged (i.fetches s))

/-- R258: a step in which an interrupt is due is the delivery and then the first instruction of the handler. -/
def Obligations.StepDeliversThenRunsTheHandler : Prop :=
  ∀ (s t : State) (l : Level) (i : Instr) (rest : List Byte), s.port.calls = [] → s.deliverable = some l →
    maybeDeliverInterrupt s = .ok () t → t.plainBus → misaligned t.pc .w = false →
    decodeBytes t.families t.bus.byteOrder (t.bus.bytesAt t.pc 10) = .ok (i, rest) →
    step s = exec i (t.logged (i.fetches t))

/-- R104, R241: a word with no entry ends decode_and_execute with Illegal; nothing but the opcode fetch has happened. -/
def Obligations.IllegalWordFaults : Prop :=
  ∀ (s : State) (w : Word), misaligned s.pc .w = false → s.bus.readAnswer s.pc .w = some w →
    lookup (dispatchTable s.families) w = none →
    decodeAndExecute s = .fault (.illegal s.pc w) ∧
    fetchInstr s = .error (.fault (.illegal s.pc w)) (s.setBus (s.bus.issue ⟨.opcode, s.progTag, s.pc, .w, none⟩))

/-- R107, R63: an odd pc is misaligned whatever stands there, before any access. -/
def Obligations.OddPcFaults : Prop :=
  ∀ s : State, s.pc.getLsbD 0 = true →
    decodeAndExecute s = .fault (.misaligned .opcode s.progTag s.pc .w) ∧
    (s.atInstruction → step s = .fault (.misaligned .opcode s.progTag s.pc .w))

/-- R246: no step meets an unsupported operand operation. -/
def Obligations.StepNeverRefuses : Prop := ∀ (s : State) (r : Refusal), step s ≠ .refused r

/-! ### The invariant -/

/-- R39, R268: every step keeps memory in its canonical form inside the decoded address space, and the flag `outstanding`
true exactly when some queue is non-empty. -/
def Obligations.StepKeepsInvariant : Prop := ∀ s t : State, s.wf = true → step s = .next t → t.wf = true

/-- The invariant holds right after reset. -/
def Obligations.ResetMeetsInvariant : Prop := State.reset.wf = true

/-- R43, R106, R62: no step changes the dispatch table, the bus's byte order or its address width. -/
def Obligations.ConfigurationNeverChanges : Prop :=
  ∀ s t : State, step s = .next t →
    dispatchTable t.families = dispatchTable s.families ∧ t.families = s.families ∧
      t.bus.byteOrder = s.bus.byteOrder ∧ t.bus.addrBits = s.bus.addrBits

/-! ### Registers (10_state.md) -/

/-- R22: a data-register write replaces the low bits and leaves the others; a narrow write to an unwritten cell faults. -/
def Obligations.DataRegisterWrite : Prop :=
  ∀ (sz : Size) (n : Reg) (v : BitVec sz.bits) (s : State),
    (sz = .l ∨ (s.cell (.d n)).written = true →
      ∃ x : Long, writeD sz n v s = .ok () (s.setD n (.val x)) ∧ x.setWidth sz.bits = v ∧
        ∀ k, sz.bits ≤ k → x.getLsbD k = (s.value (.d n)).getLsbD k) ∧
    (sz ≠ .l → s.cell (.d n) = .unwritten → writeD sz n v s = .error (.fault (.unwritten (.d n))) s)

/-- R24 (with R21 and R25): an address register at the host port. A word write sign-extends, a long write writes all 32
bits, a byte write is Rejected; a word or long read gives the low bits. -/
def Obligations.HostAddressRegister : Prop :=
  ∀ (s : State) (n : Reg) (x : Fin 16) (v : Long) (rest : List HostCall), x.val = 8 + n.val →
    (s.port.calls = .setRegister x .w v :: rest →
      step s = .next ((s.setA n (.val ((v.setWidth 16).signExtend 32))).setPort ⟨rest, .ok⟩)) ∧
    (s.port.calls = .setRegister x .l v :: rest → step s = .next ((s.setA n (.val v)).setPort ⟨rest, .ok⟩)) ∧
    (s.port.calls = .setRegister x .b v :: rest → step s = .next (s.setPort ⟨rest, .rejected⟩)) ∧
    ∀ u : Long, s.cell (.a n) = .val u →
      (s.port.calls = .getRegister x .w :: rest →
        step s = .next (s.setPort ⟨rest, .value ((u.setWidth 16).setWidth 32)⟩)) ∧
      (s.port.calls = .getRegister x .l :: rest → step s = .next (s.setPort ⟨rest, .value u⟩))

/-- R21, R22, R292: what the host writes to a data register it reads back modulo 2^bits(sz). -/
def Obligations.HostDataRegisterRoundTrip : Prop :=
  ∀ (s : State) (n : Reg) (x : Fin 16) (sz : Size) (v : Long) (rest : List HostCall), x.val = n.val →
    s.port.calls = .setRegister x sz v :: .getRegister x sz :: rest → (s.cell (.d n)).written = true →
    ∃ t : State, s.runSteps 2 = .next t ∧ t.port = ⟨rest, .value (BitVec.ofNat 32 (v.toNat % 2 ^ sz.bits))⟩ ∧
      ∀ r, r ≠ .d n → t.cell r = s.cell r

/-- R26, R244, R247: an unwritten register an instruction reads is its fault, the first one in the order of its reads: the
registers of a source `<ea>` and then the destination register of F1; the source Dn and then the registers of the
destination `<ea>` of F2; the registers of the destination `<ea>` of F3; Ay and then Ax of CMPM. Where the base and the
index of one indexed operand are both unwritten, that the base is named is the model's own inference (log entry 12,
DEDUCED). -/
def Obligations.UnwrittenRegisterFaults : Prop :=
  (∀ (h : Handler) (sz : Size) (ea : EA sz) (rx : Reg) (i : Instr) (s : State), i.view = .toReg h sz ea rx →
    i.wellFormed = true →
    (∀ r, ea.regs.find? (fun q => !(s.cell q).written) = some r → exec i s = .fault (.unwritten r)) ∧
    (s.plainBus → ea.ready s (s.pc + 2) = true →
      (h = .cmpa → s.cell (.a rx) = .unwritten → exec i s = .fault (.unwritten (.a rx))) ∧
      (h ≠ .cmpa → s.cell (.d rx) = .unwritten → exec i s = .fault (.unwritten (.d rx))))) ∧
  (∀ (h : Handler) (sz : Size) (dn : Reg) (ea : EA sz) (i : Instr) (s : State), i.view = .toEa h sz dn ea →
    i.wellFormed = true →
    (s.cell (.d dn) = .unwritten → exec i s = .fault (.unwritten (.d dn))) ∧
    ((s.cell (.d dn)).written = true →
      ∀ r, ea.regs.find? (fun q => !(s.cell q).written) = some r → exec i s = .fault (.unwritten r))) ∧
  (∀ (h : Handler) (sz : Size) (v : BitVec sz.bits) (ea : EA sz) (i : Instr) (s : State) (r : RegName),
    i.view = .immToEa h sz v ea → i.wellFormed = true →
    ea.regs.find? (fun q => !(s.cell q).written) = some r → exec i s = .fault (.unwritten r)) ∧
  ∀ (sz : Size) (ay ax : Reg) (i : Instr) (s : State), i.view = .postInc sz ay ax →
    (s.cell (.a ay) = .unwritten → exec i s = .fault (.unwritten (.a ay))) ∧
    ∀ y : Long, s.cell (.a ay) = .val y → misaligned y sz = false → s.plainBus → s.cell (.a ax) = .unwritten →
      exec i s = .fault (.unwritten (.a ax))

/-! ### The status word and the privilege mode (10_state.md) -/

/-- R30, R31: every bit of the composed status word. -/
def Obligations.StatusWordComposition : Prop :=
  ∀ r : StatusReg,
    r.word.toNat = r.s.toNat * 2 ^ 13 + r.i.toNat * 2 ^ 8 + r.x.toNat * 2 ^ 4 + r.n.toNat * 2 ^ 3 + r.z.toNat * 2 ^ 2 +
      r.v.toNat * 2 + r.c.toNat

/-- R34: set status at the host port switches the mode by bit 13 and then stores the mask and the flags; the other bits
are ignored, so the word reads back masked with 0x271F. No instruction writes the S bit or the mask. -/
def Obligations.SetStatus : Prop :=
  (∀ (s : State) (v : Word) (rest : List HostCall), s.port.calls = .setStatus v :: rest →
    ∃ t : State, step s = .next t ∧
      t = (((s.enterPrivileged (v.getLsbD 13)).setSR t.sr).setPort ⟨rest, .ok⟩) ∧
      t.sr.s = v.getLsbD 13 ∧ t.sr.i = v.extractLsb' 8 3 ∧ t.sr.x = v.getLsbD 4 ∧ t.sr.n = v.getLsbD 3 ∧
      t.sr.z = v.getLsbD 2 ∧ t.sr.v = v.getLsbD 1 ∧ t.sr.c = v.getLsbD 0 ∧ t.sr.word = v &&& 0x271F) ∧
  ∀ (i : Instr) (s t : State), exec i s = .next t → t.sr.s = s.sr.s ∧ t.sr.i = s.sr.i

/-- R33 (with R36 for the selectors): enter_privileged is a no-op in the requested mode; else it swaps the live and the
shadow stack pointer as cells, sets S, and both selectors follow; it is idempotent. -/
def Obligations.EnterPrivileged : Prop :=
  ∀ (s : State) (b : Bool),
    (s.sr.s = b → s.enterPrivileged b = s) ∧
    (s.sr.s ≠ b → ∃ t : State, s.enterPrivileged b = t ∧ t.a[7] = s.shadowSP ∧ t.shadowSP = s.a[7] ∧ t.sr.s = b ∧
      t = ((s.setA 7 t.a[7]).setShadow t.shadowSP).setSR { s.sr with s := b } ∧
      t.progTag = (if b then .supervisorProgram else .userProgram) ∧
      t.dataTag = (if b then .supervisorData else .userData)) ∧
    (s.enterPrivileged b).enterPrivileged b = s.enterPrivileged b

/-- R28: the privilege switch and set_status move the two stack pointers between the slots and change neither; after
set_status the live one is that of the mode it set. -/
def Obligations.StackPointersSurviveModeChanges : Prop :=
  ∀ (s : State) (b : Bool) (v : Word),
    (s.enterPrivileged b).usp = s.usp ∧ (s.enterPrivileged b).ssp = s.ssp ∧
    (s.setStatus v).usp = s.usp ∧ (s.setStatus v).ssp = s.ssp ∧
    (s.setStatus v).a[7] = (if v.getLsbD 13 then s.ssp else s.usp)

/-! ### Memory (20_memory.md) -/

/-- R61, R151: on the reference bus a read gives what was last written there at that size, and a write leaves every other
byte alone. -/
def Obligations.MemoryReadAfterWrite : Prop :=
  ∀ (b : Bus) (a : Long) (sz : Size) (v : BitVec sz.bits), b.wf = true →
    (b.poke a sz v).peek a sz = v ∧
    ∀ c : Long, b.cell c ∉ b.footprint a sz → (b.poke a sz v).peekByte c = b.peekByte c

/-- R62: under the big order a word holds byte(a) in bits 15:8 and byte(a+1) in bits 7:0, a long holds word(a) in bits
31:16 and word(a+2) in bits 15:0, and mixed widths see the bytes so. -/
def Obligations.BigEndianBytes : Prop :=
  ∀ (b : Bus) (a : Long), b.byteOrder = .big →
    (b.peek a .w).extractLsb' 8 8 = b.peek a .b ∧ (b.peek a .w).extractLsb' 0 8 = b.peek (a + 1) .b ∧
    (b.peek a .l).extractLsb' 16 16 = b.peek a .w ∧ (b.peek a .l).extractLsb' 0 16 = b.peek (a + 2) .w ∧
    ∀ v : Word, b.wf = true → (b.poke a .w v).peek a .b = v.extractLsb' 8 8 ∧
      (b.poke a .w v).peek (a + 1) .b = v.extractLsb' 0 8

/-- R69: the bus decodes addr mod 2^addrBits: addresses equal in those bits name the same bytes at every size. -/
def Obligations.AddressesDecodeModuloWidth : Prop :=
  ∀ (b : Bus) (a c : Long) (sz : Size), a.toNat % 2 ^ b.addrBits.count = c.toNat % 2 ^ b.addrBits.count →
    b.peek a sz = b.peek c sz ∧ ∀ v, b.poke a sz v = b.poke c sz v

/-- R63: an odd word or long access ends in Misaligned and does not reach the bus; a byte access, and any access at an even
address, is never misaligned. -/
def Obligations.MisalignedAccessFaults : Prop :=
  ∀ (k : AccessKind) (g : Tag) (a : Long) (sz : Size) (v : BitVec sz.bits) (s : State),
    (sz ≠ .b → a.toNat % 2 = 1 →
      busRead k g a sz s = .error (.fault (.misaligned k g a sz)) s ∧
      busWrite k g a sz v s = .error (.fault (.misaligned k g a sz)) s) ∧
    (sz = .b ∨ a.toNat % 2 = 0 → ∀ t : State,
      busRead k g a sz s ≠ .error (.fault (.misaligned k g a sz)) t ∧
      busWrite k g a sz v s ≠ .error (.fault (.misaligned k g a sz)) t)

/-! ### The operand resolver (40_operand_resolver.md) -/

/-- R136: the step of a post-increment or pre-decrement, and that `finish` moves the register by it. -/
def Obligations.StackAlignedStep : Prop :=
  ∀ (n : Reg) (sz : Size), stepSize n sz = (if n = 7 ∧ sz = .b then 2 else BitVec.ofNat 32 (sz.bits / 8)) ∧
    ∀ (s : State) (v : Long), s.cell (.a n) = .val v →
      (EA.postInc n : EA sz).finish s = .ok () (s.setA n (.val (v + stepSize n sz))) ∧
      (EA.preDec n : EA sz).finish s = .ok () (s.setA n (.val (v - stepSize n sz)))

/-- R140-R149 (with R145's index from the brief word of R95): the address of every memory mode, `c` being the address of
its extension; an unwritten base register, or with the base written an unwritten index register, faults instead (R26).
That the base is named where the index of the same operand is unwritten too is the model's own inference (log entry 12,
DEDUCED). -/
def Obligations.EffectiveAddresses : Prop :=
  ∀ (sz : Size) (s : State) (c : Long) (n : Reg) (e : Word) (d : Long),
    let r : RegName := if e.getLsbD 15 then .a (e.extractLsb' 12 3).toFin else .d (e.extractLsb' 12 3).toFin
    let index : Long := if e.getLsbD 11 then s.value r else ((s.value r).setWidth 16).signExtend 32
    let d8 : Long := (e.setWidth 8).signExtend 32
    ((s.cell (.a n)).written = true →
      (EA.ind n : EA sz).resolve c s = .ok (.mem (s.value (.a n))) s ∧
      (EA.postInc n : EA sz).resolve c s = .ok (.mem (s.value (.a n))) s ∧
      (EA.preDec n : EA sz).resolve c s = .ok (.mem (s.value (.a n) - stepSize n sz)) s ∧
      (EA.disp n e : EA sz).resolve c s = .ok (.mem (s.value (.a n) + e.signExtend 32)) s ∧
      ((s.cell r).written = true →
        (EA.index n (Brief.ofWord e) : EA sz).resolve c s = .ok (.mem (s.value (.a n) + d8 + index)) s)) ∧
    ((s.cell r).written = true →
      (EA.pcIndex (Brief.ofWord e) : EA sz).resolve c s = .ok (.prog (c + d8 + index)) s) ∧
    (EA.absW e : EA sz).resolve c s = .ok (.mem (e.signExtend 32)) s ∧
    (EA.absL d : EA sz).resolve c s = .ok (.mem d) s ∧
    (EA.pcDisp e : EA sz).resolve c s = .ok (.prog (c + e.signExtend 32)) s ∧
    (s.cell (.a n) = .unwritten → ∀ ea ∈ [(EA.ind n : EA sz), .postInc n, .preDec n, .disp n e,
      .index n (Brief.ofWord e)], ea.resolve c s = .error (.fault (.unwritten (.a n))) s) ∧
    (s.cell r = .unwritten →
      ((s.cell (.a n)).written = true →
        (EA.index n (Brief.ofWord e) : EA sz).resolve c s = .error (.fault (.unwritten r)) s) ∧
      (EA.pcIndex (Brief.ofWord e) : EA sz).resolve c s = .error (.fault (.unwritten r)) s)

/-- R151: after `put v`, `get` gives v, for a data register and for memory on the reference bus. -/
def Obligations.PutThenGet : Prop :=
  ∀ (sz : Size) (l : Loc sz) (v : BitVec sz.bits) (s t : State), s.plainBus → s.bus.wf = true → l.put v s = .ok () t →
    ∃ u : State, l.get t = .ok v u

/-! ### The ALU (41_alu.md) -/

/-- R176: the flags of a compare, with the equivalent borrow form of C. -/
def Obligations.CompareFlags : Prop :=
  ∀ (sz : Size) (d s : BitVec sz.bits) (sr : StatusReg),
    let m := sz.bits - 1
    let r : BitVec sz.bits := d - s
    let f := sr.compared d s
    f.n = r.getLsbD m ∧ (f.z = true ↔ r = 0) ∧
    (f.v = true ↔ s.getLsbD m ≠ d.getLsbD m ∧ r.getLsbD m ≠ d.getLsbD m) ∧
    (f.c = true ↔ d.toNat < s.toNat) ∧
    f.c = ((s.getLsbD m && !d.getLsbD m) || (r.getLsbD m && !d.getLsbD m) || (s.getLsbD m && r.getLsbD m)) ∧
    f.x = sr.x ∧ f.s = sr.s ∧ f.i = sr.i

/-- R180: the laws of the compare flags, and of the logical functions. -/
def Obligations.ArithmeticLaws : Prop :=
  ∀ (sz : Size) (d s : BitVec sz.bits) (sr : StatusReg),
    let f := sr.compared d s
    (f.z = true ↔ d = s) ∧ ((f.n ^^ f.v) = true ↔ d.toInt < s.toInt) ∧
    ((f.c || f.z) = true ↔ d.toNat ≤ s.toNat) ∧
    (f.v = true ↔ d.toInt - s.toInt < -2 ^ (sz.bits - 1) ∨ 2 ^ (sz.bits - 1) ≤ d.toInt - s.toInt) ∧
    (d = s → f.n = false ∧ f.z = true ∧ f.v = false ∧ f.c = false) ∧
    (d = 0 → s ≠ 0 → f.c = true) ∧ (s = 0 → f.c = false ∧ f.v = false ∧ d - s = d) ∧
    LogicalOp.eor.apply d d = 0 ∧ LogicalOp.and.apply d (0 : BitVec sz.bits) = 0 ∧
    LogicalOp.or.apply d (0 : BitVec sz.bits) = d

/-- R175, R177, R178: the logical functions bit by bit, and the flags they set. -/
def Obligations.LogicalResultAndFlags : Prop :=
  ∀ (sz : Size) (d s : BitVec sz.bits) (sr : StatusReg) (op : LogicalOp),
    let r := op.apply d s
    let f := sr.valued r
    (∀ k, r.getLsbD k = match op with
      | .and => d.getLsbD k && s.getLsbD k
      | .or => d.getLsbD k || s.getLsbD k
      | .eor => d.getLsbD k ^^ s.getLsbD k) ∧
    f.n = r.getLsbD (sz.bits - 1) ∧ (f.z = true ↔ r = 0) ∧ f.v = false ∧ f.c = false ∧ f.x = sr.x ∧ f.s = sr.s ∧
    f.i = sr.i

/-! ### What each instruction leaves (42_compare.md, 43_logical.md), on the reference bus -/

/-- CMP `<ea>,Dn` (R191; constructors cmpB, cmpW, cmpL): the flags of Dn - source, the source's read on the port, the
addressing mode's own update, the next pc. -/
def Obligations.CmpCompletes : Prop :=
  ∀ (sz : Size) (ea : EA sz) (dn : Reg) (i : Instr) (s : State), i.view = .toReg .cmp sz ea dn → i.wellFormed = true →
    s.plainBus → ea.ready s (s.pc + 2) = true → (s.cell (.d dn)).written = true →
    exec i s = .next ((ea.finished ((s.logged ((ea.loc s (s.pc + 2)).reads s)).setSR
      (s.sr.compared ((s.value (.d dn)).setWidth sz.bits) (ea.operand s (s.pc + 2))))).setPC
        (s.pc + BitVec.ofNat 32 i.length))

/-- CMPA `<ea>,An` (R192, R179; constructors cmpaW, cmpaL): the flags of the 32-bit An - source, a word source
sign-extended; An is taken before the addressing mode's own update. -/
def Obligations.CmpaCompletes : Prop :=
  ∀ (sz : Size) (ea : EA sz) (an : Reg) (i : Instr) (s : State), i.view = .toReg .cmpa sz ea an → i.wellFormed = true →
    s.plainBus → ea.ready s (s.pc + 2) = true → (s.cell (.a an)).written = true →
    exec i s = .next ((ea.finished ((s.logged ((ea.loc s (s.pc + 2)).reads s)).setSR
      (s.sr.compared (s.value (.a an)) ((ea.operand s (s.pc + 2)).signExtend 32)))).setPC
        (s.pc + BitVec.ofNat 32 i.length))

/-- CMPI `#,<ea>` (R193; constructors cmpiB, cmpiW, cmpiL): the flags of the `<ea>` operand - immediate; nothing is
written. The `<ea>` extension follows the immediate's. -/
def Obligations.CmpiCompletes : Prop :=
  ∀ (sz : Size) (v : BitVec sz.bits) (ea : EA sz) (i : Instr) (s : State), i.view = .immToEa .cmpi sz v ea →
    i.wellFormed = true → s.plainBus →
    let c := s.pc + 2 + BitVec.ofNat 32 (Variant.imm.extSize sz)
    ea.ready s c = true →
    exec i s = .next ((ea.finished ((s.logged ((ea.loc s c).reads s)).setSR
      (s.sr.compared (ea.operand s c) v))).setPC (s.pc + BitVec.ofNat 32 i.length))

/-- CMPM `(Ay)+,(Ax)+` (R194; constructors cmpmB, cmpmW, cmpmL): the flags of the operand at Ax - the operand at Ay, both
read at the original registers; then Ay moves and then Ax moves, the same register twice when they are one. -/
def Obligations.CmpmCompletes : Prop :=
  ∀ (sz : Size) (ay ax : Reg) (i : Instr) (s : State) (y x : Long), i.view = .postInc sz ay ax → s.plainBus →
    s.cell (.a ay) = .val y → s.cell (.a ax) = .val x → misaligned y sz = false → misaligned x sz = false →
    exec i s = .next (((((s.logged [⟨.operandRead, s.dataTag, y, sz, none⟩, ⟨.operandRead, s.dataTag, x, sz, none⟩]).setSR
      (s.sr.compared (s.bus.peek x sz) (s.bus.peek y sz))).setA ay (.val (y + stepSize ay sz))).setA ax
        (.val ((if ay = ax then y + stepSize ay sz else x) + stepSize ax sz))).setPC (s.pc + 2))

/-- AND, OR `<ea>,Dn` (R211, R213; constructors andB, andW, andL, orB, orW, orL): the low bits of Dn get the result, the
flags are set from it. -/
def Obligations.LogicalToRegisterCompletes : Prop :=
  ∀ (h : Handler) (op : LogicalOp) (sz : Size) (ea : EA sz) (dn : Reg) (i : Instr) (s : State),
    i.view = .toReg h sz ea dn → h.logicalOp = some op → i.wellFormed = true → s.plainBus →
    ea.ready s (s.pc + 2) = true → (s.cell (.d dn)).written = true →
    let r := op.apply ((s.value (.d dn)).setWidth sz.bits) (ea.operand s (s.pc + 2))
    exec i s = .next ((ea.finished (((s.setD dn (.val (replaceLow (s.value (.d dn)) sz r))).logged
      ((ea.loc s (s.pc + 2)).reads s)).setSR (s.sr.valued r))).setPC (s.pc + BitVec.ofNat 32 i.length))

/-- AND, OR, EOR `Dn,<ea>` (R212, R214, R215; constructors andToEaB/W/L, orToEaB/W/L, eorB/W/L): the destination is read
and then written at the address computed once, the flags are set from the result. -/
def Obligations.LogicalToEaCompletes : Prop :=
  ∀ (h : Handler) (op : LogicalOp) (sz : Size) (dn : Reg) (ea : EA sz) (i : Instr) (s : State),
    i.view = .toEa h sz dn ea → h.logicalOp = some op → i.wellFormed = true → s.plainBus →
    (s.cell (.d dn)).written = true → ea.ready s (s.pc + 2) = true →
    let l := ea.loc s (s.pc + 2)
    let r := op.apply (ea.operand s (s.pc + 2)) ((s.value (.d dn)).setWidth sz.bits)
    exec i s = .next ((ea.finished (((l.store s r).logged (l.reads s ++ l.writes s r)).setSR (s.sr.valued r))).setPC
      (s.pc + BitVec.ofNat 32 i.length))

/-- ANDI, ORI, EORI `#,<ea>` (R216-R218; constructors andiB/W/L, oriB/W/L, eoriB/W/L): the destination is read and then
written at the address computed once, the flags are set from the result. -/
def Obligations.LogicalImmediateCompletes : Prop :=
  ∀ (h : Handler) (op : LogicalOp) (sz : Size) (v : BitVec sz.bits) (ea : EA sz) (i : Instr) (s : State),
    i.view = .immToEa h sz v ea → h.logicalOp = some op → i.wellFormed = true → s.plainBus →
    let c := s.pc + 2 + BitVec.ofNat 32 (Variant.imm.extSize sz)
    ea.ready s c = true →
    let l := ea.loc s c
    let r := op.apply (ea.operand s c) v
    exec i s = .next ((ea.finished (((l.store s r).logged (l.reads s ++ l.writes s r)).setSR (s.sr.valued r))).setPC
      (s.pc + BitVec.ofNat 32 i.length))

/-! ### Frames -/

/-- R173, R190: a compare, whatever the bus answers, changes no data register, no stack pointer in the shadow slot, no
memory byte, neither X nor mask nor mode, no queue, nothing of the configuration; of the address registers only those its
addressing modes move; and it puts nothing but operand reads on the port. -/
def Obligations.CompareFrame : Prop :=
  ∀ (i : Instr) (s t : State), i.form.handler.logicalOp = none → exec i s = .next t →
    t.d = s.d ∧ (∀ n, n ∉ i.moves → t.cell (.a n) = s.cell (.a n)) ∧ t.shadowSP = s.shadowSP ∧
    t.sr.s = s.sr.s ∧ t.sr.i = s.sr.i ∧ t.sr.x = s.sr.x ∧ t.queues = s.queues ∧ t.outstanding = s.outstanding ∧
    t.families = s.families ∧ t.port = s.port ∧ t.bus.addrBits = s.bus.addrBits ∧ t.bus.byteOrder = s.bus.byteOrder ∧
    (∀ a, t.bus.peekByte a = s.bus.peekByte a) ∧
    ∃ xs, t.bus.log = s.bus.log ++ xs ∧ ∀ x ∈ xs, x.kind = .operandRead

/-- R210: a logical instruction, whatever the bus answers, changes of the data registers only its destination, of the
address registers only those its addressing mode moves, of memory only the bytes of its destination; neither X nor mask nor
mode, no queue, nothing of the configuration; it clears V and C. -/
def Obligations.LogicalFrame : Prop :=
  ∀ (i : Instr) (s t : State), i.form.handler.logicalOp ≠ none → exec i s = .next t →
    (∀ n, n ∉ i.view.dataDest → t.cell (.d n) = s.cell (.d n)) ∧ (∀ n, n ∉ i.moves → t.cell (.a n) = s.cell (.a n)) ∧
    t.shadowSP = s.shadowSP ∧ t.sr.s = s.sr.s ∧ t.sr.i = s.sr.i ∧ t.sr.x = s.sr.x ∧ t.sr.v = false ∧ t.sr.c = false ∧
    t.queues = s.queues ∧ t.outstanding = s.outstanding ∧ t.families = s.families ∧ t.port = s.port ∧
    t.bus.addrBits = s.bus.addrBits ∧ t.bus.byteOrder = s.bus.byteOrder ∧
    ∀ c : Long, (∀ a, (i.view.dest s).2 = .mem a → s.bus.cell c ∉ s.bus.footprint a (i.view.dest s).1) →
      t.bus.peekByte c = s.bus.peekByte c

/-- R170, R64: the next pc is past the base word and all extensions modulo 2^32, and keeps the parity of pc. -/
def Obligations.PcAdvancesByLength : Prop :=
  ∀ (i : Instr) (s t : State), exec i s = .next t →
    t.pc.toNat = (s.pc.toNat + (2 + i.view.extSizes.sum)) % 2 ^ 32 ∧ t.pc.getLsbD 0 = s.pc.getLsbD 0

/-- R70, R36, R65, R301: the accesses of an instruction that runs, in the order of R172: one opcode word with the program
selector; extensions with the program selector; operand reads with the data or the program selector; at most one write, last,
with the data selector; five at most. The log of accesses is the model's own
(log entry 8). -/
def Obligations.AccessesOfAnInstruction : Prop :=
  ∀ s t : State, decodeAndExecute s = .next t →
    ∃ (es rs ws : List Access), t.bus.log = s.bus.log ++ ⟨.opcode, s.progTag, s.pc, .w, none⟩ :: (es ++ rs ++ ws) ∧
      es.length + rs.length + ws.length ≤ 4 ∧ ws.length ≤ 1 ∧
      (∀ x ∈ es, x.kind = .extension ∧ x.tag = s.progTag ∧ x.size ≠ .b) ∧
      (∀ x ∈ rs, x.kind = .operandRead ∧ (x.tag = s.dataTag ∨ x.tag = s.progTag)) ∧
      ∀ x ∈ ws, x.kind = .operandWrite ∧ x.tag = s.dataTag

/-- R250: every instruction executes identically in both modes: from states that differ in the S bit alone it leaves
states that differ in the S bit and the tags of the accesses alone. -/
def Obligations.ModesExecuteAlike : Prop :=
  ∀ (i : Instr) (s t : State) (b : Bool), exec i s = .next t →
    ∃ u : State, exec i (s.setSR { s.sr with s := b }) = .next u ∧
      u = { t with sr := { t.sr with s := b }, bus := { t.bus with log := u.bus.log } } ∧
      u.bus.log.map (fun x => (x.kind, x.addr, x.size, x.sent)) = t.bus.log.map fun x => (x.kind, x.addr, x.size, x.sent)

/-! ### Faults (60_exceptions.md) -/

/-- R264, R172, R153: a fault in the fetch, in a compare or in a logical instruction leaves registers, status, pc, queues
and all but the bus as they were; memory too, but that a failing write may have changed bytes of its own destination. -/
def Obligations.FaultsArePrecise : Prop :=
  (∀ (s t : State) (e : Stop), fetchInstr s = .error e t → t = s.setBus t.bus ∧ t.bus.mem = s.bus.mem) ∧
  (∀ (sz : Size) (src dst : EA sz) (s t : State) (e : Stop), compareHandler sz src dst s = .error e t →
    t = s.setBus t.bus ∧ t.bus.mem = s.bus.mem) ∧
  (∀ (sz : Size) (src : EA sz) (n : Reg) (s t : State) (e : Stop), compareAddressHandler sz src n s = .error e t →
    t = s.setBus t.bus ∧ t.bus.mem = s.bus.mem) ∧
  ∀ (op : LogicalOp) (sz : Size) (src dst : EA sz) (s t : State) (e : Stop), logicalHandler op sz src dst s = .error e t →
    t = s.setBus t.bus ∧
    (t.bus.mem = s.bus.mem ∨
      ∃ a, dst.loc s (s.pc + 2 + BitVec.ofNat 32 src.extSize) = .mem a ∧
        e = .fault (.busFault .operandWrite s.dataTag a sz) ∧
        ∀ c, s.bus.cell c ∉ s.bus.footprint a sz → t.bus.peekByte c = s.bus.peekByte c)

/-- R63, R243, R247: a word or long operand in memory at an odd address faults, naming the access, once the registers of
its address are written: a source operand, a destination operand read before its write, and each operand of CMPM. -/
def Obligations.MisalignedOperandFaults : Prop :=
  (∀ (h : Handler) (sz : Size) (ea : EA sz) (rx : Reg) (i : Instr) (s : State) (a : Long), i.view = .toReg h sz ea rx →
    (ea.regs.all fun r => (s.cell r).written) = true → misaligned a sz = true →
    (ea.loc s (s.pc + 2) = .mem a → exec i s = .fault (.misaligned .operandRead s.dataTag a sz)) ∧
    (ea.loc s (s.pc + 2) = .prog a → exec i s = .fault (.misaligned .operandRead s.progTag a sz))) ∧
  (∀ (h : Handler) (sz : Size) (dn : Reg) (ea : EA sz) (i : Instr) (s : State) (a : Long), i.view = .toEa h sz dn ea →
    (s.cell (.d dn)).written = true → (ea.regs.all fun r => (s.cell r).written) = true →
    ea.loc s (s.pc + 2) = .mem a → misaligned a sz = true →
    exec i s = .fault (.misaligned .operandRead s.dataTag a sz)) ∧
  (∀ (h : Handler) (sz : Size) (v : BitVec sz.bits) (ea : EA sz) (i : Instr) (s : State) (a : Long),
    i.view = .immToEa h sz v ea → (ea.regs.all fun r => (s.cell r).written) = true →
    ea.loc s (s.pc + 2 + BitVec.ofNat 32 (Variant.imm.extSize sz)) = .mem a → misaligned a sz = true →
    exec i s = .fault (.misaligned .operandRead s.dataTag a sz)) ∧
  ∀ (sz : Size) (ay ax : Reg) (i : Instr) (s : State) (y x : Long), i.view = .postInc sz ay ax →
    s.cell (.a ay) = .val y → s.cell (.a ax) = .val x →
    (misaligned y sz = true → exec i s = .fault (.misaligned .operandRead s.dataTag y sz)) ∧
    (misaligned y sz = false → s.plainBus → misaligned x sz = true →
      exec i s = .fault (.misaligned .operandRead s.dataTag x sz))

/-- R242, R68: an access the bus fails ends the transaction with BusFault, naming it: the opcode fetch, each extension
fetch, the source read of F1, the destination reads of F2 and F3 (CMPI among them), both reads of CMPM, and the write of a
logical destination in F2 and F3. `failsAt k`: of the next accesses, the one after `k` others is the first the bus fails. -/
def Obligations.BusFailuresFault : Prop :=
  (∀ s : State, misaligned s.pc .w = false → s.bus.failsAt 0 = true →
    decodeAndExecute s = .fault (.busFault .opcode s.progTag s.pc .w)) ∧
  (∀ (s : State) (w : Word) (f : Form), misaligned s.pc .w = false → s.bus.readAnswer s.pc .w = some w →
    lookup (dispatchTable s.families) w = some f → ((sourceRegs f w).all fun r => (s.cell r).written) = true →
    let size (n : Nat) : Size := if n = 2 then .w else .l
    (f.immSize ≠ 0 → s.bus.failsAt 1 = true →
      decodeAndExecute s = .fault (.busFault .extension s.progTag (s.pc + 2) (size f.immSize))) ∧
    (f.immSize = 0 → f.eaSize ≠ 0 → s.bus.failsAt 1 = true →
      decodeAndExecute s = .fault (.busFault .extension s.progTag (s.pc + 2) (size f.eaSize))) ∧
    (f.immSize ≠ 0 → f.eaSize ≠ 0 → s.bus.failsAt 2 = true →
      decodeAndExecute s =
        .fault (.busFault .extension s.progTag (s.pc + 2 + BitVec.ofNat 32 f.immSize) (size f.eaSize)))) ∧
  (∀ (h : Handler) (sz : Size) (ea : EA sz) (rx : Reg) (i : Instr) (s : State) (a : Long),
    i.view = .toReg h sz ea rx → ea.ready s (s.pc + 2) = true → s.bus.failsAt 0 = true →
    (ea.loc s (s.pc + 2) = .mem a → exec i s = .fault (.busFault .operandRead s.dataTag a sz)) ∧
    (ea.loc s (s.pc + 2) = .prog a → exec i s = .fault (.busFault .operandRead s.progTag a sz))) ∧
  (∀ (h : Handler) (sz : Size) (dn : Reg) (ea : EA sz) (i : Instr) (s : State) (a : Long),
    i.view = .toEa h sz dn ea → (s.cell (.d dn)).written = true → ea.ready s (s.pc + 2) = true →
    ea.loc s (s.pc + 2) = .mem a →
    (s.bus.failsAt 0 = true → exec i s = .fault (.busFault .operandRead s.dataTag a sz)) ∧
    (s.bus.failsAt 1 = true → exec i s = .fault (.busFault .operandWrite s.dataTag a sz))) ∧
  (∀ (h : Handler) (sz : Size) (v : BitVec sz.bits) (ea : EA sz) (i : Instr) (s : State) (a : Long),
    i.view = .immToEa h sz v ea →
    let c := s.pc + 2 + BitVec.ofNat 32 (Variant.imm.extSize sz)
    ea.ready s c = true → ea.loc s c = .mem a →
    (s.bus.failsAt 0 = true → exec i s = .fault (.busFault .operandRead s.dataTag a sz)) ∧
    (h.logicalOp ≠ none → s.bus.failsAt 1 = true → exec i s = .fault (.busFault .operandWrite s.dataTag a sz))) ∧
  ∀ (sz : Size) (ay ax : Reg) (i : Instr) (s : State) (y x : Long), i.view = .postInc sz ay ax →
    s.cell (.a ay) = .val y → s.cell (.a ax) = .val x → misaligned y sz = false →
    (s.bus.failsAt 0 = true → exec i s = .fault (.busFault .operandRead s.dataTag y sz)) ∧
    (misaligned x sz = false → s.bus.failsAt 1 = true → exec i s = .fault (.busFault .operandRead s.dataTag x sz))

/-! ### The interrupt controller (60_exceptions.md) -/

/-- R252: a request with priority 1..7 appends its vector at the tail of that level's queue, sets outstanding, and changes
nothing else but the host port. -/
def Obligations.RequestEnqueues : Prop :=
  ∀ (s : State) (p : Nat) (l : Level) (v : Byte) (rest : List HostCall), s.port.calls = .requestInterrupt p v :: rest →
    (p = l.val + 1 →
      step s = .next (((s.setQueue l (s.queues[l] ++ [v])).setOutstanding true).setPort ⟨rest, .ok⟩)) ∧
    (p < 1 ∨ 7 < p → step s = .next (s.setPort ⟨rest, .rejected⟩))

/-- R245: a request with priority 0 or above 7, and a byte write to an address register, are Rejected with no state
change. -/
def Obligations.RejectedCallsChangeNothing : Prop :=
  (∀ (s : State) (p : Nat) (v : Byte) (rest : List HostCall), s.port.calls = .requestInterrupt p v :: rest →
    p = 0 ∨ 7 < p → step s = .next (s.setPort ⟨rest, .rejected⟩)) ∧
  ∀ (s : State) (x : Fin 16) (v : Long) (rest : List HostCall), s.port.calls = .setRegister x .b v :: rest →
    8 ≤ x.val → step s = .next (s.setPort ⟨rest, .rejected⟩)

/-- R254: the arbiter selects the highest level with a non-empty queue; when that level is not accepted, no lower level
with a non-empty queue is. -/
def Obligations.ArbiterSelectsHighest : Prop :=
  ∀ s : State,
    (∀ l : Level, s.selected = some l ↔ s.queues[l] ≠ [] ∧ ∀ k : Level, l < k → s.queues[k] = []) ∧
    (s.selected = none ↔ ∀ k : Level, s.queues[k] = []) ∧
    (s.deliverable = none → ∀ k : Level, s.queues[k] ≠ [] → s.accepts k = false)

/-- R255: the selected level is delivered exactly when it is 7 or strictly above the mask; at mask 0 every level is, at
mask 7 only level 7 (R256). -/
def Obligations.AcceptanceAgainstTheMask : Prop :=
  ∀ (s : State) (l : Level),
    (s.deliverable = some l ↔ s.selected = some l ∧ (l.val + 1 = 7 ∨ s.sr.i.toNat < l.val + 1)) ∧
    (s.sr.i = 0 → s.deliverable = s.selected) ∧ (s.sr.i = 7 → s.deliverable = some l → l.val + 1 = 7) ∧
    (s.queues[(6 : Level)] ≠ [] → s.deliverable = some 6)

/-- R259: with no queued level above the mask and none at 7, a delivery attempt is Ok and changes nothing. -/
def Obligations.NoEligibleInterruptChangesNothing : Prop :=
  ∀ s : State, (∀ k : Level, s.queues[k] ≠ [] → k.val + 1 ≠ 7 ∧ k.val + 1 ≤ s.sr.i.toNat) →
    maybeDeliverInterrupt s = .ok () s

/-- R260, R33, R36: what a delivery leaves, on the reference bus with an even supervisor stack pointer: the vector
dequeued, supervisor mode, the mask at the level, the flags as they were, the user stack pointer in the shadow slot, SSP - 6
in A7, the pc pushed and then the status word, outstanding computed again, pc at the handler; nothing else. -/
def Obligations.DeliverySequence : Prop :=
  ∀ (s : State) (l : Level) (v : Byte) (rest : List Byte) (sp : Long), s.deliverable = some l → s.queues[l] = v :: rest →
    s.plainBus → s.ssp = .val sp → misaligned sp .l = false →
    let queues := s.queues.set l rest
    let pushed := (s.bus.poke (sp - 4) .l s.pc).poke (sp - 6) .w s.sr.word
    maybeDeliverInterrupt s = .ok () { s with
      a := s.a.set 7 (.val (sp - 6))
      shadowSP := s.usp
      pc := pushed.peek (4 * v.setWidth 32) .l
      sr := { s.sr with s := true, i := BitVec.ofNat 3 (l.val + 1) }
      queues := queues
      outstanding := decide (∃ k : Level, queues[k] ≠ [])
      bus := { pushed with log := s.bus.log ++ deliveryAccesses sp s.pc s.sr.word v } }

/-- R261: after a delivery that started with supervisor stack pointer S0, the word at S0 - 6, the new SSP, is the old
status word and the long at S0 - 4 is the old pc. -/
def Obligations.InterruptFrame : Prop :=
  ∀ (s t : State) (l : Level) (sp : Long), s.deliverable = some l → s.plainBus → s.bus.wf = true → s.ssp = .val sp →
    maybeDeliverInterrupt s = .ok () t →
    t.ssp = .val (sp - 6) ∧ t.bus.peek (sp - 6) .w = s.sr.word ∧ t.bus.peek (sp - 4) .l = s.pc

/-- R260 (facts), R242, D39 and vectors I-8, I-9: a delivery that faults has dequeued its vector, entered supervisor mode and
raised the mask, and has not touched pc or outstanding. An unwritten or an odd stack pointer: nothing else has happened. A
first or second push that the bus fails: A7 is as it was, and of memory only a completed first push and the bytes of the
failing push can have changed. A failing vector fetch: both pushes and A7 are written. -/
def Obligations.DeliveryFaults : Prop :=
  ∀ (s : State) (l : Level) (v : Byte) (rest : List Byte), s.deliverable = some l → s.queues[l] = v :: rest →
    let t := ((s.setQueue l rest).enterPrivileged true).setSR { s.sr with s := true, i := BitVec.ofNat 3 (l.val + 1) }
    (s.ssp = .unwritten → maybeDeliverInterrupt s = .error (.fault (.unwritten (.a 7))) t) ∧
    ∀ sp : Long, s.ssp = .val sp →
      (misaligned sp .l = true →
        maybeDeliverInterrupt s = .error (.fault (.misaligned .framePush .supervisorData (sp - 4) .l)) t) ∧
      (misaligned sp .l = false → ∀ u : Option Long,
        (s.bus.answer = .fail u →
          ∃ r : State, maybeDeliverInterrupt s =
              .error (.fault (.busFault .framePush .supervisorData (sp - 4) .l)) r ∧ r = t.setBus r.bus ∧
            ∀ c, s.bus.cell c ∉ s.bus.footprint (sp - 4) .l → r.bus.peekByte c = s.bus.peekByte c) ∧
        ∀ more : List BusAnswer,
          (s.bus.answers = .memory :: .fail u :: more →
            ∃ r : State, maybeDeliverInterrupt s =
                .error (.fault (.busFault .framePush .supervisorData (sp - 6) .w)) r ∧ r = t.setBus r.bus ∧
              ∀ c, s.bus.cell c ∉ s.bus.footprint (sp - 6) .w →
                r.bus.peekByte c = (s.bus.poke (sp - 4) .l s.pc).peekByte c) ∧
          (s.bus.answers = .memory :: .memory :: .fail u :: more →
            ∃ r : State, maybeDeliverInterrupt s =
                .error (.fault (.busFault .vectorFetch .supervisorProgram (4 * v.setWidth 32) .l)) r ∧
              r = (t.setA 7 (.val (sp - 6))).setBus r.bus ∧
              r.bus.mem = ((s.bus.poke (sp - 4) .l s.pc).poke (sp - 6) .w s.sr.word).mem))

/-- R265 with R260, R261, R33: an interrupt delivered on the reference bus, followed by the host's resume calls, gives back
every register, both stack pointers, the pc and the status word of the interrupted context. -/
def Obligations.DeliverThenResumeRestoresContext : Prop :=
  ∀ (s t : State) (l : Level) (sp : Long) (r : HostReply), s.deliverable = some l → s.plainBus → s.bus.wf = true →
    s.ssp = .val sp → maybeDeliverInterrupt s = .ok () t →
    ∃ u : State, (t.setPort ⟨t.resumeCalls, r⟩).runSteps 5 = .next u ∧ u.d = s.d ∧ u.a = s.a ∧ u.shadowSP = s.shadowSP ∧
      u.pc = s.pc ∧ u.sr = s.sr ∧ u.queues = t.queues ∧ u.bus = t.bus ∧ u.port.calls = []

/-! ### Reset and the host port (70_reset_and_hazards.md) -/

/-- R44, R290: what the reset transaction leaves, from any state: every cell unwritten, the launch pc and flags, supervisor
mode, mask 7, the controller idle; the dispatch table built from the installed families and valid; no bus access. -/
def Obligations.ResetTransaction : Prop :=
  ∀ (s : State) (pc : Long) (ccr : BitVec 5) (rest : List HostCall), s.port.calls = .reset pc ccr :: rest →
    ∃ t : State, step s = .next t ∧ (∀ r, t.cell r = .unwritten) ∧ t.shadowSP = .unwritten ∧ t.pc = pc ∧
      t.sr.s = true ∧ t.sr.i = 7 ∧
      (t.sr.x = ccr.getLsbD 4 ∧ t.sr.n = ccr.getLsbD 3 ∧ t.sr.z = ccr.getLsbD 2 ∧ t.sr.v = ccr.getLsbD 1 ∧
        t.sr.c = ccr.getLsbD 0) ∧
      t.sr.word &&& 0xD8E0 = 0 ∧ (∀ k : Level, t.queues[k] = []) ∧ t.outstanding = false ∧
      t.families = s.families ∧ startup (dispatchTable t.families) = some (dispatchTable t.families) ∧
      t.bus = s.bus ∧ t.port = ⟨rest, .ok⟩

/-- What State.reset holds: what R44 and R290 give the mode, the mask and the controller, and, as the model's own choices,
zero in every register (log entry 1), the flags clear and pc 0x1000 (log entry 2), and a memory that lists nothing (log
entries 3 and 18: R44, R290 and R291 give memory no contents). -/
def Obligations.ResetState : Prop :=
  State.reset.sr.word = 0x2700 ∧ (∀ k : Level, State.reset.queues[k] = []) ∧ State.reset.outstanding = false ∧
  State.reset.bus.mem = [] ∧ (∀ r, State.reset.cell r = .val 0) ∧ State.reset.shadowSP = .val 0 ∧
  State.reset.pc = 0x1000

/-- R292, R29, R31: get status, get pc and set pc at the host port. -/
def Obligations.HostPortStatusAndPc : Prop :=
  ∀ (s : State) (v : Long) (rest : List HostCall),
    (s.port.calls = .getStatus :: rest → step s = .next (s.setPort ⟨rest, .value (s.sr.word.setWidth 32)⟩)) ∧
    (s.port.calls = .getPc :: rest → step s = .next (s.setPort ⟨rest, .value s.pc⟩)) ∧
    (s.port.calls = .setPc v :: rest → step s = .next ((s.setPC v).setPort ⟨rest, .ok⟩))
end

