-- ==== Sys2Proof/Laws/State.lean ====
section
/-! SUPPORT. One lemma per field per update of State, each true by rfl, and the same for the register view, the bus record
and the status word, so that no later proof unfolds a record update. -/

namespace Sys2Proof.Machine

@[simp] theorem State.setD_d (s : State) (n : Reg) (c : Cell) : (s.setD n c).d = s.d.set n c := rfl
@[simp] theorem State.setD_a (s : State) (n : Reg) (c : Cell) : (s.setD n c).a = s.a := rfl
@[simp] theorem State.setD_shadowSP (s : State) (n : Reg) (c : Cell) : (s.setD n c).shadowSP = s.shadowSP := rfl
@[simp] theorem State.setD_pc (s : State) (n : Reg) (c : Cell) : (s.setD n c).pc = s.pc := rfl
@[simp] theorem State.setD_sr (s : State) (n : Reg) (c : Cell) : (s.setD n c).sr = s.sr := rfl
@[simp] theorem State.setD_queues (s : State) (n : Reg) (c : Cell) : (s.setD n c).queues = s.queues := rfl
@[simp] theorem State.setD_outstanding (s : State) (n : Reg) (c : Cell) : (s.setD n c).outstanding = s.outstanding := rfl
@[simp] theorem State.setD_families (s : State) (n : Reg) (c : Cell) : (s.setD n c).families = s.families := rfl
@[simp] theorem State.setD_bus (s : State) (n : Reg) (c : Cell) : (s.setD n c).bus = s.bus := rfl
@[simp] theorem State.setD_port (s : State) (n : Reg) (c : Cell) : (s.setD n c).port = s.port := rfl

@[simp] theorem State.setA_d (s : State) (n : Reg) (c : Cell) : (s.setA n c).d = s.d := rfl
@[simp] theorem State.setA_a (s : State) (n : Reg) (c : Cell) : (s.setA n c).a = s.a.set n c := rfl
@[simp] theorem State.setA_shadowSP (s : State) (n : Reg) (c : Cell) : (s.setA n c).shadowSP = s.shadowSP := rfl
@[simp] theorem State.setA_pc (s : State) (n : Reg) (c : Cell) : (s.setA n c).pc = s.pc := rfl
@[simp] theorem State.setA_sr (s : State) (n : Reg) (c : Cell) : (s.setA n c).sr = s.sr := rfl
@[simp] theorem State.setA_queues (s : State) (n : Reg) (c : Cell) : (s.setA n c).queues = s.queues := rfl
@[simp] theorem State.setA_outstanding (s : State) (n : Reg) (c : Cell) : (s.setA n c).outstanding = s.outstanding := rfl
@[simp] theorem State.setA_families (s : State) (n : Reg) (c : Cell) : (s.setA n c).families = s.families := rfl
@[simp] theorem State.setA_bus (s : State) (n : Reg) (c : Cell) : (s.setA n c).bus = s.bus := rfl
@[simp] theorem State.setA_port (s : State) (n : Reg) (c : Cell) : (s.setA n c).port = s.port := rfl

@[simp] theorem State.setShadow_d (s : State) (c : Cell) : (s.setShadow c).d = s.d := rfl
@[simp] theorem State.setShadow_a (s : State) (c : Cell) : (s.setShadow c).a = s.a := rfl
@[simp] theorem State.setShadow_shadowSP (s : State) (c : Cell) : (s.setShadow c).shadowSP = c := rfl
@[simp] theorem State.setShadow_pc (s : State) (c : Cell) : (s.setShadow c).pc = s.pc := rfl
@[simp] theorem State.setShadow_sr (s : State) (c : Cell) : (s.setShadow c).sr = s.sr := rfl
@[simp] theorem State.setShadow_queues (s : State) (c : Cell) : (s.setShadow c).queues = s.queues := rfl
@[simp] theorem State.setShadow_outstanding (s : State) (c : Cell) : (s.setShadow c).outstanding = s.outstanding := rfl
@[simp] theorem State.setShadow_families (s : State) (c : Cell) : (s.setShadow c).families = s.families := rfl
@[simp] theorem State.setShadow_bus (s : State) (c : Cell) : (s.setShadow c).bus = s.bus := rfl
@[simp] theorem State.setShadow_port (s : State) (c : Cell) : (s.setShadow c).port = s.port := rfl

@[simp] theorem State.setPC_d (s : State) (v : Long) : (s.setPC v).d = s.d := rfl
@[simp] theorem State.setPC_a (s : State) (v : Long) : (s.setPC v).a = s.a := rfl
@[simp] theorem State.setPC_shadowSP (s : State) (v : Long) : (s.setPC v).shadowSP = s.shadowSP := rfl
@[simp] theorem State.setPC_pc (s : State) (v : Long) : (s.setPC v).pc = v := rfl
@[simp] theorem State.setPC_sr (s : State) (v : Long) : (s.setPC v).sr = s.sr := rfl
@[simp] theorem State.setPC_queues (s : State) (v : Long) : (s.setPC v).queues = s.queues := rfl
@[simp] theorem State.setPC_outstanding (s : State) (v : Long) : (s.setPC v).outstanding = s.outstanding := rfl
@[simp] theorem State.setPC_families (s : State) (v : Long) : (s.setPC v).families = s.families := rfl
@[simp] theorem State.setPC_bus (s : State) (v : Long) : (s.setPC v).bus = s.bus := rfl
@[simp] theorem State.setPC_port (s : State) (v : Long) : (s.setPC v).port = s.port := rfl

@[simp] theorem State.setSR_d (s : State) (r : StatusReg) : (s.setSR r).d = s.d := rfl
@[simp] theorem State.setSR_a (s : State) (r : StatusReg) : (s.setSR r).a = s.a := rfl
@[simp] theorem State.setSR_shadowSP (s : State) (r : StatusReg) : (s.setSR r).shadowSP = s.shadowSP := rfl
@[simp] theorem State.setSR_pc (s : State) (r : StatusReg) : (s.setSR r).pc = s.pc := rfl
@[simp] theorem State.setSR_sr (s : State) (r : StatusReg) : (s.setSR r).sr = r := rfl
@[simp] theorem State.setSR_queues (s : State) (r : StatusReg) : (s.setSR r).queues = s.queues := rfl
@[simp] theorem State.setSR_outstanding (s : State) (r : StatusReg) : (s.setSR r).outstanding = s.outstanding := rfl
@[simp] theorem State.setSR_families (s : State) (r : StatusReg) : (s.setSR r).families = s.families := rfl
@[simp] theorem State.setSR_bus (s : State) (r : StatusReg) : (s.setSR r).bus = s.bus := rfl
@[simp] theorem State.setSR_port (s : State) (r : StatusReg) : (s.setSR r).port = s.port := rfl

@[simp] theorem State.setQueue_d (s : State) (l : Level) (q : List Byte) : (s.setQueue l q).d = s.d := rfl
@[simp] theorem State.setQueue_a (s : State) (l : Level) (q : List Byte) : (s.setQueue l q).a = s.a := rfl
@[simp] theorem State.setQueue_shadowSP (s : State) (l : Level) (q : List Byte) : (s.setQueue l q).shadowSP = s.shadowSP := rfl
@[simp] theorem State.setQueue_pc (s : State) (l : Level) (q : List Byte) : (s.setQueue l q).pc = s.pc := rfl
@[simp] theorem State.setQueue_sr (s : State) (l : Level) (q : List Byte) : (s.setQueue l q).sr = s.sr := rfl
@[simp] theorem State.setQueue_queues (s : State) (l : Level) (q : List Byte) : (s.setQueue l q).queues = s.queues.set l q := rfl
@[simp] theorem State.setQueue_outstanding (s : State) (l : Level) (q : List Byte) : (s.setQueue l q).outstanding = s.outstanding := rfl
@[simp] theorem State.setQueue_families (s : State) (l : Level) (q : List Byte) : (s.setQueue l q).families = s.families := rfl
@[simp] theorem State.setQueue_bus (s : State) (l : Level) (q : List Byte) : (s.setQueue l q).bus = s.bus := rfl
@[simp] theorem State.setQueue_port (s : State) (l : Level) (q : List Byte) : (s.setQueue l q).port = s.port := rfl

@[simp] theorem State.setOutstanding_d (s : State) (o : Bool) : (s.setOutstanding o).d = s.d := rfl
@[simp] theorem State.setOutstanding_a (s : State) (o : Bool) : (s.setOutstanding o).a = s.a := rfl
@[simp] theorem State.setOutstanding_shadowSP (s : State) (o : Bool) : (s.setOutstanding o).shadowSP = s.shadowSP := rfl
@[simp] theorem State.setOutstanding_pc (s : State) (o : Bool) : (s.setOutstanding o).pc = s.pc := rfl
@[simp] theorem State.setOutstanding_sr (s : State) (o : Bool) : (s.setOutstanding o).sr = s.sr := rfl
@[simp] theorem State.setOutstanding_queues (s : State) (o : Bool) : (s.setOutstanding o).queues = s.queues := rfl
@[simp] theorem State.setOutstanding_outstanding (s : State) (o : Bool) : (s.setOutstanding o).outstanding = o := rfl
@[simp] theorem State.setOutstanding_families (s : State) (o : Bool) : (s.setOutstanding o).families = s.families := rfl
@[simp] theorem State.setOutstanding_bus (s : State) (o : Bool) : (s.setOutstanding o).bus = s.bus := rfl
@[simp] theorem State.setOutstanding_port (s : State) (o : Bool) : (s.setOutstanding o).port = s.port := rfl

@[simp] theorem State.setBus_d (s : State) (b : Bus) : (s.setBus b).d = s.d := rfl
@[simp] theorem State.setBus_a (s : State) (b : Bus) : (s.setBus b).a = s.a := rfl
@[simp] theorem State.setBus_shadowSP (s : State) (b : Bus) : (s.setBus b).shadowSP = s.shadowSP := rfl
@[simp] theorem State.setBus_pc (s : State) (b : Bus) : (s.setBus b).pc = s.pc := rfl
@[simp] theorem State.setBus_sr (s : State) (b : Bus) : (s.setBus b).sr = s.sr := rfl
@[simp] theorem State.setBus_queues (s : State) (b : Bus) : (s.setBus b).queues = s.queues := rfl
@[simp] theorem State.setBus_outstanding (s : State) (b : Bus) : (s.setBus b).outstanding = s.outstanding := rfl
@[simp] theorem State.setBus_families (s : State) (b : Bus) : (s.setBus b).families = s.families := rfl
@[simp] theorem State.setBus_bus (s : State) (b : Bus) : (s.setBus b).bus = b := rfl
@[simp] theorem State.setBus_port (s : State) (b : Bus) : (s.setBus b).port = s.port := rfl

@[simp] theorem State.setPort_d (s : State) (p : HostPort) : (s.setPort p).d = s.d := rfl
@[simp] theorem State.setPort_a (s : State) (p : HostPort) : (s.setPort p).a = s.a := rfl
@[simp] theorem State.setPort_shadowSP (s : State) (p : HostPort) : (s.setPort p).shadowSP = s.shadowSP := rfl
@[simp] theorem State.setPort_pc (s : State) (p : HostPort) : (s.setPort p).pc = s.pc := rfl
@[simp] theorem State.setPort_sr (s : State) (p : HostPort) : (s.setPort p).sr = s.sr := rfl
@[simp] theorem State.setPort_queues (s : State) (p : HostPort) : (s.setPort p).queues = s.queues := rfl
@[simp] theorem State.setPort_outstanding (s : State) (p : HostPort) : (s.setPort p).outstanding = s.outstanding := rfl
@[simp] theorem State.setPort_families (s : State) (p : HostPort) : (s.setPort p).families = s.families := rfl
@[simp] theorem State.setPort_bus (s : State) (p : HostPort) : (s.setPort p).bus = s.bus := rfl
@[simp] theorem State.setPort_port (s : State) (p : HostPort) : (s.setPort p).port = p := rfl

theorem State.cell_d (s : State) (n : Reg) : s.cell (.d n) = s.d[n] := rfl
theorem State.cell_a (s : State) (n : Reg) : s.cell (.a n) = s.a[n] := rfl

@[simp] theorem State.cell_setShadow (s : State) (c : Cell) (r : RegName) : (s.setShadow c).cell r = s.cell r := by cases r <;> rfl
@[simp] theorem State.value_setShadow (s : State) (c : Cell) (r : RegName) : (s.setShadow c).value r = s.value r := by cases r <;> rfl
@[simp] theorem State.cell_setPC (s : State) (v : Long) (r : RegName) : (s.setPC v).cell r = s.cell r := by cases r <;> rfl
@[simp] theorem State.value_setPC (s : State) (v : Long) (r : RegName) : (s.setPC v).value r = s.value r := by cases r <;> rfl
@[simp] theorem State.cell_setSR (s : State) (r : StatusReg) (g : RegName) : (s.setSR r).cell g = s.cell g := by cases g <;> rfl
@[simp] theorem State.value_setSR (s : State) (r : StatusReg) (g : RegName) : (s.setSR r).value g = s.value g := by cases g <;> rfl
@[simp] theorem State.cell_setQueue (s : State) (l : Level) (q : List Byte) (r : RegName) : (s.setQueue l q).cell r = s.cell r := by cases r <;> rfl
@[simp] theorem State.value_setQueue (s : State) (l : Level) (q : List Byte) (r : RegName) : (s.setQueue l q).value r = s.value r := by cases r <;> rfl
@[simp] theorem State.cell_setOutstanding (s : State) (o : Bool) (r : RegName) : (s.setOutstanding o).cell r = s.cell r := by cases r <;> rfl
@[simp] theorem State.value_setOutstanding (s : State) (o : Bool) (r : RegName) : (s.setOutstanding o).value r = s.value r := by cases r <;> rfl
@[simp] theorem State.cell_setBus (s : State) (b : Bus) (r : RegName) : (s.setBus b).cell r = s.cell r := by cases r <;> rfl
@[simp] theorem State.value_setBus (s : State) (b : Bus) (r : RegName) : (s.setBus b).value r = s.value r := by cases r <;> rfl
@[simp] theorem State.cell_setPort (s : State) (p : HostPort) (r : RegName) : (s.setPort p).cell r = s.cell r := by cases r <;> rfl
@[simp] theorem State.value_setPort (s : State) (p : HostPort) (r : RegName) : (s.setPort p).value r = s.value r := by cases r <;> rfl

theorem State.cell_setD (s : State) (n : Reg) (c : Cell) (r : RegName) :
    (s.setD n c).cell r = if r = .d n then c else s.cell r := by
  cases r with
  | d m => simp [State.cell, State.setD, Vector.getElem_set, Fin.val_inj, eq_comm]
  | a m => simp [State.cell, State.setD]

theorem State.cell_setA (s : State) (n : Reg) (c : Cell) (r : RegName) :
    (s.setA n c).cell r = if r = .a n then c else s.cell r := by
  cases r with
  | d m => simp [State.cell, State.setA]
  | a m => simp [State.cell, State.setA, Vector.getElem_set, Fin.val_inj, eq_comm]

@[simp] theorem Cell.value_val (v : Long) : (Cell.val v).value = v := rfl
@[simp] theorem Cell.written_val (v : Long) : (Cell.val v).written = true := rfl
@[simp] theorem Cell.written_unwritten : Cell.unwritten.written = false := rfl

/-- A written cell is the cell of its value. -/
theorem Cell.eq_val_of_written {c : Cell} (h : c.written = true) : c = .val c.value := by
  cases c <;> simp_all [Cell.written, Cell.value]

/-! ### The bus record -/

@[simp] theorem Bus.issue_addrBits (b : Bus) (x : Access) : (b.issue x).addrBits = b.addrBits := rfl
@[simp] theorem Bus.issue_byteOrder (b : Bus) (x : Access) : (b.issue x).byteOrder = b.byteOrder := rfl
@[simp] theorem Bus.issue_mem (b : Bus) (x : Access) : (b.issue x).mem = b.mem := rfl
@[simp] theorem Bus.issue_answers (b : Bus) (x : Access) : (b.issue x).answers = b.answers.tail := rfl
@[simp] theorem Bus.issue_log (b : Bus) (x : Access) : (b.issue x).log = b.log ++ [x] := rfl
@[simp] theorem Bus.pokeByte_addrBits (b : Bus) (a : Long) (v : Byte) : (b.pokeByte a v).addrBits = b.addrBits := rfl
@[simp] theorem Bus.pokeByte_byteOrder (b : Bus) (a : Long) (v : Byte) : (b.pokeByte a v).byteOrder = b.byteOrder := rfl
@[simp] theorem Bus.pokeByte_answers (b : Bus) (a : Long) (v : Byte) : (b.pokeByte a v).answers = b.answers := rfl
@[simp] theorem Bus.pokeByte_log (b : Bus) (a : Long) (v : Byte) : (b.pokeByte a v).log = b.log := rfl

@[simp] theorem Bus.poke_addrBits (b : Bus) (a : Long) (sz : Size) (v : BitVec sz.bits) :
    (b.poke a sz v).addrBits = b.addrBits := by cases sz <;> rfl
@[simp] theorem Bus.poke_byteOrder (b : Bus) (a : Long) (sz : Size) (v : BitVec sz.bits) :
    (b.poke a sz v).byteOrder = b.byteOrder := by cases sz <;> rfl
@[simp] theorem Bus.poke_answers (b : Bus) (a : Long) (sz : Size) (v : BitVec sz.bits) :
    (b.poke a sz v).answers = b.answers := by cases sz <;> rfl
@[simp] theorem Bus.poke_log (b : Bus) (a : Long) (sz : Size) (v : BitVec sz.bits) :
    (b.poke a sz v).log = b.log := by cases sz <;> rfl

/-- What is at an address depends on the bus's memory and parameters alone. -/
theorem Bus.peek_congr {b c : Bus} (hm : c.mem = b.mem) (ha : c.addrBits = b.addrBits)
    (ho : c.byteOrder = b.byteOrder) (a : Long) (sz : Size) : c.peek a sz = b.peek a sz := by
  cases sz <;> simp [Bus.peek, Bus.peekLong, Bus.peekWord, Bus.peekByte, Bus.cell, hm, ha, ho]

@[simp] theorem Bus.peek_issue (b : Bus) (x : Access) (a : Long) (sz : Size) : (b.issue x).peek a sz = b.peek a sz :=
  Bus.peek_congr rfl rfl rfl a sz

@[simp] theorem Bus.peekByte_issue (b : Bus) (x : Access) (a : Long) : (b.issue x).peekByte a = b.peekByte a := rfl

/-! ### The status word's setters keep what the spec says they keep (R35) -/

@[simp] theorem StatusReg.compared_s {w : Nat} (sr : StatusReg) (d v : BitVec w) : (sr.compared d v).s = sr.s := rfl
@[simp] theorem StatusReg.compared_i {w : Nat} (sr : StatusReg) (d v : BitVec w) : (sr.compared d v).i = sr.i := rfl
@[simp] theorem StatusReg.compared_x {w : Nat} (sr : StatusReg) (d v : BitVec w) : (sr.compared d v).x = sr.x := rfl
@[simp] theorem StatusReg.valued_s {w : Nat} (sr : StatusReg) (d : BitVec w) : (sr.valued d).s = sr.s := rfl
@[simp] theorem StatusReg.valued_i {w : Nat} (sr : StatusReg) (d : BitVec w) : (sr.valued d).i = sr.i := rfl
@[simp] theorem StatusReg.valued_x {w : Nat} (sr : StatusReg) (d : BitVec w) : (sr.valued d).x = sr.x := rfl

/-- enter_privileged touches A7, the shadow slot and SR.S only (R33). -/
theorem State.enterPrivileged_fields (s : State) (b : Bool) :
    (s.enterPrivileged b).d = s.d ∧ (s.enterPrivileged b).pc = s.pc ∧ (s.enterPrivileged b).queues = s.queues ∧
    (s.enterPrivileged b).outstanding = s.outstanding ∧ (s.enterPrivileged b).families = s.families ∧
    (s.enterPrivileged b).bus = s.bus ∧ (s.enterPrivileged b).port = s.port ∧
    (s.enterPrivileged b).sr = { s.sr with s := b } := by
  unfold State.enterPrivileged
  split
  · rename_i h; subst h; simp
  · simp

end Sys2Proof.Machine
end

