-- ==== Sys2Proof/Laws/Memory.lean ====
section
/-! SUPPORT. The laws of the byte array: read after write, the canonical form kept by every memory operation, and that two
canonical memories that read alike are equal. -/

namespace Sys2Proof.Machine

theorem Memory.wfFrom_mono {lo hi : Nat} {m : Memory} (h : Memory.wfFrom hi m = true) (hl : lo ≤ hi) :
    Memory.wfFrom lo m = true := by
  cases m with
  | nil => rfl
  | cons e t =>
    obtain ⟨k, v⟩ := e
    simp only [Memory.wfFrom, Bool.and_eq_true, decide_eq_true_eq] at h ⊢
    exact ⟨⟨by omega, h.1.2⟩, h.2⟩

/-- Nothing is listed below the bound. -/
theorem Memory.read_below {m : Memory} : ∀ {lo a : Nat}, Memory.wfFrom lo m = true → a < lo → m.read a = Memory.blank := by
  induction m with
  | nil => intros; rfl
  | cons e t ih =>
    obtain ⟨k, v⟩ := e
    intro lo a h hlt
    simp only [Memory.wfFrom, Bool.and_eq_true, decide_eq_true_eq] at h
    have hk : k ≠ a := by omega
    simp only [Memory.read, if_neg hk]
    exact ih h.2 (by omega)

/-- Read after write. -/
theorem Memory.read_write {m : Memory} : ∀ {lo : Nat} (a b : Nat) (v : Byte), Memory.wfFrom lo m = true →
    (m.write a v).read b = if a = b then v else m.read b := by
  induction m with
  | nil =>
    intro lo a b v _
    by_cases hv : v = Memory.blank <;> simp [Memory.write, Memory.read, hv]
  | cons e t ih =>
    obtain ⟨k, u⟩ := e
    intro lo a b v h
    simp only [Memory.wfFrom, Bool.and_eq_true, decide_eq_true_eq] at h
    by_cases h1 : a < k
    · have hb : Memory.read ((k, u) :: t) a = Memory.blank := by
        apply Memory.read_below (lo := k) _ h1
        simp [Memory.wfFrom, h.1.2, h.2]
      by_cases hv : v = Memory.blank
      · simp only [Memory.write, if_pos h1, if_pos hv]
        split
        · rename_i hab; subst hab; rw [hb, hv]
        · rfl
      · simp [Memory.write, h1, hv, Memory.read]
    · by_cases h2 : a = k
      · subst h2
        by_cases hv : v = Memory.blank
        · simp only [Memory.write, if_neg h1, if_true, if_pos hv, Memory.read]
          split
          · rename_i hab; subst hab; rw [Memory.read_below h.2 (by omega), hv]
          · rfl
        · simp only [Memory.write, if_neg h1, if_true, if_neg hv, Memory.read]
          split <;> rfl
      · simp only [Memory.write, if_neg h1, if_neg h2, Memory.read]
        by_cases hkb : k = b
        · simp [hkb]; intro hab; omega
        · simp only [if_neg hkb]; exact ih a b v h.2

/-- A write leaves every other address alone, whatever the list's form. -/
theorem Memory.read_write_ne {m : Memory} {a b : Nat} (v : Byte) (h : a ≠ b) : (m.write a v).read b = m.read b := by
  induction m with
  | nil => by_cases hv : v = Memory.blank <;> simp [Memory.write, Memory.read, hv, h]
  | cons e t ih =>
    obtain ⟨k, u⟩ := e
    simp only [Memory.write]
    split
    · split <;> simp [Memory.read, h]
    · split
      · rename_i hk
        subst hk
        split <;> simp [Memory.read, h]
      · simp only [Memory.read, ih]

/-- A write keeps the canonical form. -/
theorem Memory.wfFrom_write {m : Memory} : ∀ {lo : Nat} (a : Nat) (v : Byte), Memory.wfFrom lo m = true → lo ≤ a →
    Memory.wfFrom lo (m.write a v) = true := by
  induction m with
  | nil =>
    intro lo a v _ ha
    by_cases hv : v = Memory.blank <;> simp [Memory.write, Memory.wfFrom, hv, ha]
  | cons e t ih =>
    obtain ⟨k, u⟩ := e
    intro lo a v h ha
    have h' := h
    simp only [Memory.wfFrom, Bool.and_eq_true, decide_eq_true_eq] at h
    by_cases h1 : a < k
    · by_cases hv : v = Memory.blank
      · simpa [Memory.write, h1, hv] using h'
      · simp [Memory.write, hv, Memory.wfFrom, ha, h.1.2, h.2, h1]
    · by_cases h2 : a = k
      · subst h2
        by_cases hv : v = Memory.blank
        · simp only [Memory.write, if_neg h1, if_true, if_pos hv]
          exact Memory.wfFrom_mono h.2 (by omega)
        · simp [Memory.write, hv, Memory.wfFrom, ha, h.2]
      · simp only [Memory.write, if_neg h1, if_neg h2, Memory.wfFrom, Bool.and_eq_true, decide_eq_true_eq]
        exact ⟨h.1, ih a v h.2 (by omega)⟩

theorem Memory.wf_write {m : Memory} (a : Nat) (v : Byte) (h : m.wf = true) : (m.write a v).wf = true :=
  Memory.wfFrom_write a v h (Nat.zero_le a)

/-- A write lists no address but its own and those already listed. -/
theorem Memory.all_write {m : Memory} {p : Nat → Bool} (a : Nat) (v : Byte) (hm : m.all (fun e => p e.1) = true)
    (ha : p a = true) : (m.write a v).all (fun e => p e.1) = true := by
  induction m with
  | nil => by_cases hv : v = Memory.blank <;> simp [Memory.write, hv, ha]
  | cons e t ih =>
    obtain ⟨k, u⟩ := e
    simp only [List.all_cons, Bool.and_eq_true] at hm
    simp only [Memory.write]
    split
    · split <;> simp [ha, hm.1, hm.2]
    · split
      · split <;> simp [ha, hm.2]
      · simp [hm.1, ih hm.2]

/-- Two canonical memories that read alike at every address are the same list. -/
theorem Memory.ext_of_read {m : Memory} : ∀ {lo : Nat} {n : Memory}, Memory.wfFrom lo m = true →
    Memory.wfFrom lo n = true → (∀ a, m.read a = n.read a) → m = n := by
  induction m with
  | nil =>
    intro lo n _ hn h
    cases n with
    | nil => rfl
    | cons e t =>
      obtain ⟨k, v⟩ := e
      have := h k
      simp only [Memory.wfFrom, Bool.and_eq_true, decide_eq_true_eq] at hn
      simp [Memory.read] at this
      exact absurd this.symm hn.1.2
  | cons e t ih =>
    obtain ⟨k, v⟩ := e
    intro lo n hm hn h
    cases n with
    | nil =>
      have := h k
      simp only [Memory.wfFrom, Bool.and_eq_true, decide_eq_true_eq] at hm
      simp [Memory.read] at this
      exact absurd this hm.1.2
    | cons e' t' =>
      obtain ⟨k', v'⟩ := e'
      have hm' := hm
      have hn' := hn
      simp only [Memory.wfFrom, Bool.and_eq_true, decide_eq_true_eq] at hm hn
      have hk : k = k' := by
        rcases Nat.lt_trichotomy k k' with hlt | heq | hgt
        · exfalso
          have h1 := h k
          have h2 : Memory.read ((k', v') :: t') k = Memory.blank :=
            Memory.read_below (lo := k') (by simp [Memory.wfFrom, hn.1.2, hn.2]) hlt
          rw [h2] at h1
          simp [Memory.read] at h1
          exact hm.1.2 h1
        · exact heq
        · exfalso
          have h1 := h k'
          have h2 : Memory.read ((k, v) :: t) k' = Memory.blank :=
            Memory.read_below (lo := k) (by simp [Memory.wfFrom, hm.1.2, hm.2]) hgt
          rw [h2] at h1
          simp [Memory.read] at h1
          exact hn.1.2 h1.symm
      subst hk
      have hv : v = v' := by simpa [Memory.read] using h k
      subst hv
      have ht : t = t' := by
        apply ih hm.2 hn.2
        intro a
        by_cases ha : k = a
        · subst ha
          rw [Memory.read_below hm.2 (by omega), Memory.read_below hn.2 (by omega)]
        · simpa [Memory.read, ha] using h a
      rw [ht]

/-! ### The bus's bytes -/

theorem Bus.cell_lt (b : Bus) (a : Long) : b.cell a < 2 ^ b.addrBits.count := Nat.mod_lt _ (by positivity)

@[simp] theorem Bus.cell_pokeByte (b : Bus) (a c : Long) (v : Byte) : (b.pokeByte a v).cell c = b.cell c := rfl

/-- One byte read after one byte written. -/
theorem Bus.peekByte_pokeByte {b : Bus} (h : b.wf = true) (a c : Long) (v : Byte) :
    (b.pokeByte a v).peekByte c = if b.cell a = b.cell c then v else b.peekByte c := by
  simp only [Bus.wf, Bool.and_eq_true] at h
  exact Memory.read_write _ _ v h.1

theorem Bus.wf_pokeByte {b : Bus} (a : Long) (v : Byte) (h : b.wf = true) : (b.pokeByte a v).wf = true := by
  simp only [Bus.wf, Bool.and_eq_true] at h ⊢
  exact ⟨Memory.wf_write _ _ h.1, Memory.all_write (p := fun k => decide (k < 2 ^ b.addrBits.count)) _ _ h.2
    (by simpa using b.cell_lt a)⟩

theorem Bus.wf_pokeWord {b : Bus} (a : Long) (v : Word) (h : b.wf = true) : (b.pokeWord a v).wf = true :=
  Bus.wf_pokeByte _ _ (Bus.wf_pokeByte _ _ h)

theorem Bus.wf_pokeLong {b : Bus} (a : Long) (v : Long) (h : b.wf = true) : (b.pokeLong a v).wf = true :=
  Bus.wf_pokeWord _ _ (Bus.wf_pokeWord _ _ h)

/-- A store at any size keeps the canonical form. -/
theorem Bus.wf_poke {b : Bus} (a : Long) (sz : Size) (v : BitVec sz.bits) (h : b.wf = true) :
    (b.poke a sz v).wf = true := by
  cases sz
  · exact Bus.wf_pokeByte _ _ h
  · exact Bus.wf_pokeWord _ _ h
  · exact Bus.wf_pokeLong _ _ h

/-- The four cells an access can touch are four. -/
theorem Bus.cell_ne (b : Bus) (a : Long) {j k : Nat} (hj : j < 4) (hk : k < 4) (h : j ≠ k) :
    b.cell (a + BitVec.ofNat 32 j) ≠ b.cell (a + BitVec.ofNat 32 k) := by
  have := a.isLt
  simp only [Bus.cell, BitVec.toNat_add, BitVec.toNat_ofNat]
  cases b.addrBits <;> simp only [AddrBits.count] <;> omega

theorem Bus.cell_ne_base (b : Bus) (a : Long) {k : Nat} (hk : k < 4) (h : 0 ≠ k) :
    b.cell a ≠ b.cell (a + BitVec.ofNat 32 k) := by
  simpa using b.cell_ne a (j := 0) (by decide) hk h

theorem ByteOrder.joinWord_splitWord (o : ByteOrder) (v : Word) : o.joinWord (o.splitWord v).1 (o.splitWord v).2 = v := by
  cases o <;> apply BitVec.eq_of_getLsbD_eq <;> intro i hi <;>
    simp only [ByteOrder.joinWord, ByteOrder.splitWord, BitVec.getLsbD_append, BitVec.getLsbD_extractLsb'] <;>
    by_cases h : i < 8 <;> simp [h, show i - 8 < 8 by omega] <;> congr 1 <;> omega

theorem ByteOrder.joinLong_splitLong (o : ByteOrder) (v : Long) : o.joinLong (o.splitLong v).1 (o.splitLong v).2 = v := by
  cases o <;> apply BitVec.eq_of_getLsbD_eq <;> intro i hi <;>
    simp only [ByteOrder.joinLong, ByteOrder.splitLong, BitVec.getLsbD_append, BitVec.getLsbD_extractLsb'] <;>
    by_cases h : i < 16 <;> simp [h, show i - 16 < 16 by omega] <;> congr 1 <;> omega

/-- A byte outside the cells a store writes is as before. -/
theorem Bus.peekByte_poke_outside {b : Bus} {a c : Long} {sz : Size} (v : BitVec sz.bits)
    (h : b.cell c ∉ b.footprint a sz) : (b.poke a sz v).peekByte c = b.peekByte c := by
  have one : ∀ (d : Bus) (x : Long) (u : Byte), d.cell = b.cell → b.cell c ≠ b.cell x →
      (d.pokeByte x u).peekByte c = d.peekByte c :=
    fun d x u hd hx => Memory.read_write_ne (a := d.cell x) (b := d.cell c) u (by rw [hd]; exact Ne.symm hx)
  cases sz with
  | b =>
    simp only [Bus.footprint, List.mem_singleton] at h
    exact one _ _ _ rfl h
  | w =>
    simp only [Bus.footprint, List.mem_cons, List.not_mem_nil, or_false, not_or] at h
    simp only [Bus.poke, Bus.pokeWord]
    exact (one (b.pokeByte a _) _ _ rfl h.2).trans (one b _ _ rfl h.1)
  | l =>
    simp only [Bus.footprint, List.mem_cons, List.not_mem_nil, or_false, not_or] at h
    simp only [Bus.poke, Bus.pokeLong, Bus.pokeWord]
    have e3 : a + 2 + 1 = a + 3 := by rw [BitVec.add_assoc]; rfl
    rw [e3]
    exact (one (((b.pokeByte a _).pokeByte (a + 1) _).pokeByte (a + 2) _) _ _ rfl h.2.2.2).trans
      ((one ((b.pokeByte a _).pokeByte (a + 1) _) _ _ rfl h.2.2.1).trans
        ((one (b.pokeByte a _) _ _ rfl h.2.1).trans (one b _ _ rfl h.1)))

/-- A word read where a word was written. -/
theorem Bus.peekWord_pokeWord {b : Bus} (h : b.wf = true) (a : Long) (v : Word) : (b.pokeWord a v).peekWord a = v := by
  have ne : b.cell (a + 1) ≠ b.cell a := Ne.symm (b.cell_ne_base a (k := 1) (by decide) (by decide))
  simp only [Bus.peekWord, Bus.pokeWord, Bus.pokeByte_byteOrder]
  rw [Bus.peekByte_pokeByte (Bus.wf_pokeByte _ _ h), Bus.peekByte_pokeByte (Bus.wf_pokeByte _ _ h),
    Bus.peekByte_pokeByte h]
  simp only [Bus.cell_pokeByte, if_neg ne, if_true, ByteOrder.joinWord_splitWord]

/-- A read at the size and address of the last write gives what was written (R61, R151). -/
theorem Bus.peek_poke {b : Bus} (h : b.wf = true) (a : Long) (sz : Size) (v : BitVec sz.bits) :
    (b.poke a sz v).peek a sz = v := by
  cases sz with
  | b => simpa [Bus.peek, Bus.poke] using Bus.peekByte_pokeByte h a a v
  | w => exact Bus.peekWord_pokeWord h a v
  | l =>
    have out : ∀ (d : Bus) (x : Long) (u : Word), d.addrBits = b.addrBits → d.byteOrder = b.byteOrder → x = a + 2 →
        (d.pokeWord x u).peekWord a = d.peekWord a := by
      intro d x u hd ho hx
      subst hx
      have e : d.cell = b.cell := by funext c; simp only [Bus.cell, hd]
      have n02 : b.cell a ≠ b.cell (a + 2) := b.cell_ne_base a (k := 2) (by decide) (by decide)
      have n03 : b.cell a ≠ b.cell (a + 3) := b.cell_ne_base a (k := 3) (by decide) (by decide)
      have n12 : b.cell (a + 1) ≠ b.cell (a + 2) := b.cell_ne a (j := 1) (k := 2) (by decide) (by decide) (by decide)
      have n13 : b.cell (a + 1) ≠ b.cell (a + 3) := b.cell_ne a (j := 1) (k := 3) (by decide) (by decide) (by decide)
      have e3 : a + 2 + 1 = a + 3 := by rw [BitVec.add_assoc]; rfl
      have p0 := Bus.peekByte_poke_outside (b := d) (a := a + 2) (c := a) (sz := .w) u (by
        simp only [Bus.footprint, e, e3, List.mem_cons, List.not_mem_nil, or_false, not_or]; exact ⟨n02, n03⟩)
      have p1 := Bus.peekByte_poke_outside (b := d) (a := a + 2) (c := a + 1) (sz := .w) u (by
        simp only [Bus.footprint, e, e3, List.mem_cons, List.not_mem_nil, or_false, not_or]; exact ⟨n12, n13⟩)
      simp only [Bus.poke] at p0 p1
      simp only [Bus.peekWord, p0, p1]
      rfl
    simp only [Bus.peek, Bus.poke, Bus.pokeLong, Bus.peekLong]
    rw [out (b.pokeWord a _) _ _ rfl rfl rfl, Bus.peekWord_pokeWord h, Bus.peekWord_pokeWord (Bus.wf_pokeWord _ _ h)]
    exact ByteOrder.joinLong_splitLong _ _

@[simp] theorem Bus.wf_issue (b : Bus) (x : Access) : (b.issue x).wf = b.wf := rfl

/-- Whatever the bus answers to a write, the memory keeps its form. -/
theorem Bus.wf_writeAnswer {b : Bus} (a : Long) (sz : Size) (v : BitVec sz.bits) (h : b.wf = true) :
    (b.writeAnswer a sz v).1.wf = true := by
  unfold Bus.writeAnswer
  split
  · exact Bus.wf_poke _ _ _ h
  · exact h
  · exact h
  · exact Bus.wf_poke _ _ _ h

theorem Bus.wf_pokeBytes (bs : List Byte) : ∀ {b : Bus} (a : Long), b.wf = true → (b.pokeBytes a bs).wf = true := by
  induction bs with
  | nil => intro b a h; exact h
  | cons v t ih => intro b a h; exact ih _ (Bus.wf_pokeByte _ _ h)

/-- The memory right after reset is in canonical form. -/
theorem reset_bus_wf : State.reset.bus.wf = true := by decide

end Sys2Proof.Machine
end

