-- ==== Sys2Proof/Laws/Ops.lean ====
section
/-! SUPPORT. Running an Op, and one lemma for each shared operation that says everything it can do: what holds when it
answers a value, what holds when it stops, and when it completes. The provers cite these instead of unfolding. -/

namespace Sys2Proof.Machine

/-! ### Running an Op -/

theorem Op.bind_eq_ok {α β : Type} {x : Op α} {f : α → Op β} {s t : State} {b : β} :
    (x >>= f) s = .ok b t ↔ ∃ a u, x s = .ok a u ∧ f a u = .ok b t := by
  show EStateM.bind x f s = _ ↔ _
  unfold EStateM.bind
  cases h : x s with
  | ok a u => simp
  | error e u => simp

theorem Op.bind_eq_error {α β : Type} {x : Op α} {f : α → Op β} {s t : State} {e : Stop} :
    (x >>= f) s = .error e t ↔ x s = .error e t ∨ ∃ a u, x s = .ok a u ∧ f a u = .error e t := by
  show EStateM.bind x f s = _ ↔ _
  unfold EStateM.bind
  cases h : x s with
  | ok a u => simp
  | error e' u => simp

theorem Op.bind_of_ok {α β : Type} {x : Op α} {f : α → Op β} {s u : State} {a : α} (h : x s = .ok a u) :
    (x >>= f) s = f a u := by
  show EStateM.bind x f s = _
  simp [EStateM.bind, h]

theorem Op.bind_of_error {α β : Type} {x : Op α} {f : α → Op β} {s u : State} {e : Stop} (h : x s = .error e u) :
    (x >>= f) s = .error e u := by
  show EStateM.bind x f s = _
  simp [EStateM.bind, h]

@[simp] theorem Op.get_run (s : State) : (get : Op State) s = .ok s s := rfl
@[simp] theorem Op.set_run (s t : State) : (set t : Op PUnit) s = .ok ⟨⟩ t := rfl
@[simp] theorem Op.modify_run (f : State → State) (s : State) : (modify f : Op PUnit) s = .ok ⟨⟩ (f s) := rfl
@[simp] theorem Op.pure_run {α : Type} (a : α) (s : State) : (pure a : Op α) s = .ok a s := rfl
@[simp] theorem Op.throw_run {α : Type} (e : Stop) (s : State) : (throw e : Op α) s = .error e s := rfl
@[simp] theorem raise_run {α : Type} (f : Fault) (s : State) : (raise f : Op α) s = .error (.fault f) s := rfl

@[simp] theorem Op.get_bind {β : Type} (f : State → Op β) (s : State) : ((get : Op State) >>= f) s = f s s := rfl
@[simp] theorem Op.set_bind {β : Type} (f : PUnit → Op β) (s t : State) : ((set t : Op PUnit) >>= f) s = f ⟨⟩ t := rfl
@[simp] theorem Op.modify_bind {β : Type} (g : State → State) (f : PUnit → Op β) (s : State) :
    ((modify g : Op PUnit) >>= f) s = f ⟨⟩ (g s) := rfl
@[simp] theorem Op.pure_bind' {α β : Type} (a : α) (f : α → Op β) (s : State) : ((pure a : Op α) >>= f) s = f a s := rfl

@[simp] theorem toOutcome_ok {α : Type} (a : α) (s : State) :
    toOutcome (EStateM.Result.ok a s) = Host.Outcome.next s := rfl
@[simp] theorem toOutcome_fault {α : Type} (f : Fault) (s : State) :
    toOutcome (EStateM.Result.error (.fault f) s : EStateM.Result Stop State α) = .fault f := rfl
@[simp] theorem toOutcome_refused {α : Type} (r : Refusal) (s : State) :
    toOutcome (EStateM.Result.error (.refused r) s : EStateM.Result Stop State α) = .refused r := rfl

/-- An Op gives a next state only by answering. -/
theorem toOutcome_eq_next {α : Type} {r : EStateM.Result Stop State α} {t : State} :
    toOutcome r = .next t ↔ ∃ a, r = .ok a t := by
  cases r with
  | ok a s => simp
  | error e s => cases e <;> simp

theorem toOutcome_eq_fault {α : Type} {r : EStateM.Result Stop State α} {f : Fault} :
    toOutcome r = .fault f ↔ ∃ t, r = .error (.fault f) t := by
  cases r with
  | ok a s => simp
  | error e s => cases e <;> simp

theorem toOutcome_eq_refused {α : Type} {r : EStateM.Result Stop State α} {f : Refusal} :
    toOutcome r = .refused f ↔ ∃ t, r = .error (.refused f) t := by
  cases r with
  | ok a s => simp
  | error e s => cases e <;> simp

/-! ### Reading from the bus changes the port alone -/

/-- `t` is `s` after the reads `xs` have gone out on the port. -/
def Reads (s t : State) (xs : List Access) : Prop :=
  t = s.setBus { s.bus with answers := s.bus.answers.drop xs.length, log := s.bus.log ++ xs }

theorem Reads.refl (s : State) : Reads s s [] := by simp [Reads, State.setBus]

theorem Reads.trans {s t u : State} {xs ys : List Access} (h : Reads s t xs) (g : Reads t u ys) :
    Reads s u (xs ++ ys) := by
  unfold Reads at *
  subst h
  rw [g]
  simp [State.setBus, List.drop_drop]

/-- Everything but the port's answers and log is as before. -/
theorem Reads.fields {s t : State} {xs : List Access} (h : Reads s t xs) :
    t.d = s.d ∧ t.a = s.a ∧ t.shadowSP = s.shadowSP ∧ t.pc = s.pc ∧ t.sr = s.sr ∧ t.queues = s.queues ∧
    t.outstanding = s.outstanding ∧ t.families = s.families ∧ t.port = s.port ∧ t.bus.mem = s.bus.mem ∧
    t.bus.addrBits = s.bus.addrBits ∧ t.bus.byteOrder = s.bus.byteOrder := by
  unfold Reads at h; subst h; simp [State.setBus]

theorem Reads.cell {s t : State} {xs : List Access} (h : Reads s t xs) (r : RegName) : t.cell r = s.cell r := by
  unfold Reads at h; subst h; simp

theorem Reads.value {s t : State} {xs : List Access} (h : Reads s t xs) (r : RegName) : t.value r = s.value r := by
  unfold Reads at h; subst h; simp

theorem Reads.peek {s t : State} {xs : List Access} (h : Reads s t xs) (a : Long) (sz : Size) :
    t.bus.peek a sz = s.bus.peek a sz := by
  obtain ⟨-, -, -, -, -, -, -, -, -, hm, ha, ho⟩ := h.fields
  exact Bus.peek_congr hm ha ho a sz

theorem Reads.tags {s t : State} {xs : List Access} (h : Reads s t xs) :
    t.dataTag = s.dataTag ∧ t.progTag = s.progTag := by
  unfold Reads at h; subst h; exact ⟨rfl, rfl⟩

/-- On the reference bus the answers stay exhausted, and the state is `s` with the reads logged. -/
theorem Reads.plain {s t : State} {xs : List Access} (h : Reads s t xs) (hp : s.plainBus) :
    t = s.logged xs ∧ t.plainBus := by
  unfold Reads at h; unfold State.plainBus at *
  have hb : { s.bus with answers := s.bus.answers.drop xs.length, log := s.bus.log ++ xs } =
      { s.bus with log := s.bus.log ++ xs } := by rw [hp]; simp [hp]
  rw [hb] at h
  exact ⟨h, by rw [h]; exact hp⟩

/-! ### The bus port -/

/-- All a bus read can do when it answers. -/
theorem busRead_ok {k : AccessKind} {g : Tag} {a : Long} {sz : Size} {s t : State} {v : BitVec sz.bits} :
    busRead k g a sz s = .ok v t ↔
      misaligned a sz = false ∧ s.bus.readAnswer a sz = some v ∧ Reads s t [⟨k, g, a, sz, none⟩] := by
  unfold busRead Reads
  by_cases hm : misaligned a sz = true
  · simp [hm]
  · simp only [hm, Bool.false_eq_true, if_false, Op.get_bind, Op.set_bind, true_and]
    cases hr : s.bus.readAnswer a sz with
    | some u =>
      simp only [Op.pure_run, EStateM.Result.ok.injEq, Option.some.injEq]
      constructor
      · rintro ⟨rfl, rfl⟩; exact ⟨rfl, by simp [Bus.issue, List.drop_one]⟩
      · rintro ⟨rfl, rfl⟩; exact ⟨rfl, by simp [Bus.issue, List.drop_one]⟩
    | none => simp

/-- All a bus read can do when it stops. -/
theorem busRead_error {k : AccessKind} {g : Tag} {a : Long} {sz : Size} {s t : State} {e : Stop} :
    busRead k g a sz s = .error e t ↔
      (misaligned a sz = true ∧ e = .fault (.misaligned k g a sz) ∧ t = s) ∨
      (misaligned a sz = false ∧ s.bus.readAnswer a sz = none ∧ e = .fault (.busFault k g a sz) ∧
        Reads s t [⟨k, g, a, sz, none⟩]) := by
  unfold busRead Reads
  by_cases hm : misaligned a sz = true
  · simp [hm, eq_comm]
  · simp only [hm, Bool.false_eq_true, if_false, Op.get_bind, Op.set_bind, false_and, false_or, true_and]
    cases hr : s.bus.readAnswer a sz with
    | some u => simp
    | none =>
      simp only [raise_run, EStateM.Result.error.injEq, true_and]
      constructor
      · rintro ⟨rfl, rfl⟩; exact ⟨rfl, by simp [Bus.issue, List.drop_one]⟩
      · rintro ⟨rfl, rfl⟩; exact ⟨rfl, by simp [Bus.issue, List.drop_one]⟩

theorem Bus.readAnswer_plain {b : Bus} (h : b.answers = []) (a : Long) (sz : Size) :
    b.readAnswer a sz = some (b.peek a sz) := by simp [Bus.readAnswer, Bus.answer, h]

theorem Bus.writeAnswer_plain {b : Bus} (h : b.answers = []) (a : Long) (sz : Size) (v : BitVec sz.bits) :
    b.writeAnswer a sz v = (b.poke a sz v, true) := by simp [Bus.writeAnswer, Bus.answer, h]

/-- An aligned read on the reference bus answers what memory holds. -/
theorem busRead_plain {k : AccessKind} {g : Tag} {a : Long} {sz : Size} {s : State} (hp : s.plainBus)
    (ha : misaligned a sz = false) :
    busRead k g a sz s = .ok (s.bus.peek a sz) (s.logged [⟨k, g, a, sz, none⟩]) := by
  rw [busRead_ok]
  refine ⟨ha, Bus.readAnswer_plain hp a sz, ?_⟩
  have hp' : s.bus.answers = [] := hp
  simp only [Reads, State.logged, hp', List.drop_nil]

/-- All a bus write can do when it answers: it was aligned, the bus accepted it, and only the bus has changed. -/
theorem busWrite_ok {k : AccessKind} {g : Tag} {a : Long} {sz : Size} {v : BitVec sz.bits} {s t : State} {u : Unit} :
    busWrite k g a sz v s = .ok u t ↔
      misaligned a sz = false ∧ (s.bus.writeAnswer a sz v).2 = true ∧
      t = s.setBus ((s.bus.writeAnswer a sz v).1.issue ⟨k, g, a, sz, some (v.setWidth 32)⟩) := by
  unfold busWrite
  by_cases hm : misaligned a sz = true
  · simp [hm]
  · simp only [hm, Bool.false_eq_true, if_false, Op.get_bind, Op.set_bind, true_and]
    cases hw : (s.bus.writeAnswer a sz v).2
    · simp
    · simp only [if_true, Op.pure_run, EStateM.Result.ok.injEq, true_and]
      exact eq_comm

/-- All a bus write can do when it stops. -/
theorem busWrite_error {k : AccessKind} {g : Tag} {a : Long} {sz : Size} {v : BitVec sz.bits} {s t : State} {e : Stop} :
    busWrite k g a sz v s = .error e t ↔
      (misaligned a sz = true ∧ e = .fault (.misaligned k g a sz) ∧ t = s) ∨
      (misaligned a sz = false ∧ (s.bus.writeAnswer a sz v).2 = false ∧ e = .fault (.busFault k g a sz) ∧
        t = s.setBus ((s.bus.writeAnswer a sz v).1.issue ⟨k, g, a, sz, some (v.setWidth 32)⟩)) := by
  unfold busWrite
  by_cases hm : misaligned a sz = true
  · simp only [hm, if_true, raise_run, EStateM.Result.error.injEq, true_and, Bool.true_eq_false, false_and, or_false]
    constructor <;> (rintro ⟨h1, h2⟩; exact ⟨h1.symm, h2.symm⟩)
  · simp only [hm, Bool.false_eq_true, if_false, Op.get_bind, Op.set_bind, false_and, false_or, true_and]
    cases hw : (s.bus.writeAnswer a sz v).2
    · simp only [Bool.false_eq_true, if_false, raise_run, EStateM.Result.error.injEq, true_and]
      constructor <;> (rintro ⟨h1, h2⟩; exact ⟨h1.symm, h2.symm⟩)
    · simp

/-- An aligned write on the reference bus stores its bytes. -/
theorem busWrite_plain {k : AccessKind} {g : Tag} {a : Long} {sz : Size} {v : BitVec sz.bits} {s : State}
    (hp : s.plainBus) (ha : misaligned a sz = false) :
    busWrite k g a sz v s =
      .ok () ((s.setBus (s.bus.poke a sz v)).logged [⟨k, g, a, sz, some (v.setWidth 32)⟩]) := by
  rw [busWrite_ok]
  have hp' : s.bus.answers = [] := hp
  refine ⟨ha, by rw [Bus.writeAnswer_plain hp'], ?_⟩
  rw [Bus.writeAnswer_plain hp']
  simp [State.logged, State.setBus, Bus.issue, hp']

/-! ### Registers -/

/-- All a register read can do. -/
theorem readReg_run (r : RegName) (s : State) :
    readReg r s = match s.cell r with
      | .val v => .ok v s
      | .unwritten => .error (.fault (.unwritten r)) s := by
  unfold readReg
  simp only [Op.get_bind]
  cases s.cell r <;> rfl

theorem readReg_ok {r : RegName} {s t : State} {v : Long} :
    readReg r s = .ok v t ↔ s.cell r = .val v ∧ t = s := by
  rw [readReg_run]; cases s.cell r <;> simp [eq_comm]

theorem readReg_error {r : RegName} {s t : State} {e : Stop} :
    readReg r s = .error e t ↔ s.cell r = .unwritten ∧ e = .fault (.unwritten r) ∧ t = s := by
  rw [readReg_run]; cases s.cell r <;> simp [eq_comm]

theorem readReg_written {r : RegName} {s : State} (h : (s.cell r).written = true) :
    readReg r s = .ok (s.value r) s := by
  rw [readReg_ok]; exact ⟨Cell.eq_val_of_written h, rfl⟩

/-- Requiring registers answers only when all are written, and changes nothing. -/
theorem requireRegs_ok {rs : List RegName} : ∀ {s t : State} {u : Unit},
    requireRegs rs s = .ok u t ↔ (rs.all fun r => (s.cell r).written) = true ∧ t = s := by
  induction rs with
  | nil => intro s t u; simp [requireRegs, eq_comm]
  | cons r rs ih =>
    intro s t u
    simp only [requireRegs, Op.bind_eq_ok, readReg_ok, ih, List.all_cons, Bool.and_eq_true]
    constructor
    · rintro ⟨v, _, ⟨hc, rfl⟩, h, rfl⟩; exact ⟨⟨by rw [hc]; rfl, h⟩, rfl⟩
    · rintro ⟨⟨hc, h⟩, rfl⟩; exact ⟨_, _, ⟨Cell.eq_val_of_written hc, rfl⟩, h, rfl⟩

/-- Requiring registers stops only at an unwritten one, and changes nothing. -/
theorem requireRegs_error {rs : List RegName} : ∀ {s t : State} {e : Stop}, requireRegs rs s = .error e t →
    t = s ∧ ∃ r ∈ rs, s.cell r = .unwritten ∧ e = .fault (.unwritten r) := by
  induction rs with
  | nil => intro s t e h; simp [requireRegs] at h
  | cons r rs ih =>
    intro s t e h
    simp only [requireRegs, Op.bind_eq_error, readReg_error, readReg_ok] at h
    rcases h with ⟨hc, he, ht⟩ | ⟨v, _, ⟨hc, rfl⟩, h⟩
    · exact ⟨ht, r, by simp, hc, he⟩
    · obtain ⟨ht, q, hq, hu⟩ := ih h
      exact ⟨ht, q, by simp [hq], hu⟩

theorem requireRegs_written {rs : List RegName} {s : State} (h : (rs.all fun r => (s.cell r).written) = true) :
    requireRegs rs s = .ok () s := requireRegs_ok.mpr ⟨h, rfl⟩

/-- All a data-register write can do when it answers: a narrow one found the cell written. -/
theorem writeD_ok {sz : Size} {n : Reg} {v : BitVec sz.bits} {s t : State} {u : Unit} :
    writeD sz n v s = .ok u t ↔
      (sz = .l ∨ (s.cell (.d n)).written = true) ∧ t = s.setD n (.val (replaceLow (s.value (.d n)) sz v)) := by
  cases sz
  case l =>
    simp only [writeD, Op.modify_run, EStateM.Result.ok.injEq, true_and, true_or, replaceLow, BitVec.setWidth_eq]
    exact eq_comm
  all_goals
    simp only [writeD, Op.bind_eq_ok, readReg_ok, Op.modify_run, EStateM.Result.ok.injEq, true_and, reduceCtorEq, false_or]
    constructor
    · rintro ⟨w, _, ⟨hc, rfl⟩, rfl⟩
      exact ⟨by rw [hc]; rfl, by simp [State.value, hc]⟩
    · rintro ⟨hc, rfl⟩
      exact ⟨_, _, ⟨Cell.eq_val_of_written hc, rfl⟩, rfl⟩

theorem writeD_error {sz : Size} {n : Reg} {v : BitVec sz.bits} {s t : State} {e : Stop} :
    writeD sz n v s = .error e t ↔
      sz ≠ .l ∧ s.cell (.d n) = .unwritten ∧ e = .fault (.unwritten (.d n)) ∧ t = s := by
  cases sz
  case l => simp [writeD]
  all_goals simp [writeD, Op.bind_eq_error, readReg_error]

@[simp] theorem writeA_run (n : Reg) (v : Long) (s : State) : writeA n v s = .ok () (s.setA n (.val v)) := rfl
@[simp] theorem setFromCompare_run {w : Nat} (d v : BitVec w) (s : State) :
    setFromCompare d v s = .ok () (s.setSR (s.sr.compared d v)) := rfl
@[simp] theorem setFromValue_run {w : Nat} (r : BitVec w) (s : State) :
    setFromValue r s = .ok () (s.setSR (s.sr.valued r)) := rfl
@[simp] theorem advance_run (n : Nat) (s : State) :
    advance n s = .ok () (s.setPC (s.pc + BitVec.ofNat 32 n)) := rfl

end Sys2Proof.Machine
end

