-- ==== Sys2Proof/Laws/Operands.lean ====
section
/-! SUPPORT. What the operand resolver and the two handlers can do: one lemma for each operation when it answers, one when
it stops, and one that says when it completes on the reference bus. -/

namespace Sys2Proof.Machine

/-! ### Locations depend on register values alone -/

theorem EA.loc_congr {sz : Size} {s t : State} (h : ∀ r, t.value r = s.value r) (c : Long) (ea : EA sz) :
    ea.loc t c = ea.loc s c := by
  cases ea <;> simp [EA.loc, h]

theorem EA.finished_setPC {sz : Size} (ea : EA sz) (s : State) (v : Long) :
    ea.finished (s.setPC v) = (ea.finished s).setPC v := by
  cases ea <;> simp [EA.finished, State.setA, State.setPC, State.value, State.cell]

/-- `finish` changes the address registers alone. -/
theorem EA.finished_fields {sz : Size} (ea : EA sz) (s : State) :
    (ea.finished s).d = s.d ∧ (ea.finished s).shadowSP = s.shadowSP ∧ (ea.finished s).pc = s.pc ∧
    (ea.finished s).sr = s.sr ∧ (ea.finished s).queues = s.queues ∧ (ea.finished s).outstanding = s.outstanding ∧
    (ea.finished s).families = s.families ∧ (ea.finished s).bus = s.bus ∧ (ea.finished s).port = s.port := by
  cases ea <;> simp [EA.finished]

/-- An address register the mode does not move keeps its cell. -/
theorem EA.finished_cell {sz : Size} (ea : EA sz) (s : State) {n : Reg} (h : n ∉ ea.moves) :
    (ea.finished s).cell (.a n) = s.cell (.a n) := by
  cases ea <;> simp_all [EA.finished, EA.moves, State.cell_setA]

/-! ### resolve -/

theorem EA.resolve_ok {sz : Size} {ea : EA sz} {c : Long} {s t : State} {l : Loc sz} :
    ea.resolve c s = .ok l t ↔ (ea.addressRegs.all fun r => (s.cell r).written) = true ∧ l = ea.loc s c ∧ t = s := by
  simp only [EA.resolve, Op.bind_eq_ok, requireRegs_ok]
  constructor
  · rintro ⟨_, u, ⟨hw, rfl⟩, h⟩
    simp only [Op.get_run, Op.pure_run, EStateM.Result.ok.injEq] at h
    obtain ⟨_, _, ⟨rfl, rfl⟩, rfl, rfl⟩ := h
    exact ⟨hw, rfl, rfl⟩
  · rintro ⟨hw, rfl, rfl⟩
    exact ⟨(), _, ⟨hw, rfl⟩, _, _, rfl, rfl⟩

/-- Resolving stops only at an unwritten register of the address, and changes nothing. -/
theorem EA.resolve_error {sz : Size} {ea : EA sz} {c : Long} {s t : State} {e : Stop} (h : ea.resolve c s = .error e t) :
    t = s ∧ ∃ r ∈ ea.addressRegs, s.cell r = .unwritten ∧ e = .fault (.unwritten r) := by
  simp only [EA.resolve, Op.bind_eq_error] at h
  rcases h with h | ⟨_, u, _, h⟩
  · exact requireRegs_error h
  · rcases h with h | ⟨_, _, _, h⟩ <;> simp at h

/-! ### get -/

/-- The register a location is, if it is one. -/
def Loc.register {sz : Size} : Loc sz → List RegName
  | .dreg n => [.d n]
  | .areg n => [.a n]
  | .mem _ | .prog _ | .imm _ => []

/-- A byte read of an address register, which no row has (R21). -/
def Loc.byteAddress {sz : Size} (l : Loc sz) : Prop := sz = .b ∧ ∃ n, l = .areg n

/-- All a `get` can do when it answers: at most one read goes out, and a location that is not in memory gives what it
holds. -/
theorem Loc.get_ok {sz : Size} {l : Loc sz} {s t : State} {v : BitVec sz.bits} (h : l.get s = .ok v t) :
    Reads s t (l.reads s) ∧ l.aligned = true ∧ (l.register.all fun r => (s.cell r).written) = true ∧
    (l.reads s = [] → v = l.contents s) := by
  cases l with
  | dreg n =>
    simp only [Loc.get, Op.bind_eq_ok, readReg_ok, Op.pure_run, EStateM.Result.ok.injEq] at h
    obtain ⟨w, _, ⟨hc, rfl⟩, rfl, rfl⟩ := h
    exact ⟨Reads.refl _, rfl, by simp [Loc.register, State.cell_d] at hc ⊢; simp [hc],
      fun _ => by simp [Loc.contents, State.value, hc]⟩
  | areg n =>
    by_cases hb : sz = .b
    · simp [Loc.get, hb] at h
    · simp only [Loc.get, hb, if_false, Op.bind_eq_ok, readReg_ok, Op.pure_run, EStateM.Result.ok.injEq] at h
      obtain ⟨w, _, ⟨hc, rfl⟩, rfl, rfl⟩ := h
      exact ⟨Reads.refl _, rfl, by simp [Loc.register, State.cell_a] at hc ⊢; simp [hc],
        fun _ => by simp [Loc.contents, State.value, hc]⟩
  | mem a =>
    simp only [Loc.get, Op.get_bind, busRead_ok] at h
    exact ⟨h.2.2, by simp [Loc.aligned, h.1], rfl, by simp [Loc.reads]⟩
  | prog a =>
    simp only [Loc.get, Op.get_bind, busRead_ok] at h
    exact ⟨h.2.2, by simp [Loc.aligned, h.1], rfl, by simp [Loc.reads]⟩
  | imm w =>
    simp only [Loc.get, Op.pure_run, EStateM.Result.ok.injEq] at h
    obtain ⟨rfl, rfl⟩ := h
    exact ⟨Reads.refl _, rfl, rfl, fun _ => rfl⟩

/-- All a `get` can do when it stops: nothing but reads has happened. -/
theorem Loc.get_error {sz : Size} {l : Loc sz} {s t : State} {e : Stop} (h : l.get s = .error e t) :
    (∃ xs, Reads s t xs ∧ (xs = [] ∨ xs = l.reads s)) ∧
    ((∃ f, e = .fault f) ∨ (e = .refused .invalidOperand ∧ l.byteAddress)) := by
  cases l with
  | dreg n =>
    simp only [Loc.get, Op.bind_eq_error, readReg_error, Op.pure_run, reduceCtorEq, and_false, exists_false,
      or_false] at h
    obtain ⟨-, rfl, rfl⟩ := h
    exact ⟨⟨[], Reads.refl _, .inl rfl⟩, .inl ⟨_, rfl⟩⟩
  | areg n =>
    by_cases hb : sz = .b
    · simp only [Loc.get, hb, if_true, Op.throw_run, EStateM.Result.error.injEq] at h
      obtain ⟨rfl, rfl⟩ := h
      exact ⟨⟨[], Reads.refl _, .inl rfl⟩, .inr ⟨rfl, hb, n, rfl⟩⟩
    · simp only [Loc.get, hb, if_false, Op.bind_eq_error, readReg_error, Op.pure_run, reduceCtorEq, and_false,
        exists_false, or_false] at h
      obtain ⟨-, rfl, rfl⟩ := h
      exact ⟨⟨[], Reads.refl _, .inl rfl⟩, .inl ⟨_, rfl⟩⟩
  | mem a =>
    simp only [Loc.get, Op.get_bind, busRead_error] at h
    rcases h with ⟨-, rfl, rfl⟩ | ⟨-, -, rfl, h⟩
    · exact ⟨⟨[], Reads.refl _, .inl rfl⟩, .inl ⟨_, rfl⟩⟩
    · exact ⟨⟨_, h, .inr rfl⟩, .inl ⟨_, rfl⟩⟩
  | prog a =>
    simp only [Loc.get, Op.get_bind, busRead_error] at h
    rcases h with ⟨-, rfl, rfl⟩ | ⟨-, -, rfl, h⟩
    · exact ⟨⟨[], Reads.refl _, .inl rfl⟩, .inl ⟨_, rfl⟩⟩
    · exact ⟨⟨_, h, .inr rfl⟩, .inl ⟨_, rfl⟩⟩
  | imm w => simp [Loc.get] at h

/-- On the reference bus a location whose register is written and whose address is aligned gives what it holds. -/
theorem Loc.get_plain {sz : Size} {l : Loc sz} {s : State} (hp : s.plainBus) (ha : l.aligned = true)
    (hw : (l.register.all fun r => (s.cell r).written) = true) (hb : ¬ l.byteAddress) :
    l.get s = .ok (l.contents s) (s.logged (l.reads s)) := by
  have h0 : s.logged [] = s := by simp [State.logged, State.setBus]
  cases l with
  | dreg n =>
    have hw' : (s.cell (.d n)).written = true := by simpa [Loc.register] using hw
    simp only [Loc.get, Op.bind_of_ok (readReg_written hw'), Op.pure_run, Loc.contents, Loc.reads, h0]
  | areg n =>
    have hw' : (s.cell (.a n)).written = true := by simpa [Loc.register] using hw
    have hb' : sz ≠ .b := fun h => hb ⟨h, n, rfl⟩
    simp only [Loc.get, hb', if_false, Op.bind_of_ok (readReg_written hw'), Op.pure_run, Loc.contents, Loc.reads, h0]
  | mem a =>
    have ha' : misaligned a sz = false := by simpa [Loc.aligned] using ha
    simp only [Loc.get, Op.get_bind, busRead_plain hp ha', Loc.contents, Loc.reads]
  | prog a =>
    have ha' : misaligned a sz = false := by simpa [Loc.aligned] using ha
    simp only [Loc.get, Op.get_bind, busRead_plain hp ha', Loc.contents, Loc.reads]
  | imm w => simp only [Loc.get, Op.pure_run, Loc.contents, Loc.reads, h0]

/-! ### put -/

/-- A location that provides `put` (R111). -/
def Loc.writable {sz : Size} : Loc sz → Bool
  | .dreg _ | .mem _ => true
  | .areg _ | .prog _ | .imm _ => false

/-- All a `put` can do when it answers: a data register's low bits, or an accepted write to memory. -/
theorem Loc.put_ok {sz : Size} {l : Loc sz} {v : BitVec sz.bits} {s t : State} {u : Unit} (h : l.put v s = .ok u t) :
    (∃ n, l = .dreg n ∧ t = s.setD n (.val (replaceLow (s.value (.d n)) sz v))) ∨
    (∃ a, l = .mem a ∧ misaligned a sz = false ∧ (s.bus.writeAnswer a sz v).2 = true ∧
      t = s.setBus ((s.bus.writeAnswer a sz v).1.issue ⟨.operandWrite, s.dataTag, a, sz, some (v.setWidth 32)⟩)) := by
  cases l with
  | dreg n => exact .inl ⟨n, rfl, (writeD_ok.mp h).2⟩
  | mem a =>
    simp only [Loc.put, Op.get_bind, busWrite_ok] at h
    exact .inr ⟨a, rfl, h⟩
  | areg n => simp [Loc.put] at h
  | prog a => simp [Loc.put] at h
  | imm w => simp [Loc.put] at h

/-- All a `put` can do when it stops: a failing write may have changed its own destination (R68), nothing else has
changed. -/
theorem Loc.put_error {sz : Size} {l : Loc sz} {v : BitVec sz.bits} {s t : State} {e : Stop}
    (h : l.put v s = .error e t) :
    t = s.setBus t.bus ∧ ((∃ f, e = .fault f) ∨ (e = .refused .invalidOperand ∧ l.writable = false)) ∧
    (t = s ∨ ∃ a, l = .mem a ∧ e = .fault (.busFault .operandWrite s.dataTag a sz) ∧
      t = s.setBus ((s.bus.writeAnswer a sz v).1.issue ⟨.operandWrite, s.dataTag, a, sz, some (v.setWidth 32)⟩)) := by
  cases l with
  | dreg n =>
    obtain ⟨-, -, rfl, rfl⟩ := writeD_error.mp h
    exact ⟨rfl, .inl ⟨_, rfl⟩, .inl rfl⟩
  | mem a =>
    simp only [Loc.put, Op.get_bind, busWrite_error] at h
    rcases h with ⟨-, rfl, rfl⟩ | ⟨-, -, rfl, rfl⟩
    · exact ⟨rfl, .inl ⟨_, rfl⟩, .inl rfl⟩
    · exact ⟨rfl, .inl ⟨_, rfl⟩, .inr ⟨a, rfl, rfl, rfl⟩⟩
  | areg n =>
    simp only [Loc.put, Op.throw_run, EStateM.Result.error.injEq] at h
    obtain ⟨rfl, rfl⟩ := h
    exact ⟨rfl, .inr ⟨rfl, rfl⟩, .inl rfl⟩
  | prog a =>
    simp only [Loc.put, Op.throw_run, EStateM.Result.error.injEq] at h
    obtain ⟨rfl, rfl⟩ := h
    exact ⟨rfl, .inr ⟨rfl, rfl⟩, .inl rfl⟩
  | imm w =>
    simp only [Loc.put, Op.throw_run, EStateM.Result.error.injEq] at h
    obtain ⟨rfl, rfl⟩ := h
    exact ⟨rfl, .inr ⟨rfl, rfl⟩, .inl rfl⟩

theorem State.logged_nil (s : State) : s.logged [] = s := by simp [State.logged, State.setBus]

/-- On the reference bus a writable location takes the value. -/
theorem Loc.put_plain {sz : Size} {l : Loc sz} {v : BitVec sz.bits} {s : State} (hp : s.plainBus)
    (ha : l.aligned = true) (hw : (l.register.all fun r => (s.cell r).written) = true) (hl : l.writable = true) :
    l.put v s = .ok () ((l.store s v).logged (l.writes s v)) := by
  cases l with
  | dreg n =>
    have hw' : (s.cell (.d n)).written = true := by simpa [Loc.register] using hw
    rw [Loc.store, Loc.writes, State.logged_nil]
    exact writeD_ok.mpr ⟨.inr hw', rfl⟩
  | mem a =>
    have ha' : misaligned a sz = false := by simpa [Loc.aligned] using ha
    simp only [Loc.put, Op.get_bind, busWrite_plain hp ha', Loc.store, Loc.writes]
  | areg n => simp [Loc.writable] at hl
  | prog a => simp [Loc.writable] at hl
  | imm w => simp [Loc.writable] at hl

/-! ### finish -/

/-- All a `finish` can do when it answers. -/
theorem EA.finish_ok {sz : Size} {ea : EA sz} {s t : State} {u : Unit} (h : ea.finish s = .ok u t) :
    t = ea.finished s := by
  cases ea
  case postInc n =>
    simp only [EA.finish, Op.bind_eq_ok, readReg_ok, writeA_run, EStateM.Result.ok.injEq, true_and] at h
    obtain ⟨w, _, ⟨hc, rfl⟩, rfl⟩ := h
    simp [EA.finished, State.value, hc]
  case preDec n =>
    simp only [EA.finish, Op.bind_eq_ok, readReg_ok, writeA_run, EStateM.Result.ok.injEq, true_and] at h
    obtain ⟨w, _, ⟨hc, rfl⟩, rfl⟩ := h
    simp [EA.finished, State.value, hc]
  all_goals
    simp only [EA.finish, Op.pure_run, EStateM.Result.ok.injEq, true_and] at h
    exact h.symm

/-- A `finish` whose registers are written completes. -/
theorem EA.finish_written {sz : Size} {ea : EA sz} {s : State}
    (h : (ea.moves.all fun n => (s.cell (.a n)).written) = true) : ea.finish s = .ok () (ea.finished s) := by
  cases ea
  case postInc n =>
    have hw : (s.cell (.a n)).written = true := by simpa [EA.moves] using h
    simp only [EA.finish, Op.bind_of_ok (readReg_written hw), writeA_run, EA.finished]
  case preDec n =>
    have hw : (s.cell (.a n)).written = true := by simpa [EA.moves] using h
    simp only [EA.finish, Op.bind_of_ok (readReg_written hw), writeA_run, EA.finished]
  all_goals rfl

/-- A register a mode moves is one its address is formed from, so `finish` never meets an unwritten cell. -/
theorem EA.moves_written {sz : Size} {ea : EA sz} {s : State}
    (h : (ea.addressRegs.all fun r => (s.cell r).written) = true) :
    (ea.moves.all fun n => (s.cell (.a n)).written) = true := by
  cases ea <;> simp_all [EA.moves, EA.addressRegs]

/-- `finish` never makes a cell unwritten. -/
theorem EA.finished_written {sz : Size} (ea : EA sz) {s : State} {r : RegName} (h : (s.cell r).written = true) :
    ((ea.finished s).cell r).written = true := by
  cases ea
  case postInc n => simp only [EA.finished, State.cell_setA]; split <;> simp_all
  case preDec n => simp only [EA.finished, State.cell_setA]; split <;> simp_all
  all_goals exact h

/-! ### The operand as a whole -/

theorem EA.regs_eq {sz : Size} (ea : EA sz) (s : State) (c : Long) :
    ea.regs = ea.addressRegs ++ (ea.loc s c).register := by
  cases ea <;> simp [EA.regs, EA.addressRegs, EA.loc, Loc.register]

/-- A ready operand has what `resolve`, `get` and `finish` ask for. -/
theorem EA.ready_parts {sz : Size} {ea : EA sz} {s : State} {c : Long} (h : ea.ready s c = true) :
    (ea.addressRegs.all fun r => (s.cell r).written) = true ∧ (ea.loc s c).aligned = true ∧
    ((ea.loc s c).register.all fun r => (s.cell r).written) = true := by
  simp only [EA.ready, Bool.and_eq_true, EA.regs_eq ea s c, List.all_append] at h
  exact ⟨h.1.1, h.2, h.1.2⟩

/-- Resolving and reading a ready operand on the reference bus. -/
theorem EA.read_plain {sz : Size} {ea : EA sz} {s : State} {c : Long} (hp : s.plainBus) (h : ea.ready s c = true)
    (hb : sz = .b → ea.variant ≠ .an) :
    ea.resolve c s = .ok (ea.loc s c) s ∧
    (ea.loc s c).get s = .ok (ea.operand s c) (s.logged ((ea.loc s c).reads s)) := by
  obtain ⟨hr, ha, hw⟩ := EA.ready_parts h
  refine ⟨EA.resolve_ok.mpr ⟨hr, rfl, rfl⟩, Loc.get_plain hp ha hw ?_⟩
  rintro ⟨hsz, n, hn⟩
  apply hb hsz
  cases ea <;> simp_all [EA.loc, EA.variant]

end Sys2Proof.Machine
end

