-- ==== Sys2Proof/Laws/Handlers.lean ====
section
/-! SUPPORT. What the uniform handlers can do: every way they answer (from which frames follow), every way they stop
(from which precision follows, R264), and the state they give on the reference bus. -/

namespace Sys2Proof.Machine

/-- Reading an operand: resolve and get together, when they answer. -/
theorem readOperand_ok {sz : Size} {ea : EA sz} {c : Long} {s t : State} {l : Loc sz} {v : BitVec sz.bits} {u : State}
    (hr : ea.resolve c s = .ok l t) (hg : l.get t = .ok v u) :
    l = ea.loc s c ∧ t = s ∧ Reads s u ((ea.loc s c).reads s) ∧ (ea.moves.all fun n => (s.cell (.a n)).written) = true ∧
    ((ea.loc s c).reads s = [] → v = ea.operand s c) ∧ (ea.loc s c).aligned = true := by
  obtain ⟨hw, rfl, rfl⟩ := EA.resolve_ok.mp hr
  obtain ⟨h1, h2, -, h4⟩ := Loc.get_ok hg
  exact ⟨rfl, rfl, h1, EA.moves_written hw, h4, h2⟩

/-- Every way the compare handler answers: the reads of its two operands go out, then the flags, both `finish`es and the
pc. -/
theorem compareHandler_ok {sz : Size} {src dst : EA sz} {s t : State} {u : Unit}
    (h : compareHandler sz src dst s = .ok u t) :
    ∃ (x y : BitVec sz.bits) (r : State),
      Reads s r ((src.loc s (s.pc + 2)).reads s ++
        (dst.loc s (s.pc + 2 + BitVec.ofNat 32 src.extSize)).reads s) ∧
      t = (dst.finished (src.finished (r.setSR (s.sr.compared y x)))).setPC
        (s.pc + BitVec.ofNat 32 (2 + src.extSize + dst.extSize)) := by
  simp only [compareHandler, Op.get_bind, Op.bind_eq_ok, setFromCompare_run, advance_run, EStateM.Result.ok.injEq,
    true_and] at h
  obtain ⟨ls, s1, hr1, x, s2, hg1, ld, s3, hr2, y, s4, hg2, _, s5, rfl, _, s6, hf1, _, s7, hf2, rfl⟩ := h
  obtain ⟨rfl, rfl, R1, -, -, -⟩ := readOperand_ok hr1 hg1
  obtain ⟨rfl, rfl, R2, -, -, -⟩ := readOperand_ok hr2 hg2
  obtain rfl := EA.finish_ok hf1
  obtain rfl := EA.finish_ok hf2
  have hv : ∀ r, s3.value r = s1.value r := fun r => R1.value r
  rw [EA.loc_congr hv] at R2
  have hreads : ∀ l : Loc sz, l.reads s3 = l.reads s1 := by
    intro l; cases l <;> simp [Loc.reads, R1.tags]
  rw [hreads] at R2
  have R := R1.trans R2
  refine ⟨x, y, s4, R, ?_⟩
  obtain ⟨-, -, -, hpc, hsr, -⟩ := R.fields
  simp [EA.finished_fields, hpc, hsr]

/-- On the reference bus, with both operands ready, the compare handler completes with this state. -/
theorem compareHandler_plain {sz : Size} {src dst : EA sz} {s : State} (hp : s.plainBus)
    (h1 : src.ready s (s.pc + 2) = true) (h2 : dst.ready s (s.pc + 2 + BitVec.ofNat 32 src.extSize) = true)
    (hb : sz = .b → src.variant ≠ .an ∧ dst.variant ≠ .an) :
    compareHandler sz src dst s = .ok ()
      ((dst.finished (src.finished ((s.logged ((src.loc s (s.pc + 2)).reads s ++
          (dst.loc s (s.pc + 2 + BitVec.ofNat 32 src.extSize)).reads s)).setSR
        (s.sr.compared (dst.operand s (s.pc + 2 + BitVec.ofNat 32 src.extSize)) (src.operand s (s.pc + 2)))))).setPC
        (s.pc + BitVec.ofNat 32 (2 + src.extSize + dst.extSize))) := by
  obtain ⟨hr1, hg1⟩ := EA.read_plain hp h1 (fun h => (hb h).1)
  set s2 := s.logged ((src.loc s (s.pc + 2)).reads s) with hs2
  have hp2 : s2.plainBus := hp
  have hc : ∀ r, s2.cell r = s.cell r := fun r => by cases r <;> rfl
  have hv : ∀ r, s2.value r = s.value r := fun r => by cases r <;> rfl
  have h2' : dst.ready s2 (s.pc + 2 + BitVec.ofNat 32 src.extSize) = true := by
    simpa only [EA.ready, hc, EA.loc_congr hv] using h2
  obtain ⟨hr2, hg2⟩ := EA.read_plain hp2 h2' (fun h => (hb h).2)
  have ho : dst.operand s2 (s.pc + 2 + BitVec.ofNat 32 src.extSize) =
      dst.operand s (s.pc + 2 + BitVec.ofNat 32 src.extSize) := by
    simp only [EA.operand, EA.loc_congr hv]
    cases dst.loc s (s.pc + 2 + BitVec.ofNat 32 src.extSize) <;> simp only [Loc.contents, hv]
    all_goals exact Bus.peek_congr rfl rfl rfl _ _
  have hrd : ∀ l : Loc sz, l.reads s2 = l.reads s := by intro l; cases l <;> rfl
  rw [EA.loc_congr hv] at hr2 hg2
  rw [hrd, ho] at hg2
  have hlog : s2.logged ((dst.loc s (s.pc + 2 + BitVec.ofNat 32 src.extSize)).reads s) =
      s.logged ((src.loc s (s.pc + 2)).reads s ++ (dst.loc s (s.pc + 2 + BitVec.ofNat 32 src.extSize)).reads s) := by
    simp [hs2, State.logged, State.setBus]
  rw [hlog] at hg2
  simp only [compareHandler, Op.get_bind, Op.bind_of_ok hr1, Op.bind_of_ok hg1, Op.bind_of_ok hr2, Op.bind_of_ok hg2]
  rw [Op.bind_of_ok (setFromCompare_run _ _ _)]
  set s5 := (s.logged ((src.loc s (s.pc + 2)).reads s ++
    (dst.loc s (s.pc + 2 + BitVec.ofNat 32 src.extSize)).reads s)).setSR
      (s.sr.compared (dst.operand s (s.pc + 2 + BitVec.ofNat 32 src.extSize)) (src.operand s (s.pc + 2))) with hs5
  have hc5 : ∀ r, s5.cell r = s.cell r := fun r => by cases r <;> rfl
  have hf1 : src.finish s5 = .ok () (src.finished s5) := by
    apply EA.finish_written
    have := EA.moves_written (EA.ready_parts h1).1
    simpa only [hc5] using this
  have hf2 : dst.finish (src.finished s5) = .ok () (dst.finished (src.finished s5)) := by
    apply EA.finish_written
    have := EA.moves_written (EA.ready_parts h2).1
    rw [List.all_eq_true] at this ⊢
    intro n hn
    exact EA.finished_written src (by rw [hc5]; exact this n hn)
  show (src.finish >>= fun _ => dst.finish >>= fun _ => advance _) s5 = _
  rw [Op.bind_of_ok hf1, Op.bind_of_ok hf2, advance_run]
  simp only [EA.finished_fields]
  rfl

/-- Every way the compare handler stops: only reads have happened. -/
theorem compareHandler_error {sz : Size} {src dst : EA sz} {s t : State} {e : Stop}
    (h : compareHandler sz src dst s = .error e t) :
    (∃ xs, Reads s t xs) ∧ ((∃ f, e = .fault f) ∨ sz = .b ∧ (src.variant = .an ∨ dst.variant = .an)) := by
  simp only [compareHandler, Op.get_bind, Op.bind_eq_error, setFromCompare_run, advance_run, reduceCtorEq, false_or] at h
  have an_of : ∀ {ea : EA sz} {c : Long} {st : State}, (ea.loc st c).byteAddress → sz = .b ∧ ea.variant = .an := by
    rintro ea c st ⟨hb, n, hn⟩
    refine ⟨hb, ?_⟩
    cases ea <;> simp_all [EA.loc, EA.variant]
  rcases h with h | ⟨ls, s1, hr1, h⟩
  · obtain ⟨rfl, r, -, -, rfl⟩ := EA.resolve_error h
    exact ⟨⟨[], Reads.refl _⟩, .inl ⟨_, rfl⟩⟩
  obtain ⟨-, rfl, rfl⟩ := EA.resolve_ok.mp hr1
  rcases h with h | ⟨x, s2, hg1, h⟩
  · obtain ⟨⟨xs, hx, -⟩, h | ⟨-, hb⟩⟩ := Loc.get_error h
    · exact ⟨⟨xs, hx⟩, .inl h⟩
    · exact ⟨⟨xs, hx⟩, .inr ⟨(an_of hb).1, .inl (an_of hb).2⟩⟩
  obtain ⟨R1, -⟩ := Loc.get_ok hg1
  rcases h with h | ⟨ld, s3, hr2, h⟩
  · obtain ⟨rfl, r, -, -, rfl⟩ := EA.resolve_error h
    exact ⟨⟨_, R1⟩, .inl ⟨_, rfl⟩⟩
  obtain ⟨hw2, rfl, rfl⟩ := EA.resolve_ok.mp hr2
  rcases h with h | ⟨y, s4, hg2, h⟩
  · obtain ⟨⟨xs, hx, -⟩, h | ⟨-, hb⟩⟩ := Loc.get_error h
    · exact ⟨⟨_, R1.trans hx⟩, .inl h⟩
    · exact ⟨⟨_, R1.trans hx⟩, .inr ⟨(an_of hb).1, .inr (an_of hb).2⟩⟩
  obtain ⟨R2, -⟩ := Loc.get_ok hg2
  obtain ⟨_, s5, h5, h⟩ := h
  simp only [EStateM.Result.ok.injEq, true_and] at h5
  subst h5
  exfalso
  have hw1 := (EA.resolve_ok.mp hr1).1
  have hc4 : ∀ r, (s4.setSR (s4.sr.compared y x)).cell r = s1.cell r := by
    intro r; simp [R2.cell, R1.cell]
  have hc2 : ∀ r, s3.cell r = s1.cell r := by intro r; simp [R1.cell]
  rcases h with h | ⟨_, s6, hf1, h⟩
  · rw [EA.finish_written (by simpa only [hc4] using EA.moves_written hw1)] at h
    simp at h
  · obtain rfl := EA.finish_ok hf1
    rcases h with h | ⟨_, _, _, h⟩
    · rw [EA.finish_written] at h
      · simp at h
      · have := EA.moves_written hw2
        rw [List.all_eq_true] at this ⊢
        intro n hn
        refine EA.finished_written src ?_
        rw [hc4, ← hc2]
        exact this n hn
    · simp at h

/-- Every way the CMPA handler answers. -/
theorem compareAddressHandler_ok {sz : Size} {src : EA sz} {n : Reg} {s t : State} {u : Unit}
    (h : compareAddressHandler sz src n s = .ok u t) :
    ∃ (x : BitVec sz.bits) (r : State), Reads s r ((src.loc s (s.pc + 2)).reads s) ∧
      t = (src.finished (r.setSR (s.sr.compared (s.value (.a n)) (addressSource sz x)))).setPC
        (s.pc + BitVec.ofNat 32 (2 + src.extSize)) := by
  simp only [compareAddressHandler, Op.get_bind, Op.bind_eq_ok, setFromCompare_run, advance_run, readReg_ok,
    EStateM.Result.ok.injEq, true_and] at h
  obtain ⟨ls, s1, hr1, x, s2, hg1, y, s3, ⟨hy, rfl⟩, _, s4, rfl, _, s5, hf1, rfl⟩ := h
  obtain ⟨rfl, rfl, R1, -, -, -⟩ := readOperand_ok hr1 hg1
  obtain rfl := EA.finish_ok hf1
  refine ⟨x, s3, R1, ?_⟩
  obtain ⟨-, -, -, hpc, hsr, -⟩ := R1.fields
  rw [R1.cell] at hy
  simp [EA.finished_fields, hpc, hsr, State.value, hy]

/-- On the reference bus, with the source ready and An written, the CMPA handler completes with this state. -/
theorem compareAddressHandler_plain {sz : Size} {src : EA sz} {n : Reg} {s : State} (hp : s.plainBus)
    (h1 : src.ready s (s.pc + 2) = true) (hn : (s.cell (.a n)).written = true) (hb : sz ≠ .b) :
    compareAddressHandler sz src n s = .ok ()
      ((src.finished ((s.logged ((src.loc s (s.pc + 2)).reads s)).setSR
        (s.sr.compared (s.value (.a n)) (addressSource sz (src.operand s (s.pc + 2)))))).setPC
        (s.pc + BitVec.ofNat 32 (2 + src.extSize))) := by
  obtain ⟨hr1, hg1⟩ := EA.read_plain hp h1 (fun h => absurd h hb)
  set s2 := s.logged ((src.loc s (s.pc + 2)).reads s) with hs2
  have hc : ∀ r, s2.cell r = s.cell r := fun r => by cases r <;> rfl
  have hy : readReg (.a n) s2 = .ok (s.value (.a n)) s2 := by
    rw [readReg_ok, hc]; exact ⟨Cell.eq_val_of_written hn, rfl⟩
  simp only [compareAddressHandler, Op.get_bind, Op.bind_of_ok hr1, Op.bind_of_ok hg1, Op.bind_of_ok hy]
  rw [Op.bind_of_ok (setFromCompare_run _ _ _)]
  have hf1 : ∀ q : StatusReg, src.finish (s2.setSR q) = .ok () (src.finished (s2.setSR q)) := by
    intro q
    apply EA.finish_written
    simpa [hc] using EA.moves_written (EA.ready_parts h1).1
  rw [Op.bind_of_ok (hf1 _), advance_run]
  simp only [EA.finished_fields]
  rfl

/-- Every way the CMPA handler stops: only reads have happened. -/
theorem compareAddressHandler_error {sz : Size} {src : EA sz} {n : Reg} {s t : State} {e : Stop}
    (h : compareAddressHandler sz src n s = .error e t) :
    (∃ xs, Reads s t xs) ∧ ((∃ f, e = .fault f) ∨ sz = .b) := by
  simp only [compareAddressHandler, Op.get_bind, Op.bind_eq_error, setFromCompare_run, advance_run, reduceCtorEq,
    false_or, readReg_error] at h
  rcases h with h | ⟨ls, s1, hr1, h⟩
  · obtain ⟨rfl, r, -, -, rfl⟩ := EA.resolve_error h
    exact ⟨⟨[], Reads.refl _⟩, .inl ⟨_, rfl⟩⟩
  obtain ⟨hw1, rfl, rfl⟩ := EA.resolve_ok.mp hr1
  rcases h with h | ⟨x, s2, hg1, h⟩
  · obtain ⟨⟨xs, hx, -⟩, h | ⟨-, hb⟩⟩ := Loc.get_error h
    · exact ⟨⟨xs, hx⟩, .inl h⟩
    · exact ⟨⟨xs, hx⟩, .inr hb.1⟩
  obtain ⟨R1, -⟩ := Loc.get_ok hg1
  rcases h with ⟨-, rfl, rfl⟩ | ⟨y, s3, hy, _, s4, h4, h⟩
  · exact ⟨⟨_, R1⟩, .inl ⟨_, rfl⟩⟩
  obtain ⟨-, rfl⟩ := readReg_ok.mp hy
  simp only [EStateM.Result.ok.injEq, true_and] at h4
  subst h4
  exfalso
  rcases h with h | ⟨_, _, _, h⟩
  · rw [EA.finish_written] at h
    · simp at h
    · simpa [R1.cell] using EA.moves_written hw1
  · simp at h

/-- What the logical write back can do: a data register's low bits, or one accepted write to memory. -/
def Stores {sz : Size} (l : Loc sz) (v : BitVec sz.bits) (r w : State) : Prop :=
  (∃ n, l = .dreg n ∧ w = r.setD n (.val (replaceLow (r.value (.d n)) sz v))) ∨
  (∃ a, l = .mem a ∧ misaligned a sz = false ∧ (r.bus.writeAnswer a sz v).2 = true ∧
    w = r.setBus ((r.bus.writeAnswer a sz v).1.issue ⟨.operandWrite, r.dataTag, a, sz, some (v.setWidth 32)⟩))

theorem Stores.fields {sz : Size} {l : Loc sz} {v : BitVec sz.bits} {r w : State} (h : Stores l v r w) :
    w.a = r.a ∧ w.shadowSP = r.shadowSP ∧ w.pc = r.pc ∧ w.sr = r.sr ∧ w.queues = r.queues ∧
    w.outstanding = r.outstanding ∧ w.families = r.families ∧ w.port = r.port := by
  rcases h with ⟨n, -, rfl⟩ | ⟨a, -, -, -, rfl⟩ <;> simp

/-- Every way the logical handler answers: its reads, its one store, the flags, both `finish`es and the pc. -/
theorem logicalHandler_ok {op : LogicalOp} {sz : Size} {src dst : EA sz} {s t : State} {u : Unit}
    (h : logicalHandler op sz src dst s = .ok u t) :
    ∃ (x y : BitVec sz.bits) (r w : State),
      Reads s r ((src.loc s (s.pc + 2)).reads s ++
        (dst.loc s (s.pc + 2 + BitVec.ofNat 32 src.extSize)).reads s) ∧
      Stores (dst.loc s (s.pc + 2 + BitVec.ofNat 32 src.extSize)) (op.apply y x) r w ∧
      t = (dst.finished (src.finished (w.setSR (s.sr.valued (op.apply y x))))).setPC
        (s.pc + BitVec.ofNat 32 (2 + src.extSize + dst.extSize)) := by
  simp only [logicalHandler, Op.get_bind, Op.bind_eq_ok, setFromValue_run, advance_run, EStateM.Result.ok.injEq,
    true_and] at h
  obtain ⟨ls, s1, hr1, x, s2, hg1, ld, s3, hr2, y, s4, hg2, _, w, hput, _, s5, rfl, _, s6, hf1, _, s7, hf2, rfl⟩ := h
  obtain ⟨rfl, rfl, R1, -, -, -⟩ := readOperand_ok hr1 hg1
  obtain ⟨rfl, rfl, R2, -, -, -⟩ := readOperand_ok hr2 hg2
  obtain rfl := EA.finish_ok hf1
  obtain rfl := EA.finish_ok hf2
  have hv : ∀ r, s3.value r = s1.value r := fun r => R1.value r
  rw [EA.loc_congr hv] at R2 hput
  have hreads : ∀ l : Loc sz, l.reads s3 = l.reads s1 := by
    intro l; cases l <;> simp [Loc.reads, R1.tags]
  rw [hreads] at R2
  have R := R1.trans R2
  have S : Stores (dst.loc s1 (s1.pc + 2 + BitVec.ofNat 32 src.extSize)) (op.apply y x) s4 w := Loc.put_ok hput
  refine ⟨x, y, s4, w, R, S, ?_⟩
  obtain ⟨-, -, -, hpc, hsr, -⟩ := R.fields
  obtain ⟨-, -, hpc', hsr', -⟩ := S.fields
  simp [EA.finished_fields, hpc, hsr, hpc', hsr']

/-- On the reference bus, with both operands ready and a writable destination, the logical handler completes with this
state. -/
theorem logicalHandler_plain {op : LogicalOp} {sz : Size} {src dst : EA sz} {s : State} (hp : s.plainBus)
    (h1 : src.ready s (s.pc + 2) = true) (h2 : dst.ready s (s.pc + 2 + BitVec.ofNat 32 src.extSize) = true)
    (hb : sz = .b → src.variant ≠ .an) (hd : dst.variant.readOnly = false) :
    let c := s.pc + 2 + BitVec.ofNat 32 src.extSize
    let r := op.apply (dst.operand s c) (src.operand s (s.pc + 2))
    logicalHandler op sz src dst s = .ok ()
      ((dst.finished (src.finished ((((dst.loc s c).store s r).logged ((src.loc s (s.pc + 2)).reads s ++
          (dst.loc s c).reads s ++ (dst.loc s c).writes s r)).setSR (s.sr.valued r)))).setPC
        (s.pc + BitVec.ofNat 32 (2 + src.extSize + dst.extSize))) := by
  intro c r
  obtain ⟨hr1, hg1⟩ := EA.read_plain hp h1 hb
  set s2 := s.logged ((src.loc s (s.pc + 2)).reads s) with hs2
  have hp2 : s2.plainBus := hp
  have hc : ∀ r, s2.cell r = s.cell r := fun r => by cases r <;> rfl
  have hv : ∀ r, s2.value r = s.value r := fun r => by cases r <;> rfl
  have h2' : dst.ready s2 c = true := by simpa only [EA.ready, hc, EA.loc_congr hv] using h2
  have hdv : dst.variant ≠ .an := by intro h; simp [h, Variant.readOnly] at hd
  obtain ⟨hr2, hg2⟩ := EA.read_plain hp2 h2' (fun _ => hdv)
  have ho : dst.operand s2 c = dst.operand s c := by
    simp only [EA.operand, EA.loc_congr hv]
    cases dst.loc s c <;> simp only [Loc.contents, hv]
    all_goals exact Bus.peek_congr rfl rfl rfl _ _
  have hrd : ∀ l : Loc sz, l.reads s2 = l.reads s := by intro l; cases l <;> rfl
  rw [EA.loc_congr hv] at hr2 hg2
  rw [hrd, ho] at hg2
  have hlog : s2.logged ((dst.loc s c).reads s) = s.logged ((src.loc s (s.pc + 2)).reads s ++ (dst.loc s c).reads s) := by
    simp [hs2, State.logged, State.setBus]
  rw [hlog] at hg2
  set xs := (src.loc s (s.pc + 2)).reads s ++ (dst.loc s c).reads s with hxs
  set s4 := s.logged xs with hs4
  have hc4 : ∀ r, s4.cell r = s.cell r := fun r => by cases r <;> rfl
  obtain ⟨hw2, ha2, hreg2⟩ := EA.ready_parts h2
  have hwr : (dst.loc s c).writable = true := by
    cases dst <;> simp_all [EA.variant, Variant.readOnly, EA.loc, Loc.writable]
  have hput : (dst.loc s c).put r s4 = .ok () (((dst.loc s c).store s4 r).logged ((dst.loc s c).writes s4 r)) :=
    Loc.put_plain (show s4.plainBus from hp) ha2 (by simpa only [hc4] using hreg2) hwr
  have hst : ((dst.loc s c).store s4 r).logged ((dst.loc s c).writes s4 r) =
      ((dst.loc s c).store s r).logged (xs ++ (dst.loc s c).writes s r) := by
    cases dst.loc s c with
    | mem a =>
      have : s4.bus.poke a sz r = { s.bus.poke a sz r with log := s.bus.log ++ xs } := by
        cases sz <;> rfl
      simp only [Loc.store, Loc.writes, State.logged, State.setBus_bus]
      rw [this]
      simp [State.setBus, hs4, State.logged, State.dataTag]
    | dreg n => simp [Loc.store, Loc.writes, State.logged, State.setBus, State.setD, hs4, State.value, State.cell]
    | areg n => simp [Loc.store, Loc.writes, State.logged, State.setBus, hs4]
    | prog a => simp [Loc.store, Loc.writes, State.logged, State.setBus, hs4]
    | imm v => simp [Loc.store, Loc.writes, State.logged, State.setBus, hs4]
  rw [hst] at hput
  simp only [logicalHandler, Op.get_bind, Op.bind_of_ok hr1, Op.bind_of_ok hg1]
  rw [Op.bind_of_ok hr2, Op.bind_of_ok hg2, Op.bind_of_ok hput, Op.bind_of_ok (setFromValue_run _ _)]
  set w := ((dst.loc s c).store s r).logged (xs ++ (dst.loc s c).writes s r) with hw
  have hsr : w.sr = s.sr := by cases hl : dst.loc s c <;> simp [hw, hl, Loc.store, State.logged]
  have hpc : w.pc = s.pc := by cases hl : dst.loc s c <;> simp [hw, hl, Loc.store, State.logged]
  have hcw : ∀ n, w.cell (.a n) = s.cell (.a n) := by
    intro n; cases hl : dst.loc s c <;> simp [hw, hl, Loc.store, State.logged, State.cell_setD]
  have hf1 : ∀ q, src.finish (w.setSR q) = .ok () (src.finished (w.setSR q)) := by
    intro q
    apply EA.finish_written
    simpa [hcw] using EA.moves_written (EA.ready_parts h1).1
  have hf2 : ∀ q, dst.finish (src.finished (w.setSR q)) = .ok () (dst.finished (src.finished (w.setSR q))) := by
    intro q
    apply EA.finish_written
    have := EA.moves_written hw2
    rw [List.all_eq_true] at this ⊢
    intro n hn
    exact EA.finished_written src (by simpa [hcw] using this n hn)
  rw [Op.bind_of_ok (hf1 _), Op.bind_of_ok (hf2 _), advance_run]
  simp only [EA.finished_fields, State.setSR_pc, hsr, hpc]
  rfl

/-- Every way the logical handler stops: only reads have happened, but for a failing write (R264). -/
theorem logicalHandler_error {op : LogicalOp} {sz : Size} {src dst : EA sz} {s t : State} {e : Stop}
    (h : logicalHandler op sz src dst s = .error e t) :
    t = s.setBus t.bus ∧
    ((∃ xs, Reads s t xs) ∨ ∃ a xs r v, dst.loc s (s.pc + 2 + BitVec.ofNat 32 src.extSize) = .mem a ∧
      e = .fault (.busFault .operandWrite s.dataTag a sz) ∧ Reads s r xs ∧
      t = r.setBus ((r.bus.writeAnswer a sz v).1.issue ⟨.operandWrite, s.dataTag, a, sz, some (v.setWidth 32)⟩)) ∧
    ((∃ f, e = .fault f) ∨ (sz = .b ∧ src.variant = .an) ∨ dst.variant.readOnly = true) := by
  simp only [logicalHandler, Op.get_bind, Op.bind_eq_error, setFromValue_run, advance_run, reduceCtorEq, false_or] at h
  have an_of : ∀ {ea : EA sz} {c : Long} {st : State}, (ea.loc st c).byteAddress → sz = .b ∧ ea.variant = .an := by
    rintro ea c st ⟨hb, n, hn⟩
    refine ⟨hb, ?_⟩
    cases ea <;> simp_all [EA.loc, EA.variant]
  have shape : ∀ {r : State} {xs : List Access}, Reads s r xs → r = s.setBus r.bus := by
    intro r xs R; unfold Reads at R; subst R; rfl
  rcases h with h | ⟨ls, s1, hr1, h⟩
  · obtain ⟨rfl, r, -, -, rfl⟩ := EA.resolve_error h
    exact ⟨rfl, .inl ⟨[], Reads.refl _⟩, .inl ⟨_, rfl⟩⟩
  obtain ⟨hw1, rfl, rfl⟩ := EA.resolve_ok.mp hr1
  rcases h with h | ⟨x, s2, hg1, h⟩
  · obtain ⟨⟨xs, hx, -⟩, h | ⟨-, hb⟩⟩ := Loc.get_error h
    · exact ⟨shape hx, .inl ⟨xs, hx⟩, .inl h⟩
    · exact ⟨shape hx, .inl ⟨xs, hx⟩, .inr (.inl (an_of hb))⟩
  obtain ⟨R1, -⟩ := Loc.get_ok hg1
  rcases h with h | ⟨ld, s3, hr2, h⟩
  · obtain ⟨rfl, r, -, -, rfl⟩ := EA.resolve_error h
    exact ⟨shape R1, .inl ⟨_, R1⟩, .inl ⟨_, rfl⟩⟩
  obtain ⟨hw2, rfl, rfl⟩ := EA.resolve_ok.mp hr2
  rcases h with h | ⟨y, s4, hg2, h⟩
  · obtain ⟨⟨xs, hx, -⟩, h | ⟨-, hb⟩⟩ := Loc.get_error h
    · exact ⟨shape (R1.trans hx), .inl ⟨_, R1.trans hx⟩, .inl h⟩
    · exact ⟨shape (R1.trans hx), .inl ⟨_, R1.trans hx⟩, .inr (.inr (by simp [(an_of hb).2, Variant.readOnly]))⟩
  obtain ⟨R2, -⟩ := Loc.get_ok hg2
  have R := R1.trans R2
  rcases h with h | ⟨_, w, hput, h⟩
  · obtain ⟨h1, h2, h3⟩ := Loc.put_error h
    refine ⟨?_, ?_, ?_⟩
    · rw [h1, shape R]; rfl
    · rcases h3 with rfl | ⟨a, hl, rfl, ht⟩
      · exact .inl ⟨_, R⟩
      · rw [EA.loc_congr fun r => R1.value r] at hl
        rw [show s4.dataTag = s1.dataTag from R.tags.1] at ht ⊢
        exact .inr ⟨a, _, s4, _, hl, rfl, R, ht⟩
    · rcases h2 with h2 | ⟨-, h2⟩
      · exact .inl h2
      · refine .inr (.inr ?_)
        revert h2
        cases dst <;> simp [EA.loc, Loc.writable, EA.variant, Variant.readOnly]
  obtain ⟨_, s5, h5, h⟩ := h
  simp only [EStateM.Result.ok.injEq, true_and] at h5
  subst h5
  exfalso
  have S : Stores _ _ s4 w := Loc.put_ok hput
  have hca : ∀ n, (w.setSR (w.sr.valued (op.apply y x))).cell (.a n) = s1.cell (.a n) := by
    intro n
    rw [State.cell_setSR]
    simp only [State.cell_a, S.fields, R.fields]
  rcases h with h | ⟨_, s6, hf1, h⟩
  · rw [EA.finish_written] at h
    · simp at h
    · simpa only [hca] using EA.moves_written hw1
  · obtain rfl := EA.finish_ok hf1
    rcases h with h | ⟨_, _, _, h⟩
    · rw [EA.finish_written] at h
      · simp at h
      · have := EA.moves_written hw2
        rw [List.all_eq_true] at this ⊢
        intro n hn
        refine EA.finished_written src ?_
        rw [hca, ← R1.cell]
        exact this n hn
    · simp at h

end Sys2Proof.Machine
end

