-- ==== Sys2Proof/Laws/Fetch.lean ====
section
/-! SUPPORT. What fetching an instruction, taking an exception and the privilege switch can do. -/

namespace Sys2Proof.Machine

/-! ### Fetching -/

/-- An extension fetch answers after at most one read, with the program tag (R70). -/
theorem fetchExt_ok {c : Long} {n : Nat} {s t : State} {v : Long} (h : fetchExt c n s = .ok v t) :
    ∃ xs, Reads s t xs ∧ xs.length ≤ 1 ∧ ∀ x ∈ xs, x.kind = .extension ∧ x.tag = s.progTag ∧ x.sent = none := by
  unfold fetchExt at h
  simp only [Op.get_bind] at h
  split at h
  · simp only [Op.pure_run, EStateM.Result.ok.injEq] at h
    obtain ⟨-, rfl⟩ := h
    exact ⟨[], Reads.refl _, by simp, by simp⟩
  · simp only [Op.bind_eq_ok, Op.pure_run, EStateM.Result.ok.injEq] at h
    obtain ⟨_, _, h, -, rfl⟩ := h
    obtain ⟨-, -, R⟩ := busRead_ok.mp h
    exact ⟨_, R, by simp, by simp⟩
  · obtain ⟨-, -, R⟩ := busRead_ok.mp h
    exact ⟨_, R, by simp, by simp⟩

theorem fetchExt_error {c : Long} {n : Nat} {s t : State} {e : Stop} (h : fetchExt c n s = .error e t) :
    (∃ xs, Reads s t xs) ∧ ∃ f, e = .fault f := by
  unfold fetchExt at h
  simp only [Op.get_bind] at h
  split at h
  · simp at h
  · simp only [Op.bind_eq_error, Op.pure_run, reduceCtorEq, and_false, exists_false, or_false] at h
    rcases busRead_error.mp h with ⟨-, rfl, rfl⟩ | ⟨-, -, rfl, R⟩
    · exact ⟨⟨[], Reads.refl _⟩, _, rfl⟩
    · exact ⟨⟨_, R⟩, _, rfl⟩
  · rcases busRead_error.mp h with ⟨-, rfl, rfl⟩ | ⟨-, -, rfl, R⟩
    · exact ⟨⟨[], Reads.refl _⟩, _, rfl⟩
    · exact ⟨⟨_, R⟩, _, rfl⟩

/-- Fetching answers an instruction of the installed table after one to three reads with the program tag. -/
theorem fetchInstr_ok {s t : State} {i : Instr} (h : fetchInstr s = .ok i t) :
    ∃ (w : Word) (f : Form) (imm x : Long) (xs : List Access),
      lookup (dispatchTable s.families) w = some f ∧ f.assemble w imm x = some i ∧ misaligned s.pc .w = false ∧
      Reads s t xs ∧ xs.length ≤ 3 ∧ ∀ y ∈ xs, y.tag = s.progTag ∧ y.sent = none := by
  simp only [fetchInstr, Op.get_bind, Op.bind_eq_ok] at h
  obtain ⟨w, s1, h0, h⟩ := h
  obtain ⟨hm, -, R0⟩ := busRead_ok.mp h0
  cases hl : lookup (dispatchTable s.families) w with
  | none => rw [hl] at h; simp at h
  | some f =>
    rw [hl] at h
    simp only [Op.bind_eq_ok, requireRegs_ok] at h
    obtain ⟨_, s2, ⟨-, rfl⟩, imm, s3, h3, x, s4, h4, h⟩ := h
    obtain ⟨ys, R1, l1, t1⟩ := fetchExt_ok h3
    obtain ⟨zs, R2, l2, t2⟩ := fetchExt_ok h4
    cases ha : f.assemble w imm x with
    | none => rw [ha] at h; simp at h
    | some j =>
      rw [ha] at h
      simp only [Op.pure_run, EStateM.Result.ok.injEq] at h
      obtain ⟨rfl, rfl⟩ := h
      refine ⟨w, f, imm, x, _, hl, ha, hm, (R0.trans R1).trans R2, ?_, ?_⟩
      · simp only [List.length_append, List.length_cons, List.length_nil]; omega
      · intro y hy
        simp only [List.append_assoc, List.mem_append, List.mem_cons, List.not_mem_nil, or_false] at hy
        rcases hy with rfl | hy | hy
        · exact ⟨rfl, rfl⟩
        · have := t1 y hy; rw [R0.tags.2] at this; exact this.2
        · have := t2 y hy; rw [(R0.trans R1).tags.2] at this; exact this.2

/-- Fetching stops with a fault, and nothing but reads has happened. -/
theorem fetchInstr_error {s t : State} {e : Stop} (h : fetchInstr s = .error e t) :
    (∃ xs, Reads s t xs) ∧ ∃ f, e = .fault f := by
  simp only [fetchInstr, Op.get_bind, Op.bind_eq_error] at h
  rcases h with h | ⟨w, s1, h1, h⟩
  · rcases busRead_error.mp h with ⟨-, rfl, rfl⟩ | ⟨-, -, rfl, R⟩
    · exact ⟨⟨[], Reads.refl _⟩, _, rfl⟩
    · exact ⟨⟨_, R⟩, _, rfl⟩
  obtain ⟨-, -, R0⟩ := busRead_ok.mp h1
  cases hl : lookup (dispatchTable s.families) w with
  | none =>
    rw [hl] at h
    simp only [raise_run, EStateM.Result.error.injEq] at h
    obtain ⟨rfl, rfl⟩ := h
    exact ⟨⟨_, R0⟩, _, rfl⟩
  | some f =>
    rw [hl] at h
    simp only [Op.bind_eq_error] at h
    rcases h with h | ⟨_, s2, h2, h⟩
    · obtain ⟨rfl, r, -, -, rfl⟩ := requireRegs_error h
      exact ⟨⟨_, R0⟩, _, rfl⟩
    obtain ⟨-, rfl⟩ := requireRegs_ok.mp h2
    rcases h with h | ⟨imm, s3, h3, h⟩
    · obtain ⟨⟨ys, R1⟩, hf⟩ := fetchExt_error h
      exact ⟨⟨_, R0.trans R1⟩, hf⟩
    obtain ⟨ys, R1, -⟩ := fetchExt_ok h3
    rcases h with h | ⟨x, s4, h4, h⟩
    · obtain ⟨⟨zs, R2⟩, hf⟩ := fetchExt_error h
      exact ⟨⟨_, (R0.trans R1).trans R2⟩, hf⟩
    obtain ⟨zs, R2, -⟩ := fetchExt_ok h4
    cases ha : f.assemble w imm x with
    | none =>
      rw [ha] at h
      simp only [raise_run, EStateM.Result.error.injEq] at h
      obtain ⟨rfl, rfl⟩ := h
      exact ⟨⟨_, (R0.trans R1).trans R2⟩, _, rfl⟩
    | some j => rw [ha] at h; simp at h

/-! ### The privilege switch (R33) -/

theorem State.enterPrivileged_same {s : State} {b : Bool} (h : s.sr.s = b) : s.enterPrivileged b = s := by
  simp [State.enterPrivileged, h]

theorem State.enterPrivileged_switch {s : State} {b : Bool} (h : s.sr.s ≠ b) :
    s.enterPrivileged b = ((s.setA 7 s.shadowSP).setShadow s.a[7]).setSR { s.sr with s := b } := by
  simp [State.enterPrivileged, h]

/-! ### Taking an exception (R260) -/

theorem drop_two {α : Type} (l : List α) : l.drop 2 = l.tail.tail := by
  cases l with
  | nil => rfl
  | cons _ t => cases t <;> rfl

/-- Every way a delivery answers: what it keeps, and what it leaves in the status word, A7 and the controller. -/
theorem takeException_ok {l : Level} {v : Byte} {s t : State} {u : Unit} (h : takeException l v s = .ok u t) :
    ∃ (sp : Long) (h' : Long) (b1 b2 b3 : Bus),
      (s.enterPrivileged true).cell (.a 7) = .val sp ∧
      b1 = (s.bus.writeAnswer (sp - 4) .l s.pc).1.issue ⟨.framePush, .supervisorData, sp - 4, .l, some s.pc⟩ ∧
      b2 = (b1.writeAnswer (sp - 6) .w s.sr.word).1.issue
        ⟨.framePush, .supervisorData, sp - 6, .w, some (s.sr.word.setWidth 32)⟩ ∧
      b3 = b2.issue ⟨.vectorFetch, .supervisorProgram, vectorAddress v, .l, none⟩ ∧
      b2.readAnswer (vectorAddress v) .l = some h' ∧
      t = (((((s.enterPrivileged true).setSR { s.sr with s := true, i := l.number }).setA 7 (.val (sp - 6))).setBus
        b3).setOutstanding s.anyPending).setPC h' := by
  simp only [takeException, Op.get_bind, Op.modify_bind, Op.bind_eq_ok, readReg_ok, busWrite_ok, writeA_run,
    Op.modify_run, EStateM.Result.ok.injEq, true_and] at h
  obtain ⟨sp, s1, ⟨hsp, rfl⟩, _, s2, ⟨-, -, rfl⟩, _, s3, ⟨-, -, rfl⟩, _, s4, rfl, x, s5, h5, rfl⟩ := h
  obtain ⟨-, hx, R⟩ := busRead_ok.mp h5
  obtain ⟨hd, hpc, hq, ho, hf, hb, hp, hsr⟩ := State.enterPrivileged_fields s true
  rw [State.cell_setSR] at hsp
  refine ⟨sp, x, _, _, _, hsp, rfl, rfl, rfl, ?_, ?_⟩
  · simpa [hb, hpc, hsr] using hx
  · unfold Reads at R
    subst R
    simp [State.setPC, State.setOutstanding, State.setBus, State.setA, State.setSR, State.anyPending, Bus.issue, hb, hsr,
      hq]
    exact drop_two _

/-- A delivery stops only with a fault. -/
theorem takeException_error {l : Level} {v : Byte} {s t : State} {e : Stop} (h : takeException l v s = .error e t) :
    ∃ f, e = .fault f := by
  simp only [takeException, Op.get_bind, Op.modify_bind, Op.bind_eq_error, readReg_error, writeA_run, Op.modify_run,
    reduceCtorEq, and_false, exists_false, or_false, false_or] at h
  rcases h with ⟨-, rfl, -⟩ | ⟨sp, s1, -, h | ⟨_, s2, -, h | ⟨_, s3, -, _, s4, -, h⟩⟩⟩
  · exact ⟨_, rfl⟩
  · rcases busWrite_error.mp h with ⟨-, rfl, -⟩ | ⟨-, -, rfl, -⟩ <;> exact ⟨_, rfl⟩
  · rcases busWrite_error.mp h with ⟨-, rfl, -⟩ | ⟨-, -, rfl, -⟩ <;> exact ⟨_, rfl⟩
  · rcases busRead_error.mp h with ⟨-, rfl, -⟩ | ⟨-, -, rfl, -⟩ <;> exact ⟨_, rfl⟩

/-- The part of a delivery after the mode switch: both pushes, the vector fetch and the new pc. -/
def enterHandler (oldpc : Long) (old : Word) (v : Byte) : Op Unit := do
  let sp ← readReg (.a 7)
  busWrite .framePush .supervisorData (sp - 4) .l oldpc
  busWrite .framePush .supervisorData (sp - 6) .w old
  writeA 7 (sp - 6)
  let h ← busRead .vectorFetch .supervisorProgram (vectorAddress v) .l
  modify fun s => s.setOutstanding s.anyPending
  modify fun s => s.setPC h

/-- A delivery is the mode switch with the raised mask, and then the entry. -/
theorem takeException_eq (l : Level) (v : Byte) (s : State) : takeException l v s =
    enterHandler s.pc s.sr.word v ((s.enterPrivileged true).setSR { s.sr with s := true, i := l.number }) := by
  obtain ⟨-, -, -, -, -, -, -, hsr⟩ := State.enterPrivileged_fields s true
  simp only [takeException, Op.get_bind, Op.modify_bind, hsr]
  rfl

/-- After the switch to supervisor mode A7 is the supervisor stack pointer and the shadow slot the user stack pointer. -/
theorem enterPrivileged_stack (s : State) :
    (s.enterPrivileged true).cell (.a 7) = s.ssp ∧ (s.enterPrivileged true).shadowSP = s.usp ∧
    ∀ c, (s.enterPrivileged true).a.set 7 c = s.a.set 7 c := by
  unfold State.ssp State.usp
  by_cases h : s.sr.s = true
  · rw [State.enterPrivileged_same h]; simp [h, State.cell_a]
  · rw [State.enterPrivileged_switch h]
    simp [State.cell_setA, h]

theorem vectorAddress_aligned (v : Byte) : misaligned (vectorAddress v) .l = false := by
  simp [misaligned, vectorAddress]

theorem misaligned_sub {sp : Long} {k : Nat} (hk : k % 2 = 0) {sz : Size} (hm : misaligned sp .l = false) :
    misaligned (sp - BitVec.ofNat 32 k) sz = false := by
  have h0 : sp.getLsbD 0 = false := by
    simpa only [misaligned, show (Size.l != Size.b) = true from rfl, Bool.true_and] using hm
  have : (sp - BitVec.ofNat 32 k).getLsbD 0 = false := by
    have := sp.isLt
    rw [BitVec.getLsbD, Nat.testBit_zero] at h0 ⊢
    simp only [BitVec.toNat_sub, BitVec.toNat_ofNat, decide_eq_false_iff_not] at h0 ⊢
    omega
  simp only [misaligned, this, Bool.and_false]

/-- On the reference bus with an even supervisor stack pointer the entry completes with this state. -/
theorem enterHandler_plain {s : State} {oldpc sp : Long} {old : Word} {v : Byte} (hp : s.plainBus)
    (hs : s.cell (.a 7) = .val sp) (hm : misaligned sp .l = false) :
    enterHandler oldpc old v s = .ok ()
      ((((s.setBus { (s.bus.poke (sp - 4) .l oldpc).poke (sp - 6) .w old with
            log := s.bus.log ++ deliveryAccesses sp oldpc old v }).setA 7 (.val (sp - 6))).setOutstanding
          s.anyPending).setPC (((s.bus.poke (sp - 4) .l oldpc).poke (sp - 6) .w old).peek (vectorAddress v) .l)) := by
  have m4 : misaligned (sp - 4) .l = false := misaligned_sub (k := 4) rfl hm
  have m6 : misaligned (sp - 6) .w = false := misaligned_sub (k := 6) rfl hm
  obtain ⟨t1, h1⟩ : ∃ t, t = (s.setBus (s.bus.poke (sp - 4) .l oldpc)).logged
    [⟨.framePush, .supervisorData, sp - 4, .l, some (oldpc.setWidth 32)⟩] := ⟨_, rfl⟩
  have p1 : t1.plainBus := by rw [h1]; exact (Bus.poke_answers _ _ _ _).trans hp
  obtain ⟨t2, h2⟩ : ∃ t, t = (t1.setBus (t1.bus.poke (sp - 6) .w old)).logged
    [⟨.framePush, .supervisorData, sp - 6, .w, some (old.setWidth 32)⟩] := ⟨_, rfl⟩
  have p2 : (t2.setA 7 (.val (sp - 6))).plainBus := by rw [h2]; exact (Bus.poke_answers _ _ _ _).trans p1
  have w1 := busWrite_plain (k := .framePush) (g := .supervisorData) (v := oldpc) hp m4
  have w2 := busWrite_plain (k := .framePush) (g := .supervisorData) (v := old) p1 m6
  rw [← h1] at w1
  rw [← h2] at w2
  simp only [enterHandler]
  rw [Op.bind_of_ok (readReg_ok.mpr ⟨hs, rfl⟩), Op.bind_of_ok w1, Op.bind_of_ok w2, Op.bind_of_ok (writeA_run _ _ _),
    Op.bind_of_ok (busRead_plain p2 (vectorAddress_aligned v))]
  subst h2 h1
  simp only [Op.modify_bind, Op.modify_run, EStateM.Result.ok.injEq, true_and]
  simp only [State.setPC, State.setOutstanding, State.setA, State.logged, State.setBus, State.anyPending, Bus.poke, Bus.pokeLong,
    Bus.pokeWord, Bus.pokeByte, deliveryAccesses]
  refine State.mk.injEq .. |>.mpr ?_
  simp [Bus.peek, Bus.peekLong, Bus.peekWord, Bus.peekByte, Bus.cell]

/-! ### The delivery attempt (R259, R260) -/

/-- With nothing deliverable the attempt changes nothing. -/
theorem maybeDeliverInterrupt_none {s : State} (h : s.deliverable = none) : maybeDeliverInterrupt s = .ok () s := by
  simp only [maybeDeliverInterrupt, Op.get_bind, h, Op.pure_run]

/-- A deliverable level has a queued vector. -/
theorem deliverable_queue {s : State} {l : Level} (h : s.deliverable = some l) : ∃ v rest, s.queues[l] = v :: rest := by
  simp only [State.deliverable] at h
  cases hs : s.selected with
  | none => simp [hs] at h
  | some k =>
    have hk : k = l := by rw [hs] at h; simp only [Option.ite_none_right_eq_some, Option.some.injEq] at h; exact h.2
    subst hk
    have hne := List.find?_some hs
    cases hq : s.queues[k] with
    | nil => simp [hq] at hne
    | cons v rest => exact ⟨v, rest, rfl⟩

/-- The attempt takes the exception of the head of the deliverable level's queue. -/
theorem maybeDeliverInterrupt_some {s : State} {l : Level} {v : Byte} {rest : List Byte} (h : s.deliverable = some l)
    (hq : s.queues[l] = v :: rest) : maybeDeliverInterrupt s = takeException l v (s.setQueue l rest) := by
  simp only [maybeDeliverInterrupt, Op.get_bind, h, hq, Op.set_bind]

end Sys2Proof.Machine
end

