-- ==== Sys2Proof/Laws/Exec.lean ====
section
/-! SUPPORT. The thirty-five arms of exec as the four operand shapes: which shared handler each runs, and what a
well-formed instruction says of its operands. -/

namespace Sys2Proof.Machine

/-- The handler a shape runs: a compare, a compare of an address register, or a logical operation. -/
def runView : View → Op Unit
  | .toReg h sz ea rx =>
    match h.logicalOp with
    | some op => logicalHandler op sz ea (.dn rx)
    | none => if h = .cmpa then compareAddressHandler sz ea rx else compareHandler sz ea (.dn rx)
  | .toEa h sz rx ea =>
    match h.logicalOp with
    | some op => logicalHandler op sz (.dn rx) ea
    | none => compareHandler sz (.dn rx) ea
  | .immToEa h sz v ea =>
    match h.logicalOp with
    | some op => logicalHandler op sz (.imm v) ea
    | none => compareHandler sz (.imm v) ea
  | .postInc sz ay ax => compareHandler sz (.postInc ay) (.postInc ax)

/-- The handlers each shape of an instruction can have. -/
def viewReal : View → Prop
  | .toReg h sz _ _ => h = .cmp ∨ (h = .cmpa ∧ sz ≠ .b) ∨ h = .andToReg ∨ h = .orToReg
  | .toEa h _ _ _ => h = .andToEa ∨ h = .orToEa ∨ h = .eor
  | .immToEa h _ _ _ => h = .cmpi ∨ h = .andi ∨ h = .ori ∨ h = .eori
  | .postInc _ _ _ => True

theorem view_real (i : Instr) : viewReal i.view := by cases i <;> simp [Instr.view, viewReal]

/-- Every arm of exec is the handler of its shape. -/
theorem exec_eq (i : Instr) (s : State) : exec i s = toOutcome (runView i.view s) := by cases i <;> rfl

/-- Shape and instruction determine each other. -/
theorem view_instr (i : Instr) : i.view.instr = some i := by cases i <;> rfl

theorem view_of_instr {v : View} {i : Instr} (h : v.instr = some i) : i.view = v := by
  unfold View.instr at h
  split at h <;> first | (cases h; rfl) | simp at h

theorem sized_source {i : Instr} {h : Handler} {sz : Size} {ea : EA sz} {rx : Reg} (hv : i.view = .toReg h sz ea rx)
    (hw : i.wellFormed = true) : sz = .b → ea.variant ≠ .an := by
  intro hb hc
  simp [Instr.wellFormed, Instr.form, hv, View.form, Form.sized, hb, hc] at hw

theorem legal_of_wellFormed {i : Instr} (hw : i.wellFormed = true) : i.form.legal = true := by
  simp only [Instr.wellFormed, Bool.and_eq_true] at hw; exact hw.1.1

theorem writable_dest {i : Instr} (hw : i.wellFormed = true) (he : i.form.handler.writesEa = true) :
    i.form.variant.readOnly = false := by
  simp only [Instr.wellFormed, Form.writable, Bool.and_eq_true, he] at hw; simpa using hw.1.2

theorem ready_dn {sz : Size} {s : State} {c : Long} {n : Reg} (h : (s.cell (.d n)).written = true) :
    (EA.dn n : EA sz).ready s c = true := by simp [EA.ready, EA.regs, EA.loc, Loc.aligned, h]

theorem ready_imm {sz : Size} {s : State} {c : Long} {v : BitVec sz.bits} : (EA.imm v : EA sz).ready s c = true := by
  simp [EA.ready, EA.regs, EA.loc, Loc.aligned]

/-- An immediate or PC-relative or An destination is what a logical instruction may not have; the legal ones are. -/
theorem dest_writable {i : Instr} (hw : i.wellFormed = true) {h : Handler} {op : LogicalOp} (ho : h.logicalOp = some op)
    {sz : Size} {ea : EA sz} (hv : (∃ rx, i.view = .toEa h sz rx ea) ∨ ∃ v, i.view = .immToEa h sz v ea) :
    ea.variant.readOnly = false := by
  have hr := view_real i
  have hh : i.form.handler = h ∧ i.form.variant = ea.variant := by
    rcases hv with ⟨rx, hv⟩ | ⟨v, hv⟩ <;> exact ⟨by rw [Instr.form, hv]; rfl, by rw [Instr.form, hv]; rfl⟩
  rw [← hh.2]
  apply writable_dest hw
  rw [hh.1]
  rcases hv with ⟨rx, hv⟩ | ⟨v, hv⟩ <;> rw [hv] at hr <;> simp only [viewReal] at hr
  · rcases hr with rfl | rfl | rfl <;> rfl
  · rcases hr with rfl | rfl | rfl | rfl <;> first | rfl | simp [Handler.logicalOp] at ho

end Sys2Proof.Machine
end

