-- ==== Sys2Proof/Laws/Decode.lean ====
section
/-! SUPPORT. What the lookup finds, and that fetching on the reference bus is decoding the bytes at the pc. -/

namespace Sys2Proof

/-! ### Rows of the table -/

theorem Handler.mem_forms {h : Handler} {f : Form} : f ∈ h.forms ↔ f.handler = h ∧ f.legal = true := by
  obtain ⟨g, sz, v⟩ := f
  simp only [Handler.forms, List.mem_flatMap, List.mem_map, Form.legal, List.contains_iff_mem, Form.mk.injEq]
  constructor
  · rintro ⟨z, -, w, hw, rfl, rfl, rfl⟩; exact ⟨rfl, hw⟩
  · rintro ⟨rfl, hv⟩; exact ⟨sz, by cases sz <;> simp, v, hv, rfl, rfl, rfl⟩

/-- An entry of a built table is the entry of a legal form. -/
theorem mem_dispatchTable {fam : Families} {e : Entry} (h : e ∈ dispatchTable fam) :
    e = e.form.entry ∧ e.form.legal = true := by
  have part : ∀ {hs : List Handler}, e ∈ (hs.flatMap Handler.forms).map Form.entry →
      e = e.form.entry ∧ e.form.legal = true := by
    intro hs hm
    obtain ⟨f, hf, rfl⟩ := List.mem_map.mp hm
    obtain ⟨g, -, hg⟩ := List.mem_flatMap.mp hf
    exact ⟨rfl, (Handler.mem_forms.mp hg).2⟩
  simp only [dispatchTable, List.mem_append] at h
  rcases h with h | h
  · cases hc : fam.compare
    · simp [hc] at h
    · rw [hc] at h; exact part h
  · cases hc : fam.logical
    · simp [hc] at h
    · rw [hc] at h; exact part h

/-- What a lookup answers is a legal form whose masked match holds. -/
theorem lookup_row {fam : Families} {w : Word} {f : Form} (h : lookup (dispatchTable fam) w = some f) :
    f.legal = true ∧ f.entry.hits w = true := by
  simp only [lookup, Option.map_eq_some_iff] at h
  obtain ⟨e, he, rfl⟩ := h
  obtain ⟨h1, h2⟩ := mem_dispatchTable (List.mem_of_find?_eq_some he)
  have hh := List.find?_some he
  exact ⟨h2, by rw [← h1]; exact hh⟩

/-! ### What is assembled from a row -/

theorem view_of_assemble {f : Form} {w : Word} {imm x : Long} {i : Instr} (h : f.assemble w imm x = some i) :
    i.view = f.view w imm x := Machine.view_of_instr h

theorem EA.variant_make (sz : Size) (n : Reg) (x : Long) (v : Variant) : (EA.make sz n x v).variant = v := by
  cases v <;> rfl

/-- The row of an assembled instruction is the row it was assembled from. -/
theorem form_of_assemble {f : Form} {w : Word} {imm x : Long} {i : Instr} (hl : f.legal = true)
    (h : f.assemble w imm x = some i) : i.form = f := by
  rw [Instr.form, view_of_assemble h]
  obtain ⟨g, sz, v⟩ := f
  cases g <;> simp only [Form.view, View.form, EA.variant_make]
  cases v <;> simp [Form.legal, Handler.legalModes] at hl ⊢

/-- Every legal form is writable and sized. -/
theorem Form.legal_checks {f : Form} (h : f.legal = true) : f.writable = true ∧ f.sized = true := by
  obtain ⟨g, sz, v⟩ := f
  cases g <;> cases sz <;> cases v <;> first | (exact ⟨rfl, rfl⟩) | (exact absurd h (by decide))

/-- What a table row assembles is well formed. -/
theorem wellFormed_of_assemble {f : Form} {w : Word} {imm x : Long} {i : Instr} (hl : f.legal = true)
    (h : f.assemble w imm x = some i) : i.wellFormed = true := by
  obtain ⟨h1, h2⟩ := Form.legal_checks hl
  simp [Instr.wellFormed, form_of_assemble hl h, hl, h1, h2]

/-- A legal form always assembles. -/
theorem assemble_of_legal {f : Form} (hl : f.legal = true) (w : Word) (imm x : Long) :
    ∃ i, f.assemble w imm x = some i := by
  obtain ⟨g, sz, v⟩ := f
  cases g <;> cases sz <;> first | exact ⟨_, rfl⟩ | (exact absurd hl (by cases v <;> decide))

theorem Form.sizes (f : Form) : (f.immSize = 0 ∨ f.immSize = 2 ∨ f.immSize = 4) ∧
    (f.eaSize = 0 ∨ f.eaSize = 2 ∨ f.eaSize = 4) := by
  obtain ⟨g, sz, v⟩ := f
  cases g <;> cases sz <;> cases v <;> decide

end Sys2Proof

namespace Sys2Proof.Machine

/-! ### Fetching is decoding the bytes at the pc -/

theorem bytesAt_length (b : Bus) (n : Nat) : ∀ a : Long, (b.bytesAt a n).length = n := by
  induction n with
  | zero => intro a; rfl
  | succ k ih => intro a; simp [Bus.bytesAt, ih]

theorem takeWord_bytesAt (b : Bus) (a : Long) (n : Nat) :
    takeWord b.byteOrder (b.bytesAt a (n + 2)) = some (b.peekWord a, b.bytesAt (a + 2) n) := by
  have e : a + 1 + 1 = a + 2 := by rw [BitVec.add_assoc]; rfl
  simp only [Bus.bytesAt, takeWord, Bus.peekWord, e]

/-- The value an extension of `n` bytes at `c` has. -/
def extAt (b : Bus) (c : Long) (n : Nat) : Long :=
  match n with
  | 0 => 0
  | 2 => (b.peekWord c).setWidth 32
  | _ => b.peekLong c

theorem takeExt_bytesAt (b : Bus) (c : Long) {n : Nat} (k : Nat) (hn : n = 0 ∨ n = 2 ∨ n = 4) :
    takeExt b.byteOrder n (b.bytesAt c (k + n)) = some (extAt b c n, b.bytesAt (c + BitVec.ofNat 32 n) k) := by
  rcases hn with rfl | rfl | rfl
  · simp [takeExt, extAt]
  · simp [takeExt, takeWord_bytesAt, extAt]
  · have e1 : c + 1 + 1 = c + 2 := by rw [BitVec.add_assoc]; rfl
    have e2 : c + 2 + 1 + 1 = c + 4 := by rw [BitVec.add_assoc, BitVec.add_assoc]; rfl
    simp only [takeExt, takeLong, Bus.bytesAt, extAt, Bus.peekLong, Bus.peekWord, e1, e2]
    rfl

theorem misaligned_add {c : Long} {n : Nat} (hn : n % 2 = 0) (sz sz' : Size) (h : misaligned c .w = false) :
    misaligned (c + BitVec.ofNat 32 n) sz = false ∧ misaligned c sz' = false := by
  have hc : c.getLsbD 0 = false := by simpa only [misaligned, show (Size.w != Size.b) = true from rfl, Bool.true_and] using h
  refine ⟨?_, by simp only [misaligned, hc, Bool.and_false]⟩
  have : (c + BitVec.ofNat 32 n).getLsbD 0 = false := by
    rw [BitVec.getLsbD, Nat.testBit_zero] at hc ⊢
    simp only [BitVec.toNat_add, BitVec.toNat_ofNat, decide_eq_false_iff_not] at hc ⊢
    omega
  simp only [misaligned, this, Bool.and_false]

theorem fetchExt_plain {s : State} {c : Long} {n : Nat} (hp : s.plainBus) (hc : misaligned c .w = false)
    (hn : n = 0 ∨ n = 2 ∨ n = 4) :
    fetchExt c n s = .ok (extAt s.bus c n) (s.logged (extensionReads s.progTag c [n])) := by
  rcases hn with rfl | rfl | rfl
  · simp [fetchExt, extAt, extensionReads, State.logged_nil]
  · simp only [fetchExt, Op.get_bind, Op.bind_of_ok (busRead_plain hp hc), Op.pure_run, extAt, extensionReads,
      List.append_nil]
    rfl
  · have hl : misaligned c .l = false := (misaligned_add (n := 0) rfl .l .l hc).2
    simp only [fetchExt, Op.get_bind, busRead_plain hp hl, extAt, extensionReads, List.append_nil]
    rfl

theorem extensionReads_append (g : Tag) (ns ms : List Nat) : ∀ c : Long, extensionReads g c (ns ++ ms) =
    extensionReads g c ns ++ extensionReads g (c + BitVec.ofNat 32 ns.sum) ms := by
  induction ns with
  | nil => intro c; simp [extensionReads]
  | cons n t ih =>
    intro c
    simp only [List.cons_append, extensionReads, ih, List.append_assoc, List.sum_cons, BitVec.ofNat_add,
      BitVec.add_assoc]

/-- The extension sizes of a row's instruction, as the fetch reads them. -/
theorem extensionReads_view {f : Form} (hl : f.legal = true) (w : Word) (imm x : Long) (g : Tag) (c : Long) :
    extensionReads g c (f.view w imm x).extSizes = extensionReads g c [f.immSize, f.eaSize] := by
  obtain ⟨h, sz, v⟩ := f
  have z : ∀ l, extensionReads g c (0 :: l) = extensionReads g c l := by simp [extensionReads]
  cases h <;> simp only [Form.view, View.extSizes, Form.immSize, Form.eaSize, EA.extSize, EA.variant_make, z]
  cases v <;> simp [Form.legal, Handler.legalModes] at hl
  simp [extensionReads, Variant.extSize]

theorem logged_logged (s : State) (xs ys : List Access) : (s.logged xs).logged ys = s.logged (xs ++ ys) := by
  simp [State.logged, State.setBus]

/-- On the reference bus at an even pc, fetching gives the instruction the bytes at the pc decode to, with its fetches on
the port, once the source register of a Dn,<ea> form is written. -/
theorem fetchInstr_plain {s : State} {i : Instr} {rest : List Byte} (hp : s.plainBus) (ha : misaligned s.pc .w = false)
    (hd : decodeBytes s.families s.bus.byteOrder (s.bus.bytesAt s.pc 10) = .ok (i, rest))
    (hr : ∀ n h sz ea, i.view = .toEa h sz n ea → (s.cell (.d n)).written = true) :
    fetchInstr s = .ok i (s.logged (i.fetches s)) := by
  simp only [decodeBytes, takeWord_bytesAt s.bus s.pc 8] at hd
  cases hl : lookup (dispatchTable s.families) (s.bus.peekWord s.pc) with
  | none => simp [hl] at hd
  | some f =>
    have hleg := (lookup_row hl).1
    obtain ⟨hi, he⟩ := Form.sizes f
    have d1 := takeExt_bytesAt s.bus (s.pc + 2) (8 - f.immSize) hi
    rw [show 8 - f.immSize + f.immSize = 8 by omega] at d1
    have d2 := takeExt_bytesAt s.bus (s.pc + 2 + BitVec.ofNat 32 f.immSize) (8 - f.immSize - f.eaSize) he
    rw [show 8 - f.immSize - f.eaSize + f.eaSize = 8 - f.immSize by omega] at d2
    simp only [hl, d1, d2] at hd
    cases has : f.assemble (s.bus.peekWord s.pc) (extAt s.bus (s.pc + 2) f.immSize)
        (extAt s.bus (s.pc + 2 + BitVec.ofNat 32 f.immSize) f.eaSize) with
    | none => simp only [has, reduceCtorEq] at hd
    | some j =>
      simp only [has, Except.ok.injEq, Prod.mk.injEq] at hd
      obtain ⟨rfl, -⟩ := hd
      have hv := view_of_assemble has
      have hsrc : (((sourceRegs f (s.bus.peekWord s.pc)).all fun r => (s.cell r).written)) = true := by
        obtain ⟨h, sz, v⟩ := f
        cases h <;> simp only [sourceRegs, List.all_nil, List.all_cons, Bool.and_true] <;> exact hr _ _ _ _ hv
      have c1 : misaligned (s.pc + 2) .w = false := (misaligned_add (n := 2) rfl .w .w ha).1
      have c2 : misaligned (s.pc + 2 + BitVec.ofNat 32 f.immSize) .w = false :=
        (misaligned_add (by omega) .w .w c1).1
      set s1 := s.logged [⟨.opcode, s.progTag, s.pc, .w, none⟩] with h1
      have p1 : s1.plainBus := hp
      set s2 := s1.logged (extensionReads s1.progTag (s.pc + 2) [f.immSize]) with h2
      have p2 : s2.plainBus := hp
      simp only [fetchInstr, Op.get_bind, Op.bind_of_ok (busRead_plain hp ha), Bus.peek, hl, ← h1]
      rw [Op.bind_of_ok (requireRegs_written (by simpa [h1, State.logged] using hsrc)),
        Op.bind_of_ok (fetchExt_plain p1 c1 hi), ← h2, Op.bind_of_ok (fetchExt_plain p2 c2 he)]
      have e1 : extAt s1.bus (s.pc + 2) f.immSize = extAt s.bus (s.pc + 2) f.immSize := rfl
      have e2 : extAt s2.bus (s.pc + 2 + BitVec.ofNat 32 f.immSize) f.eaSize =
        extAt s.bus (s.pc + 2 + BitVec.ofNat 32 f.immSize) f.eaSize := rfl
      simp only [e1, e2, has, Op.pure_run, EStateM.Result.ok.injEq, true_and]
      rw [h2, h1, logged_logged, logged_logged, Instr.fetches, hv, extensionReads_view hleg]
      simp only [List.cons_append, List.nil_append]
      congr 2
      have := extensionReads_append s.progTag [f.immSize] [f.eaSize] (s.pc + 2)
      simp only [List.singleton_append, List.sum_cons, List.sum_nil, Nat.add_zero] at this
      rw [this]; rfl

end Sys2Proof.Machine
end

