-- ==== Sys2Proof/Laws/Host.lean ====
section
/-! SUPPORT. What each host call can do (R292): one equation or one summary lemma for each transaction of the host port. -/

namespace Sys2Proof.Machine

@[simp] theorem answerHost_run (r : HostReply) (s : State) :
    answerHost r s = .ok () (s.setPort { s.port with reply := r }) := rfl

/-- A request changes one queue and outstanding, or is rejected. -/
theorem requestInterrupt_some {s t : State} {p : Nat} {v : Byte} (h : s.requestInterrupt p v = some t) :
    ∃ l : Level, p = l.val + 1 ∧ t = (s.setQueue l (s.queues[l] ++ [v])).setOutstanding true := by
  simp only [State.requestInterrupt, levelOf] at h
  by_cases hp : 1 ≤ p ∧ p ≤ 7
  · rw [dif_pos hp] at h
    exact ⟨⟨p - 1, by omega⟩, by simp only []; omega, (Option.some.inj h).symm⟩
  · rw [dif_neg hp] at h; simp at h

theorem requestInterrupt_level (s : State) (l : Level) (v : Byte) : s.requestInterrupt (l.val + 1) v =
    some ((s.setQueue l (s.queues[l] ++ [v])).setOutstanding true) := by
  have hl : levelOf (l.val + 1) = some l := by
    have : 1 ≤ l.val + 1 ∧ l.val + 1 ≤ 7 := by omega
    simp only [levelOf, dif_pos this]
    congr 1
  simp only [State.requestInterrupt, hl]

theorem requestInterrupt_none {s : State} {p : Nat} {v : Byte} (h : p < 1 ∨ 7 < p) : s.requestInterrupt p v = none := by
  have : ¬ (1 ≤ p ∧ p ≤ 7) := by omega
  simp only [State.requestInterrupt, levelOf, dif_neg this]

/-- A register read at the host port: Rejected for a byte of An, else the low bits, or the fault of an unwritten cell. -/
theorem hostGetRegister_eq (r : RegName) (sz : Size) (s : State) : hostGetRegister r sz s =
    if (∃ n, r = .a n) ∧ sz = .b then answerHost .rejected s
    else (readReg r >>= fun v => answerHost (.value ((v.setWidth sz.bits).setWidth 32))) s := by
  cases r <;> cases sz <;> simp [hostGetRegister]

theorem hostGetRegister_ok {r : RegName} {sz : Size} {s t : State} {u : Unit} (h : hostGetRegister r sz s = .ok u t) :
    ∃ p, t = s.setPort p := by
  rw [hostGetRegister_eq] at h
  split_ifs at h
  · cases h; exact ⟨_, rfl⟩
  · simp only [Op.bind_eq_ok, readReg_ok, answerHost_run, EStateM.Result.ok.injEq, true_and] at h
    obtain ⟨_, _, ⟨-, rfl⟩, rfl⟩ := h
    exact ⟨_, rfl⟩

theorem hostGetRegister_error {r : RegName} {sz : Size} {s t : State} {e : Stop}
    (h : hostGetRegister r sz s = .error e t) : ∃ f, e = .fault f := by
  rw [hostGetRegister_eq] at h
  split_ifs at h
  · simp at h
  · simp only [Op.bind_eq_error, readReg_error, answerHost_run, reduceCtorEq, and_false, exists_false, or_false] at h
    exact ⟨_, h.2.1⟩

/-- A register write at the host port changes that register's cell and the reply. -/
theorem hostSetRegister_ok {r : RegName} {sz : Size} {v : Long} {s t : State} {u : Unit}
    (h : hostSetRegister r sz v s = .ok u t) :
    ∃ p, t = s.setPort p ∨ (∃ n c, t = (s.setD n c).setPort p) ∨ ∃ n c, t = (s.setA n c).setPort p := by
  cases r with
  | d n =>
    simp only [hostSetRegister, Op.bind_eq_ok, answerHost_run, EStateM.Result.ok.injEq, true_and] at h
    obtain ⟨_, w, hw, rfl⟩ := h
    obtain ⟨-, rfl⟩ := writeD_ok.mp hw
    exact ⟨_, .inr (.inl ⟨_, _, rfl⟩)⟩
  | a n =>
    cases sz
    · cases h; exact ⟨_, .inl rfl⟩
    all_goals
      simp only [hostSetRegister, Op.bind_eq_ok, writeA_run, answerHost_run, EStateM.Result.ok.injEq, true_and] at h
      obtain ⟨_, _, rfl, rfl⟩ := h
      exact ⟨_, .inr (.inr ⟨_, _, rfl⟩)⟩

theorem hostSetRegister_error {r : RegName} {sz : Size} {v : Long} {s t : State} {e : Stop}
    (h : hostSetRegister r sz v s = .error e t) : ∃ f, e = .fault f := by
  cases r with
  | d n =>
    simp only [hostSetRegister, Op.bind_eq_error, answerHost_run, reduceCtorEq, and_false, exists_false, or_false] at h
    exact ⟨_, (writeD_error.mp h).2.2.1⟩
  | a n =>
    cases sz <;> simp [hostSetRegister, Op.bind_eq_error] at h

/-- A delivery attempt stops only with a fault. -/
theorem maybeDeliverInterrupt_error {s t : State} {e : Stop} (h : maybeDeliverInterrupt s = .error e t) :
    ∃ f, e = .fault f := by
  cases hd : s.deliverable with
  | none => rw [maybeDeliverInterrupt_none hd] at h; simp at h
  | some l =>
    obtain ⟨v, rest, hq⟩ := deliverable_queue hd
    rw [maybeDeliverInterrupt_some hd hq] at h
    exact takeException_error h

/-- No host call is refused: one that stops, stops with a fault. -/
theorem hostTransaction_error {c : HostCall} {s t : State} {e : Stop} (h : hostTransaction c s = .error e t) :
    ∃ f, e = .fault f := by
  cases c with
  | maybeDeliverInterrupt =>
    simp only [hostTransaction, Op.bind_eq_error, answerHost_run, reduceCtorEq, and_false, exists_false, or_false] at h
    exact maybeDeliverInterrupt_error h
  | requestInterrupt p v =>
    simp only [hostTransaction, Op.get_bind] at h
    cases hr : s.requestInterrupt p v <;> simp [hr] at h
  | getRegister x sz => exact hostGetRegister_error h
  | setRegister x sz v => exact hostSetRegister_error h
  | _ => simp [hostTransaction] at h

end Sys2Proof.Machine
end

