-- ==== Sys2Proof/Laws/PerInstr.lean ====
section
/-! SUPPORT. The statements made for every instruction, one lemma for each constructor. Family Length: the length in bytes
of an instruction is even, 2 to 10, and is what the encoder writes in either byte order (R90, R99). -/

namespace Sys2Proof

theorem ByteOrder.wordBytes_length (o : ByteOrder) (v : Word) : (o.wordBytes v).length = 2 := rfl

theorem ExtItem.bytes_length (o : ByteOrder) (x : ExtItem) : (x.bytes o).length = 2 * x.words.length := by
  cases x <;> rfl

theorem immItem_length (o : ByteOrder) (sz : Size) (v : BitVec sz.bits) :
    ((immItem sz v).bytes o).length = Variant.imm.extSize sz := by cases sz <;> rfl

/-- An operand's extension has the size R131 gives its variant. -/
theorem EA.items_length (o : ByteOrder) {sz : Size} (ea : EA sz) :
    (ea.items.flatMap (ExtItem.bytes o)).length = ea.extSize := by
  cases ea <;> first | rfl | (simp only [EA.items, List.flatMap_cons, List.flatMap_nil, List.append_nil, immItem_length]; rfl)

theorem Variant.extSize_range (sz : Size) (v : Variant) : v.extSize sz ≤ 4 ∧ v.extSize sz % 2 = 0 := by
  cases v <;> cases sz <;> decide

end Sys2Proof

namespace Sys2Proof.Laws.Length

def Statement (i : Instr) : Prop :=
  2 ≤ i.length ∧ i.length ≤ 10 ∧ i.length % 2 = 0 ∧ ∀ o : ByteOrder, (encodeBytes o i).length = i.length

/-- The statement for a shape with one `<ea>` operand and an immediate of `k` bytes. -/
theorem of_shape {i : Instr} {sz : Size} {ea : EA sz} {k : Nat} (hk : k ≤ 4 ∧ k % 2 = 0)
    (hl : i.length = 2 + k + ea.extSize) (he : ∀ o : ByteOrder, (encodeBytes o i).length =
      2 + k + (ea.items.flatMap (ExtItem.bytes o)).length) : Statement i := by
  have h := Variant.extSize_range sz ea.variant
  have hx : ea.extSize = ea.variant.extSize sz := rfl
  refine ⟨by omega, by omega, by omega, fun o => ?_⟩
  rw [he, hl, EA.items_length]

theorem of_ea {i : Instr} {sz : Size} {ea : EA sz} (hl : i.length = 2 + ea.extSize)
    (he : ∀ o : ByteOrder, encodeBytes o i = o.wordBytes i.view.opword ++ ea.items.flatMap (ExtItem.bytes o)) :
    Statement i :=
  of_shape (ea := ea) (k := 0) (by decide) hl fun o => by rw [he, List.length_append, ByteOrder.wordBytes_length]

theorem of_imm {i : Instr} {sz : Size} {ea : EA sz} {v : BitVec sz.bits}
    (hl : i.length = 2 + Variant.imm.extSize sz + ea.extSize)
    (he : ∀ o : ByteOrder, encodeBytes o i =
      o.wordBytes i.view.opword ++ ((immItem sz v).bytes o ++ ea.items.flatMap (ExtItem.bytes o))) : Statement i :=
  of_shape (ea := ea) (Variant.extSize_range sz .imm) hl fun o => by
    rw [he, List.length_append, List.length_append, ByteOrder.wordBytes_length, immItem_length, Nat.add_assoc]

theorem cmpB (ea : EA .b) (dn : Reg) : Statement (.cmpB ea dn) := of_ea (ea := ea) rfl fun _ => rfl
theorem cmpW (ea : EA .w) (dn : Reg) : Statement (.cmpW ea dn) := of_ea (ea := ea) rfl fun _ => rfl
theorem cmpL (ea : EA .l) (dn : Reg) : Statement (.cmpL ea dn) := of_ea (ea := ea) rfl fun _ => rfl
theorem cmpaW (ea : EA .w) (an : Reg) : Statement (.cmpaW ea an) := of_ea (ea := ea) rfl fun _ => rfl
theorem cmpaL (ea : EA .l) (an : Reg) : Statement (.cmpaL ea an) := of_ea (ea := ea) rfl fun _ => rfl
theorem cmpiB (v : Byte) (ea : EA .b) : Statement (.cmpiB v ea) := of_imm (sz := .b) (ea := ea) (v := v) rfl fun _ => rfl
theorem cmpiW (v : Word) (ea : EA .w) : Statement (.cmpiW v ea) := of_imm (sz := .w) (ea := ea) (v := v) rfl fun _ => rfl
theorem cmpiL (v : Long) (ea : EA .l) : Statement (.cmpiL v ea) := of_imm (sz := .l) (ea := ea) (v := v) rfl fun _ => rfl
theorem cmpmB (ay ax : Reg) : Statement (.cmpmB ay ax) := of_ea (ea := (.postInc ay : EA .b)) rfl fun _ => rfl
theorem cmpmW (ay ax : Reg) : Statement (.cmpmW ay ax) := of_ea (ea := (.postInc ay : EA .w)) rfl fun _ => rfl
theorem cmpmL (ay ax : Reg) : Statement (.cmpmL ay ax) := of_ea (ea := (.postInc ay : EA .l)) rfl fun _ => rfl
theorem andB (ea : EA .b) (dn : Reg) : Statement (.andB ea dn) := of_ea (ea := ea) rfl fun _ => rfl
theorem andW (ea : EA .w) (dn : Reg) : Statement (.andW ea dn) := of_ea (ea := ea) rfl fun _ => rfl
theorem andL (ea : EA .l) (dn : Reg) : Statement (.andL ea dn) := of_ea (ea := ea) rfl fun _ => rfl
theorem andToEaB (dn : Reg) (ea : EA .b) : Statement (.andToEaB dn ea) := of_ea (ea := ea) rfl fun _ => rfl
theorem andToEaW (dn : Reg) (ea : EA .w) : Statement (.andToEaW dn ea) := of_ea (ea := ea) rfl fun _ => rfl
theorem andToEaL (dn : Reg) (ea : EA .l) : Statement (.andToEaL dn ea) := of_ea (ea := ea) rfl fun _ => rfl
theorem orB (ea : EA .b) (dn : Reg) : Statement (.orB ea dn) := of_ea (ea := ea) rfl fun _ => rfl
theorem orW (ea : EA .w) (dn : Reg) : Statement (.orW ea dn) := of_ea (ea := ea) rfl fun _ => rfl
theorem orL (ea : EA .l) (dn : Reg) : Statement (.orL ea dn) := of_ea (ea := ea) rfl fun _ => rfl
theorem orToEaB (dn : Reg) (ea : EA .b) : Statement (.orToEaB dn ea) := of_ea (ea := ea) rfl fun _ => rfl
theorem orToEaW (dn : Reg) (ea : EA .w) : Statement (.orToEaW dn ea) := of_ea (ea := ea) rfl fun _ => rfl
theorem orToEaL (dn : Reg) (ea : EA .l) : Statement (.orToEaL dn ea) := of_ea (ea := ea) rfl fun _ => rfl
theorem eorB (dn : Reg) (ea : EA .b) : Statement (.eorB dn ea) := of_ea (ea := ea) rfl fun _ => rfl
theorem eorW (dn : Reg) (ea : EA .w) : Statement (.eorW dn ea) := of_ea (ea := ea) rfl fun _ => rfl
theorem eorL (dn : Reg) (ea : EA .l) : Statement (.eorL dn ea) := of_ea (ea := ea) rfl fun _ => rfl
theorem andiB (v : Byte) (ea : EA .b) : Statement (.andiB v ea) := of_imm (sz := .b) (ea := ea) (v := v) rfl fun _ => rfl
theorem andiW (v : Word) (ea : EA .w) : Statement (.andiW v ea) := of_imm (sz := .w) (ea := ea) (v := v) rfl fun _ => rfl
theorem andiL (v : Long) (ea : EA .l) : Statement (.andiL v ea) := of_imm (sz := .l) (ea := ea) (v := v) rfl fun _ => rfl
theorem oriB (v : Byte) (ea : EA .b) : Statement (.oriB v ea) := of_imm (sz := .b) (ea := ea) (v := v) rfl fun _ => rfl
theorem oriW (v : Word) (ea : EA .w) : Statement (.oriW v ea) := of_imm (sz := .w) (ea := ea) (v := v) rfl fun _ => rfl
theorem oriL (v : Long) (ea : EA .l) : Statement (.oriL v ea) := of_imm (sz := .l) (ea := ea) (v := v) rfl fun _ => rfl
theorem eoriB (v : Byte) (ea : EA .b) : Statement (.eoriB v ea) := of_imm (sz := .b) (ea := ea) (v := v) rfl fun _ => rfl
theorem eoriW (v : Word) (ea : EA .w) : Statement (.eoriW v ea) := of_imm (sz := .w) (ea := ea) (v := v) rfl fun _ => rfl
theorem eoriL (v : Long) (ea : EA .l) : Statement (.eoriL v ea) := of_imm (sz := .l) (ea := ea) (v := v) rfl fun _ => rfl

end Sys2Proof.Laws.Length
end

