-- ==== Sys2Proof/Laws/Stops.lean ====
section
/-! SUPPORT. How an operand stops (an unwritten register, a failing access), and that a handler stops as the first operand
that does (R172, R247). -/

namespace Sys2Proof.Machine

/-! ### One operand -/

/-- Resolve an operand and read it. -/
def readOperand {sz : Size} (ea : EA sz) (c : Long) : Op (BitVec sz.bits) := ea.resolve c >>= Loc.get

/-- The first unwritten register of an operand is its fault. -/
theorem readOperand_unwritten {sz : Size} {ea : EA sz} {c : Long} {s : State} {r : RegName}
    (hb : sz = .b → ea.variant ≠ .an) (h : ea.regs.find? (fun q => !(s.cell q).written) = some r) :
    readOperand ea c s = .error (.fault (.unwritten r)) s := by
  have first : ∀ (rs : List RegName), rs.find? (fun q => !(s.cell q).written) = some r →
      requireRegs rs s = .error (.fault (.unwritten r)) s := by
    intro rs
    induction rs with
    | nil => simp
    | cons q qs ih =>
      intro hq
      simp only [requireRegs]
      cases hc : s.cell q with
      | unwritten =>
        have : q = r := by simpa [hc, Cell.written] using hq
        exact Op.bind_of_error (readReg_error.mpr ⟨hc, by rw [this], rfl⟩)
      | val v =>
        rw [Op.bind_of_ok (readReg_ok.mpr ⟨hc, rfl⟩)]
        exact ih (by simpa [hc, Cell.written] using hq)
  unfold readOperand
  rw [EA.regs_eq ea s c, List.find?_append] at h
  cases ha : ea.addressRegs.find? (fun q => !(s.cell q).written) with
  | some q =>
    have : q = r := by simpa [ha] using h
    exact Op.bind_of_error (by unfold EA.resolve; exact Op.bind_of_error (first _ (this ▸ ha)))
  | none =>
    have hw : (ea.addressRegs.all fun q => (s.cell q).written) = true := by simpa [List.find?_eq_none] using ha
    rw [Op.bind_of_ok (EA.resolve_ok.mpr ⟨hw, rfl, rfl⟩)]
    have hr : (ea.loc s c).register.find? (fun q => !(s.cell q).written) = some r := by simpa [ha] using h
    cases hl : ea.loc s c with
    | dreg n =>
      have hn : s.cell (.d n) = .unwritten ∧ RegName.d n = r := by
        rw [hl] at hr; cases hc : s.cell (.d n) <;> simp_all [Loc.register, Cell.written]
      simp only [Loc.get]
      exact Op.bind_of_error (readReg_error.mpr ⟨hn.1, by rw [hn.2], rfl⟩)
    | areg n =>
      have hn : s.cell (.a n) = .unwritten ∧ RegName.a n = r := by
        rw [hl] at hr; cases hc : s.cell (.a n) <;> simp_all [Loc.register, Cell.written]
      have hz : sz ≠ .b := fun hz => hb hz (by cases ea <;> simp [EA.loc] at hl; rfl)
      simp only [Loc.get, if_neg hz]
      exact Op.bind_of_error (readReg_error.mpr ⟨hn.1, by rw [hn.2], rfl⟩)
    | mem a => simp [hl, Loc.register] at hr
    | prog a => simp [hl, Loc.register] at hr
    | imm v => simp [hl, Loc.register] at hr

/-- With the registers of its address written, reading an operand is reading its location. -/
theorem readOperand_loc {sz : Size} {ea : EA sz} {c : Long} {s : State}
    (hw : (ea.addressRegs.all fun q => (s.cell q).written) = true) : readOperand ea c s = (ea.loc s c).get s :=
  Op.bind_of_ok (EA.resolve_ok.mpr ⟨hw, rfl, rfl⟩)

/-- A register or an immediate answers without a bus access. -/
theorem readOperand_quiet {sz : Size} {ea : EA sz} {c : Long} {s : State} (hb : sz = .b → ea.variant ≠ .an)
    (hw : (ea.regs.all fun q => (s.cell q).written) = true) (hr : (ea.loc s c).reads s = []) :
    readOperand ea c s = .ok (ea.operand s c) s := by
  rw [EA.regs_eq ea s c, List.all_append, Bool.and_eq_true] at hw
  rw [readOperand_loc hw.1]
  cases hl : ea.loc s c with
  | dreg n =>
    have hn : (s.cell (.d n)).written = true := by simpa [hl, Loc.register] using hw.2
    simp only [Loc.get, Op.bind_of_ok (readReg_written hn), Op.pure_run, EA.operand, hl, Loc.contents]
  | areg n =>
    have hn : (s.cell (.a n)).written = true := by simpa [hl, Loc.register] using hw.2
    have hz : sz ≠ .b := fun hz => hb hz (by cases ea <;> simp [EA.loc] at hl; rfl)
    simp only [Loc.get, if_neg hz, Op.bind_of_ok (readReg_written hn), Op.pure_run, EA.operand, hl, Loc.contents]
  | mem a => simp [hl, Loc.reads] at hr
  | prog a => simp [hl, Loc.reads] at hr
  | imm v => simp only [Loc.get, Op.pure_run, EA.operand, hl, Loc.contents]

/-! ### Accesses the bus fails -/

/-- A bus read whose answer is a failure. -/
theorem busRead_fails {k : AccessKind} {g : Tag} {a : Long} {sz : Size} {s : State} (hm : misaligned a sz = false)
    (hf : s.bus.failsAt 0 = true) : ∃ t, busRead k g a sz s = .error (.fault (.busFault k g a sz)) t := by
  refine ⟨_, busRead_error.mpr (.inr ⟨hm, ?_, rfl, rfl⟩)⟩
  simp only [Bus.failsAt, Bus.readAnswer, Bus.answer] at *
  cases h : s.bus.answers with
  | nil => simp [h] at hf
  | cons x xs => cases x <;> simp_all [BusAnswer.fails]

/-- A bus write whose answer is a failure. -/
theorem busWrite_fails {k : AccessKind} {g : Tag} {a : Long} {sz : Size} {v : BitVec sz.bits} {s : State}
    (hm : misaligned a sz = false) (hf : s.bus.failsAt 0 = true) :
    ∃ t, busWrite k g a sz v s = .error (.fault (.busFault k g a sz)) t := by
  refine ⟨_, busWrite_error.mpr (.inr ⟨hm, ?_, rfl, rfl⟩)⟩
  simp only [Bus.failsAt, Bus.writeAnswer, Bus.answer] at *
  cases h : s.bus.answers with
  | nil => simp [h] at hf
  | cons x xs => cases x with
    | memory => simp_all [BusAnswer.fails]
    | device v => simp_all [BusAnswer.fails]
    | fail u => cases u <;> rfl

/-- A bus read whose answer is not a failure answers, and the next failure is one access nearer. -/
theorem busRead_passes {k : AccessKind} {g : Tag} {a : Long} {sz : Size} {s : State} {j : Nat} (hm : misaligned a sz = false)
    (hf : s.bus.failsAt (j + 1) = true) :
    ∃ v t, busRead k g a sz s = .ok v t ∧ Reads s t [⟨k, g, a, sz, none⟩] ∧ t.bus.failsAt j = true := by
  cases h : s.bus.answers with
  | nil => simp [Bus.failsAt, h] at hf
  | cons x xs =>
    have hx : x.fails = false ∧ (Bus.failsAt { s.bus with answers := xs } j) = true := by
      simp [Bus.failsAt, h] at hf ⊢
      exact ⟨hf.1.1, hf.1.2, hf.2⟩
    obtain ⟨v, hv⟩ : ∃ v, s.bus.readAnswer a sz = some v := by
      simp only [Bus.readAnswer, Bus.answer, h]
      cases x <;> simp_all [BusAnswer.fails]
    refine ⟨v, _, busRead_ok.mpr ⟨hm, hv, rfl⟩, rfl, ?_⟩
    simpa [Bus.failsAt, h, State.setBus] using hx.2

/-- An operand in data space whose read the bus fails. -/
theorem readOperand_fails {sz : Size} {ea : EA sz} {c a : Long} {s : State} (hr : ea.ready s c = true)
    (hl : ea.loc s c = .mem a) (hf : s.bus.failsAt 0 = true) :
    ∃ t, readOperand ea c s = .error (.fault (.busFault .operandRead s.dataTag a sz)) t := by
  obtain ⟨hw, ha, -⟩ := EA.ready_parts hr
  rw [readOperand_loc hw, hl]
  exact busRead_fails (by simpa [hl, Loc.aligned] using ha) hf

/-- An operand in data space whose read the bus does not fail. -/
theorem readOperand_passes {sz : Size} {ea : EA sz} {c a : Long} {s : State} {j : Nat} (hr : ea.ready s c = true)
    (hl : ea.loc s c = .mem a) (hf : s.bus.failsAt (j + 1) = true) :
    ∃ v t, readOperand ea c s = .ok v t ∧ Reads s t [⟨.operandRead, s.dataTag, a, sz, none⟩] ∧
      t.bus.failsAt j = true := by
  obtain ⟨hw, ha, -⟩ := EA.ready_parts hr
  rw [readOperand_loc hw, hl]
  exact busRead_passes (by simpa [hl, Loc.aligned] using ha) hf

/-! ### The handlers stop as their operands do -/

theorem compareHandler_source_stop {sz : Size} {src dst : EA sz} {s t : State} {e : Stop}
    (h : readOperand src (s.pc + 2) s = .error e t) : compareHandler sz src dst s = .error e t := by
  simp only [compareHandler, Op.get_bind]
  rcases Op.bind_eq_error.mp h with h | ⟨l, u, h1, h2⟩
  · exact Op.bind_of_error h
  · rw [Op.bind_of_ok h1]; exact Op.bind_of_error h2

theorem compareHandler_dest_stop {sz : Size} {src dst : EA sz} {s u t : State} {e : Stop} {x : BitVec sz.bits}
    (h1 : readOperand src (s.pc + 2) s = .ok x u)
    (h : readOperand dst (s.pc + 2 + BitVec.ofNat 32 src.extSize) u = .error e t) :
    compareHandler sz src dst s = .error e t := by
  simp only [compareHandler, Op.get_bind]
  obtain ⟨l, w, h1, h2⟩ := Op.bind_eq_ok.mp h1
  rw [Op.bind_of_ok h1, Op.bind_of_ok h2]
  rcases Op.bind_eq_error.mp h with h | ⟨l, u, h1, h2⟩
  · exact Op.bind_of_error h
  · rw [Op.bind_of_ok h1]; exact Op.bind_of_error h2

theorem logicalHandler_source_stop {op : LogicalOp} {sz : Size} {src dst : EA sz} {s t : State} {e : Stop}
    (h : readOperand src (s.pc + 2) s = .error e t) : logicalHandler op sz src dst s = .error e t := by
  simp only [logicalHandler, Op.get_bind]
  rcases Op.bind_eq_error.mp h with h | ⟨l, u, h1, h2⟩
  · exact Op.bind_of_error h
  · rw [Op.bind_of_ok h1]; exact Op.bind_of_error h2

theorem logicalHandler_dest_stop {op : LogicalOp} {sz : Size} {src dst : EA sz} {s u t : State} {e : Stop}
    {x : BitVec sz.bits} (h1 : readOperand src (s.pc + 2) s = .ok x u)
    (h : readOperand dst (s.pc + 2 + BitVec.ofNat 32 src.extSize) u = .error e t) :
    logicalHandler op sz src dst s = .error e t := by
  simp only [logicalHandler, Op.get_bind]
  obtain ⟨l, w, h1, h2⟩ := Op.bind_eq_ok.mp h1
  rw [Op.bind_of_ok h1, Op.bind_of_ok h2]
  rcases Op.bind_eq_error.mp h with h | ⟨l, u, h1, h2⟩
  · exact Op.bind_of_error h
  · rw [Op.bind_of_ok h1]; exact Op.bind_of_error h2

theorem logicalHandler_write_stop {op : LogicalOp} {sz : Size} {src dst : EA sz} {s u w t : State} {e : Stop}
    {x y : BitVec sz.bits} (h1 : readOperand src (s.pc + 2) s = .ok x u)
    (h2 : readOperand dst (s.pc + 2 + BitVec.ofNat 32 src.extSize) u = .ok y w)
    (h : (dst.loc u (s.pc + 2 + BitVec.ofNat 32 src.extSize)).put (op.apply y x) w = .error e t) :
    logicalHandler op sz src dst s = .error e t := by
  simp only [logicalHandler, Op.get_bind]
  obtain ⟨l, a, r1, g1⟩ := Op.bind_eq_ok.mp h1
  obtain ⟨m, b, r2, g2⟩ := Op.bind_eq_ok.mp h2
  obtain ⟨-, rfl, rfl⟩ := EA.resolve_ok.mp r2
  rw [Op.bind_of_ok r1, Op.bind_of_ok g1, Op.bind_of_ok r2, Op.bind_of_ok g2]
  exact Op.bind_of_error h

theorem compareAddressHandler_source_stop {sz : Size} {src : EA sz} {n : Reg} {s t : State} {e : Stop}
    (h : readOperand src (s.pc + 2) s = .error e t) : compareAddressHandler sz src n s = .error e t := by
  simp only [compareAddressHandler, Op.get_bind]
  rcases Op.bind_eq_error.mp h with h | ⟨l, u, h1, h2⟩
  · exact Op.bind_of_error h
  · rw [Op.bind_of_ok h1]; exact Op.bind_of_error h2

theorem compareAddressHandler_dest_stop {sz : Size} {src : EA sz} {n : Reg} {s u : State} {x : BitVec sz.bits}
    (h1 : readOperand src (s.pc + 2) s = .ok x u) (h : u.cell (.a n) = .unwritten) :
    compareAddressHandler sz src n s = .error (.fault (.unwritten (.a n))) u := by
  simp only [compareAddressHandler, Op.get_bind]
  obtain ⟨l, w, h1, h2⟩ := Op.bind_eq_ok.mp h1
  rw [Op.bind_of_ok h1, Op.bind_of_ok h2]
  exact Op.bind_of_error (readReg_error.mpr ⟨h, rfl, rfl⟩)
end Sys2Proof.Machine
end

