-- ==== Sys2Proof/Tests/Slice0.lean ====
section
/-! SUPPORT. Tests against the spec's own examples and vectors (95_test_vectors.md), the smoke tests of WellFormed, and for
every obligation with hypotheses a concrete state and operands that meet them. -/

namespace Sys2Proof.Tests

-- one thread for the kernel's evaluations
set_option Elab.async false

open Sys2Proof Machine

/-! ### Helpers -/

/-- Lay instruction words at the pc, big order. -/
def load (s : State) (ws : List Word) : State := s.setBus (s.bus.pokeBytes s.pc (ws.flatMap ByteOrder.big.wordBytes))

def dreg (s : State) (n : Reg) (v : Long) : State := s.setD n (.val v)
def areg (s : State) (n : Reg) (v : Long) : State := s.setA n (.val v)
def byteAt (s : State) (a : Long) (v : Byte) : State := s.setBus (s.bus.poke a .b v)
def wordAt (s : State) (a : Long) (v : Word) : State := s.setBus (s.bus.poke a .w v)
def longAt (s : State) (a : Long) (v : Long) : State := s.setBus (s.bus.poke a .l v)
def host (s : State) (cs : List HostCall) : State := s.setPort ⟨cs, .none⟩

/-- The step answers a state of which `p` holds. -/
def leaves (o : Host.Outcome State Fault Refusal) (p : State → Bool) : Bool :=
  match o with
  | .next t => p t
  | .fault _ => false
  | .refused _ => false

def faults (o : Host.Outcome State Fault Refusal) (f : Fault) : Bool :=
  match o with
  | .fault g => g == f
  | .next _ => false
  | .refused _ => false

/-- One step of the words at 0x1000 leaves this status word and pc, and `p` holds. -/
def runs (s : State) (ws : List Word) (sr : Word) (pc : Long) (p : State → Bool) : Bool :=
  leaves (step (load s ws)) fun t => t.sr.word == sr && t.pc == pc && p t

abbrev r0 : State := State.reset

def decodes (ws : List Word) (i : Instr) : Bool :=
  match decodeBytes Families.default .big (ws.flatMap ByteOrder.big.wordBytes) with
  | .ok (j, []) => j == i
  | .ok (_, _ :: _) => false
  | .error _ => false

/-! ### Well-formedness: an ill-formed term for each check -/

/-- R100: CMPI has no PC-relative destination. -/
theorem test_wf_illegal_mode : (Instr.cmpiB 1 (.pcDisp 4)).form.legal = false ∧
    (Instr.cmpiB 1 (.pcDisp 4)).wellFormed = false := by decide
/-- R111: no instruction writes through an immediate. -/
theorem test_wf_read_only_destination : (Instr.andiB 1 (.imm 4)).form.writable = false ∧
    (Instr.andiB 1 (.imm 4)).wellFormed = false := by decide
/-- R154: no byte read of an address register. -/
theorem test_wf_byte_address_register : (Instr.cmpB (.an 0) 0).form.sized = false ∧
    (Instr.cmpB (.an 0) 0).wellFormed = false := by decide
theorem test_wf_accepts : (Instr.cmpW (.an 0) 0).wellFormed = true ∧ (Instr.eorB 1 (.dn 2)).wellFormed = true := by decide
/-- R103: the table has 290 rows; a table with a row twice is refused, and so is one with a row no instruction has. -/
theorem test_table_rows : (dispatchTable Families.default).length = 290 := by decide +kernel
theorem test_startup_refuses_overlap :
    startup [(Form.mk .cmp .w .dn).entry, (Form.mk .cmp .w .dn).entry] = none := by decide
theorem test_startup_refuses_byte_address_register : startup [(Form.mk .cmp .b .an).entry] = none := by decide

/-! ### Decoding: words written out from R91-R97, one for each constructor -/

theorem test_decode_compare :
    -- 1011 000 000 000 001; 1011 010 001 001 001; 1011 011 010 111 100
    decodes [0xB001] (.cmpB (.dn 1) 0) ∧ decodes [0xB449] (.cmpW (.an 1) 2) ∧
    decodes [0xB6BC, 0x1234, 0x5678] (.cmpL (.imm 0x12345678) 3) ∧
    -- 1011 010 011 000 001; 1011 000 111 011 000
    decodes [0xB4C1] (.cmpaW (.dn 1) 2) ∧ decodes [0xB1D8] (.cmpaL (.postInc 0) 0) ∧
    -- 0000 1100 00 100 111; 0000 1100 01 101 001; 0000 1100 10 111 001
    decodes [0x0C27, 0x0001] (.cmpiB 1 (.preDec 7)) ∧ decodes [0x0C69, 0x0010, 0xFFFE] (.cmpiW 0x10 (.disp 1 0xFFFE)) ∧
    decodes [0x0CB9, 0x0000, 0x0001, 0x0000, 0x5000] (.cmpiL 1 (.absL 0x5000)) ∧
    -- 1011 xxx 1ss 001 yyy
    decodes [0xB10F] (.cmpmB 7 0) ∧ decodes [0xB348] (.cmpmW 0 1) ∧ decodes [0xB58A] (.cmpmL 2 2) := by decide +kernel

theorem test_decode_logical_register :
    -- 1100 nnn 0ss mmm rrr
    decodes [0xC03C, 0x000F] (.andB (.imm 0x0F) 0) ∧ decodes [0xC241] (.andW (.dn 1) 1) ∧
    decodes [0xC490] (.andL (.ind 0) 2) ∧
    -- 1100 nnn 1ss mmm rrr
    decodes [0xC127] (.andToEaB 0 (.preDec 7)) ∧ decodes [0xC159] (.andToEaW 0 (.postInc 1)) ∧
    decodes [0xC7B0, 0x10FC] (.andToEaL 3 (.index 0 ⟨false, 1, false, 0xFC⟩)) ∧
    -- 1000 nnn 0ss mmm rrr
    decodes [0x8410] (.orB (.ind 0) 2) ∧ decodes [0x827C, 0x8000] (.orW (.imm 0x8000) 1) ∧
    decodes [0x88B8, 0x8000] (.orL (.absW 0x8000) 4) ∧
    -- 1000 nnn 1ss mmm rrr
    decodes [0x8727] (.orToEaB 3 (.preDec 7)) ∧ decodes [0x856B, 0x0004] (.orToEaW 2 (.disp 3 4)) ∧
    decodes [0x87A2] (.orToEaL 3 (.preDec 2)) := by decide +kernel

theorem test_decode_logical_memory :
    -- 1011 nnn 1ss mmm rrr, mode not 001
    decodes [0xB302] (.eorB 1 (.dn 2)) ∧ decodes [0xB550] (.eorW 2 (.ind 0)) ∧
    decodes [0xBBB9, 0x0000, 0x7000] (.eorL 5 (.absL 0x7000)) ∧
    -- 0000 0010 ss mmm rrr
    decodes [0x0200, 0x000F] (.andiB 0x0F (.dn 0)) ∧ decodes [0x0250, 0x0000] (.andiW 0 (.ind 0)) ∧
    decodes [0x02B9, 0xFFFF, 0x0000, 0x0000, 0x5000] (.andiL 0xFFFF0000 (.absL 0x5000)) ∧
    -- 0000 0000 ss mmm rrr
    decodes [0x0038, 0x0001, 0x2000] (.oriB 1 (.absW 0x2000)) ∧ decodes [0x0041, 0x8000] (.oriW 0x8000 (.dn 1)) ∧
    decodes [0x0099, 0x0000, 0x0001] (.oriL 1 (.postInc 1)) ∧
    -- 0000 1010 ss mmm rrr
    decodes [0x0A28, 0x0080, 0x0001] (.eoriB 0x80 (.disp 0 1)) ∧ decodes [0x0A78, 0x0000, 0x2000] (.eoriW 0 (.absW 0x2000)) ∧
    decodes [0x0A82, 0xFFFF, 0xFFFF] (.eoriL 0xFFFFFFFF (.dn 2)) := by decide +kernel

/-- The two PC-relative modes, and an index word with D/A, W/L and the ignored bits 10:8 set (R95, R148, R149). -/
theorem test_decode_pc_modes : decodes [0xB07A, 0x0010] (.cmpW (.pcDisp 0x10) 0) ∧
    decodes [0xB07B, 0xAF80] (.cmpW (.pcIndex ⟨true, 2, true, 0x80⟩) 0) := by decide +kernel

/-- V-CMPI-1: the high byte of a byte immediate is ignored. -/
theorem test_decode_byte_immediate : decodes [0x0C00, 0x01FF] (.cmpiB 0xFF (.dn 0)) := by decide +kernel

/-- R62: the other byte order swaps the bytes of each word and the words of each long. -/
theorem test_decode_little : decodeBytes Families.default .little [0xB9, 0x0C, 0x01, 0x00, 0x00, 0x00, 0x00, 0x50, 0x00, 0x00]
    = .ok (.cmpiL 1 (.absL 0x5000), []) := by decide +kernel

/-- R99: the longest instruction as its words, by the encoder. -/
theorem test_encode : encode (.cmpiL 1 (.absL 0x5000)) = [0x0CB9, 0x0000, 0x0001, 0x0000, 0x5000] ∧
    encode (.andToEaL 3 (.index 0 ⟨false, 1, false, 0xFC⟩)) = [0xC7B0, 0x10FC] := by decide +kernel

/-! ### One step of each instruction, from the vectors of 95_test_vectors.md -/

/-- V-CMP-2 -/
theorem test_cmpB_overflow_borrow :
    runs (dreg (dreg r0 0 0x7F) 1 0xFF) [0xB001] 0x270B 0x1002 fun t => t.value (.d 0) == 0x7F := by decide +kernel
/-- V-CMP-10: the A7 byte step. -/
theorem test_cmpB_a7_step :
    runs (byteAt (areg (dreg r0 0 0x41) 7 0x8000) 0x8000 0x42) [0xB01F] 0x2709 0x1002
      fun t => t.value (.a 7) == 0x8002 := by decide +kernel
/-- V-CMP-9 -/
theorem test_cmpW_address_source :
    runs (areg (dreg r0 2 0xFFFF) 1 0x1FFFF) [0xB449] 0x2704 0x1002 fun t => t.value (.a 1) == 0x1FFFF := by
  decide +kernel
/-- V-CMP-12 -/
theorem test_cmpW_misaligned : faults (step (load (areg r0 0 0x3001) [0xB060]))
    (.misaligned .operandRead .supervisorData 0x2FFF .w) := by decide +kernel
/-- V-CMP-8 -/
theorem test_cmpL_immediate : runs (dreg r0 3 0x12345678) [0xB6BC, 0x1234, 0x5678] 0x2704 0x1006 fun _ => true := by
  decide +kernel
/-- V-CMP-13 -/
theorem test_cmpL_unwritten : faults (step (load (r0.setD 1 .unwritten) [0xB081])) (.unwritten (.d 1)) := by
  decide +kernel
/-- V-CMPA-2: the word is sign-extended. -/
theorem test_cmpaW_sign_extends : runs (areg r0 0 0x8000) [0xB0FC, 0x8000] 0x2701 0x1004 fun _ => true := by
  decide +kernel
/-- V-CMPA-5: the compare sees A0 before the increment. -/
theorem test_cmpaL_same_register :
    runs (longAt (areg r0 0 0x2000) 0x2000 0x2000) [0xB1D8] 0x2704 0x1002 fun t => t.value (.a 0) == 0x2004 := by
  decide +kernel
/-- V-CMPI-5 -/
theorem test_cmpiB_predecrement_a7 :
    runs (byteAt (areg r0 7 0x8000) 0x7FFE 1) [0x0C27, 0x0001] 0x2704 0x1004 fun t => t.value (.a 7) == 0x7FFE := by
  decide +kernel
/-- V-CMPI-4 -/
theorem test_cmpiW_displacement :
    runs (wordAt (areg r0 1 0x6002) 0x6000 0x10) [0x0C69, 0x0010, 0xFFFE] 0x2704 0x1006 fun _ => true := by decide +kernel
/-- V-CMPI-3: ten bytes. -/
theorem test_cmpiL_longest :
    runs r0 [0x0CB9, 0x0000, 0x0001, 0x0000, 0x5000] 0x2709 0x100A fun t => t.bus.peek 0x5000 .l == 0 := by decide +kernel
/-- V-CMPM-3: the registers step by 1 and by 2. -/
theorem test_cmpmB_steps :
    runs (byteAt (byteAt (areg (areg r0 7 0x8000) 0 0x2000) 0x8000 0x10) 0x2000 0x20) [0xB10F] 0x2700 0x1002
      fun t => t.value (.a 0) == 0x2001 && t.value (.a 7) == 0x8002 := by decide +kernel
/-- V-CMPM-1: destination minus source. -/
theorem test_cmpmW_direction :
    runs (wordAt (wordAt (areg (areg r0 0 0x1100) 1 0x1200) 0x1100 2) 0x1200 1) [0xB348] 0x2709 0x1002
      fun t => t.value (.a 0) == 0x1102 && t.value (.a 1) == 0x1202 := by decide +kernel
/-- V-CMPM-2: one register, both reads at its start, moved twice. -/
theorem test_cmpmL_same_register :
    runs (longAt (areg r0 2 0x3000) 0x3000 0xDEADBEEF) [0xB58A] 0x2704 0x1002 fun t => t.value (.a 2) == 0x3008 := by
  decide +kernel
/-- V-AND-1 -/
theorem test_andB_keeps_high :
    runs (dreg r0 0 0x123456FF) [0xC03C, 0x000F] 0x2700 0x1004 fun t => t.value (.d 0) == 0x1234560F := by decide +kernel
/-- V-AND-2 -/
theorem test_andW_self : runs (dreg r0 1 0x8000) [0xC241] 0x2708 0x1002 fun t => t.value (.d 1) == 0x8000 := by
  decide +kernel
/-- V-AND-3 -/
theorem test_andL_zero :
    runs (areg (dreg r0 2 0xFFFFFFFF) 0 0x4000) [0xC490] 0x2704 0x1002 fun t => t.value (.d 2) == 0 := by decide +kernel
/-- V-AND-4 -/
theorem test_andToEaB_predecrement_a7 :
    runs (byteAt (areg (dreg r0 0 0xF0) 7 0x8000) 0x7FFE 0xAB) [0xC127] 0x2708 0x1002
      fun t => t.value (.a 7) == 0x7FFE && t.bus.peek 0x7FFE .b == 0xA0 && t.bus.peek 0x7FFF .b == 0 := by decide +kernel
/-- V-AND-5 -/
theorem test_andToEaW_postincrement :
    runs (wordAt (areg (dreg r0 0 0xFFFF00FF) 1 0x4000) 0x4000 0x1234) [0xC159] 0x2700 0x1002
      fun t => t.value (.a 1) == 0x4002 && t.bus.peek 0x4000 .w == 0x34 := by decide +kernel
/-- V-AND-6: a word index, a negative displacement. -/
theorem test_andToEaL_indexed :
    runs (longAt (dreg (areg (dreg r0 3 0xFFFF) 0 0x5000) 1 0x10008) 0x5004 0x12345678) [0xC7B0, 0x10FC] 0x2700 0x1004
      fun t => t.bus.peek 0x5004 .l == 0x5678 := by decide +kernel
/-- The example of R213. -/
theorem test_orB_indirect :
    runs (byteAt (areg (dreg r0 2 1) 0 0x5000) 0x5000 0x80) [0x8410] 0x2708 0x1002 fun t => t.value (.d 2) == 0x81 := by
  decide +kernel
/-- V-OR-1 -/
theorem test_orW_immediate : runs (dreg r0 1 1) [0x827C, 0x8000] 0x2708 0x1004 fun t => t.value (.d 1) == 0x8001 := by
  decide +kernel
/-- V-OR-3: a short absolute address is sign-extended. -/
theorem test_orL_absolute_short :
    runs (longAt (dreg r0 4 1) 0xFFFF8000 0x80000000) [0x88B8, 0x8000] 0x2708 0x1004
      fun t => t.value (.d 4) == 0x80000001 := by decide +kernel
/-- P2 at 0x1006: the byte goes to A7 - 2, the pad byte is not written. -/
theorem test_orToEaB_pad_byte :
    runs (areg (dreg r0 3 0x5A) 7 0x8000) [0x8727] 0x2700 0x1002
      fun t => t.value (.a 7) == 0x7FFE && t.bus.peek 0x7FFE .w == 0x5A00 := by decide +kernel
/-- V-OR-4 -/
theorem test_orToEaW_displacement :
    runs (wordAt (areg (dreg r0 2 0xF0F) 3 0x2000) 0x2004 0xF000) [0x856B, 0x0004] 0x2708 0x1004
      fun t => t.bus.peek 0x2004 .w == 0xFF0F := by decide +kernel
/-- V-OR-5 -/
theorem test_orToEaL_predecrement :
    runs (longAt (areg (dreg r0 3 0xF00) 2 0x6004) 0x6000 0xF0) [0x87A2] 0x2700 0x1002
      fun t => t.value (.a 2) == 0x6000 && t.bus.peek 0x6000 .l == 0xFF0 := by decide +kernel
/-- V-EOR-2 -/
theorem test_eorB_register :
    runs (dreg (dreg r0 1 0xFF) 2 0x12345670) [0xB302] 0x2708 0x1002 fun t => t.value (.d 2) == 0x1234568F := by
  decide +kernel
/-- L1-1, the source's own end-to-end example. -/
theorem test_eorW_source_example :
    runs (wordAt (areg (dreg r0 2 0x10) 0 0x4000) 0x4000 0x10) [0xB550] 0x2704 0x1002
      fun t => t.bus.peek 0x4000 .w == 0 && t.bus.log == [⟨.opcode, .supervisorProgram, 0x1000, .w, none⟩,
        ⟨.operandRead, .supervisorData, 0x4000, .w, none⟩, ⟨.operandWrite, .supervisorData, 0x4000, .w, some 0⟩] := by
  decide +kernel
/-- V-EOR-4 -/
theorem test_eorL_absolute_long :
    runs (longAt (dreg r0 5 0x80000000) 0x7000 1) [0xBBB9, 0x0000, 0x7000] 0x2708 0x1006
      fun t => t.bus.peek 0x7000 .l == 0x80000001 := by decide +kernel
/-- V-ANDI-1 -/
theorem test_andiB_register :
    runs (dreg r0 0 0x123456F5) [0x0200, 0x000F] 0x2700 0x1004 fun t => t.value (.d 0) == 0x12345605 := by decide +kernel
/-- V-ANDI-2 -/
theorem test_andiW_zero :
    runs (wordAt (areg r0 0 0x4000) 0x4000 0xFFFF) [0x0250, 0x0000] 0x2704 0x1004
      fun t => t.bus.peek 0x4000 .w == 0 := by decide +kernel
/-- V-ANDI-3, and R301: five accesses. -/
theorem test_andiL_absolute_long :
    runs (longAt r0 0x5000 0x89ABCDEF) [0x02B9, 0xFFFF, 0x0000, 0x0000, 0x5000] 0x2708 0x100A
      fun t => t.bus.peek 0x5000 .l == 0x89AB0000 && t.bus.log.length == 5 := by decide +kernel
/-- P3 at 0x4000 -/
theorem test_oriB_absolute_short :
    runs r0 [0x0038, 0x0001, 0x2000] 0x2700 0x1006 fun t => t.bus.peek 0x2000 .b == 1 := by decide +kernel
/-- V-ORI-1 -/
theorem test_oriW_register : runs (dreg r0 1 1) [0x0041, 0x8000] 0x2708 0x1004 fun t => t.value (.d 1) == 0x8001 := by
  decide +kernel
/-- V-ORI-3 -/
theorem test_oriL_postincrement :
    runs (longAt (areg r0 1 0x4000) 0x4000 0x80000000) [0x0099, 0x0000, 0x0001] 0x2708 0x1006
      fun t => t.value (.a 1) == 0x4004 && t.bus.peek 0x4000 .l == 0x80000001 := by decide +kernel
/-- V-EORI-2 -/
theorem test_eoriB_displacement :
    runs (byteAt (areg r0 0 0x3000) 0x3001 0x80) [0x0A28, 0x0080, 0x0001] 0x2704 0x1006
      fun t => t.bus.peek 0x3001 .b == 0 := by decide +kernel
/-- V-EORI-3: the unchanged word is written. -/
theorem test_eoriW_writes :
    runs (wordAt r0 0x2000 0x7FFF) [0x0A78, 0x0000, 0x2000] 0x2700 0x1006
      fun t => t.bus.log.getLast? == some ⟨.operandWrite, .supervisorData, 0x2000, .w, some 0x7FFF⟩ := by decide +kernel
/-- V-EORI-1 -/
theorem test_eoriL_complement :
    runs (dreg r0 2 0xFFFF) [0x0A82, 0xFFFF, 0xFFFF] 0x2708 0x1006 fun t => t.value (.d 2) == 0xFFFF0000 := by
  decide +kernel

/-- V-CMP-11: PC-relative, from the address of the extension word, with the program tag (R70). -/
theorem test_pc_relative :
    runs (wordAt (dreg r0 0 0x1234) 0x1012 0x1234) [0xB07A, 0x0010] 0x2704 0x1004
      fun t => t.bus.log.getLast? == some ⟨.operandRead, .supervisorProgram, 0x1012, .w, none⟩ := by decide +kernel

/-! ### Decoder faults (V-DEC-1 to V-DEC-5) -/

theorem test_illegal_words :
    faults (step (load r0 [0x4E73])) (.illegal 0x1000 0x4E73) ∧ faults (step (load r0 [0x003C])) (.illegal 0x1000 0x003C) ∧
    faults (step (load r0 [0xB008])) (.illegal 0x1000 0xB008) ∧ faults (step (load r0 [0x7000])) (.illegal 0x1000 0x7000) := by
  decide +kernel
theorem test_odd_pc : faults (step (r0.setPC 0x1001)) (.misaligned .opcode .supervisorProgram 0x1001 .w) := by
  decide +kernel

/-! ### Interrupts (I-1 to I-10) -/

/-- The vector table and stack pointers of 60_exceptions.md's vectors. -/
def intBase (s : Bool) (i : BitVec 3) : State :=
  { longAt (longAt (longAt (longAt (longAt r0 0x108 0x4000) 0x28 0x4100) 0x78 0x4200) 0x7C 0x4300) 0x64 0x5000 with
    a := r0.a.set 7 (.val (if s then 0x8000 else 0x9000))
    shadowSP := .val (if s then 0x9000 else 0x8000)
    sr := { r0.sr with s := s, i := i } }

def requested (s : State) (qs : List (Level × Byte)) : State :=
  qs.foldl (fun t q => (t.setQueue q.1 (t.queues[q.1] ++ [q.2])).setOutstanding true) s

def attempt (s : State) (p : State → Bool) : Bool :=
  match maybeDeliverInterrupt s with
  | .ok _ t => p t
  | .error _ _ => false

def attemptFaults (s : State) (f : Fault) (p : State → Bool) : Bool :=
  match maybeDeliverInterrupt s with
  | .ok _ _ => false
  | .error e t => e == .fault f && p t

/-- I-1, L1-2 -/
theorem test_delivery_from_user :
    attempt (requested (intBase false 0) [(3, 66), (1, 10)]) fun t =>
      t.value (.a 7) == 0x7FFA && t.shadowSP == .val 0x9000 && t.sr.word == 0x2400 && t.pc == 0x4000 &&
      t.bus.peek 0x7FFA .w == 0 && t.bus.peek 0x7FFC .l == 0x1000 && t.queues[1] == [10] && t.outstanding := by
  decide +kernel
/-- I-2, I-4 -/
theorem test_masked_stays_pending :
    attempt (requested (intBase true 5) [(2, 30)]) (fun t => t == requested (intBase true 5) [(2, 30)]) ∧
    attempt (requested (intBase true 5) [(4, 30)]) (fun t => t == requested (intBase true 5) [(4, 30)]) := by decide +kernel
/-- I-3 -/
theorem test_level_seven :
    attempt (requested (intBase true 7) [(6, 25)]) fun t =>
      t.value (.a 7) == 0x7FFA && t.sr.word == 0x2700 && t.pc == 0x5000 && t.bus.peek 0x7FFA .w == 0x2700 &&
      t.bus.peek 0x7FFC .l == 0x1000 && !t.outstanding := by decide +kernel
/-- I-5 -/
theorem test_request_rejected :
    leaves (step (host r0 [.requestInterrupt 0 30])) (fun t => t == r0.setPort ⟨[], .rejected⟩) ∧
    leaves (step (host r0 [.requestInterrupt 8 30])) (fun t => t == r0.setPort ⟨[], .rejected⟩) := by decide +kernel
/-- I-6: first in, first out. -/
theorem test_fifo :
    attempt (requested (intBase true 0) [(2, 30), (2, 31)]) fun t =>
      t.sr.word == 0x2300 && t.pc == 0x4200 && t.queues[2] == [31] && t.outstanding && t.deliverable == none := by
  decide +kernel
/-- I-7: the highest level, not the oldest. -/
theorem test_highest_level :
    attempt (requested (intBase true 2) [(0, 30), (2, 31)]) fun t => t.pc == 0x4300 && t.queues[0] == [30] := by
  decide +kernel
/-- I-8 -/
theorem test_delivery_unwritten_ssp :
    attemptFaults (requested ((intBase true 0).setA 7 .unwritten) [(6, 25)]) (.unwritten (.a 7)) fun t =>
      t.queues[6] == [] && t.sr.word == 0x2700 && t.pc == 0x1000 && t.outstanding := by decide +kernel
/-- I-9 -/
theorem test_delivery_odd_ssp :
    attemptFaults (requested ((intBase true 0).setA 7 (.val 0x8001)) [(6, 25)])
      (.misaligned .framePush .supervisorData 0x7FFD .l) fun t =>
        t.value (.a 7) == 0x8001 && t.sr.word == 0x2700 && t.queues[6] == [] && t.outstanding := by decide +kernel
/-- I-10 -/
theorem test_delivery_from_supervisor :
    attempt (requested ((intBase true 3).setA 7 (.val 0x7000)) [(5, 66)]) fun t =>
      t.value (.a 7) == 0x6FFA && t.sr.word == 0x2600 && t.pc == 0x4000 && t.bus.peek 0x6FFA .w == 0x2300 &&
      t.shadowSP == .val 0x9000 := by decide +kernel
/-- P3, the first iteration of the loop: delivery, then the handler's first instruction. -/
theorem test_loop_delivers_then_runs :
    leaves (step (wordAt (wordAt (wordAt (requested (intBase false 0) [(3, 66), (1, 10)]) 0x4000 0x0038) 0x4002 1) 0x4004
      0x2000)) fun t => t.pc == 0x4006 && t.bus.peek 0x2000 .b == 1 && t.sr.word == 0x2400 := by decide +kernel

/-! ### The host port (H-1 to H-4, L1-7) -/

/-- H-1 -/
theorem test_set_status_to_user :
    leaves (step (host ((areg r0 7 0x8000).setShadow (.val 0x9000)) [.setStatus 0x0015])) fun t =>
      t.value (.a 7) == 0x9000 && t.shadowSP == .val 0x8000 && t.sr.word == 0x0015 := by decide +kernel
/-- H-2 -/
theorem test_set_status_mask :
    leaves (step (host r0 [.setStatus 0xFFFF])) fun t => t.sr.word == 0x271F && t.a == r0.a := by decide +kernel
/-- H-3, H-4 -/
theorem test_after_reset :
    leaves (step (host r0 [.reset 0x1000 0])) (fun t => t.sr.word == 0x2700 &&
      faults (step (t.setPort ⟨[.getRegister 15 .l], .none⟩)) (.unwritten (.a 7))) := by decide +kernel
/-- L1-7 -/
theorem test_narrow_register_write :
    leaves (step (host (dreg r0 3 0x12345678) [.setRegister 3 .b 0x1AB])) (fun t => t.value (.d 3) == 0x123456AB) ∧
    leaves (step (host r0 [.setRegister 9 .w 0x8000])) (fun t => t.value (.a 1) == 0xFFFF8000) ∧
    leaves (step (host r0 [.setRegister 9 .b 1])) (fun t => t == r0.setPort ⟨[], .rejected⟩) ∧
    faults (step (host (r0.setD 0 .unwritten) [.setRegister 0 .b 1])) (.unwritten (.d 0)) := by decide +kernel
/-- R265: the host's return gives back the interrupted context. -/
theorem test_resume :
    attempt (requested (intBase false 0) [(3, 66)]) fun t =>
      leaves ((t.setPort ⟨t.resumeCalls, .none⟩).runSteps 5) fun u =>
        u.sr == (intBase false 0).sr && u.pc == 0x1000 && u.a == (intBase false 0).a := by decide +kernel

/-! ### Memory -/

/-- R62: mixed widths. -/
theorem test_big_endian : (wordAt r0 0x2000 0xABCD).bus.peek 0x2000 .b = 0xAB ∧
    (longAt r0 0x2000 0x41424344).bus.peek 0x2002 .w = 0x4344 := by decide +kernel
/-- Writing what an unlisted address reads as removes the entry. -/
theorem test_canonical : (byteAt (byteAt r0 5 7) 5 0).bus.mem = [] := by decide +kernel
/-- R69: 24 address bits. -/
theorem test_address_bits :
    ({ (wordAt r0 0x2000 0xABCD).bus with addrBits := .bits24 } : Bus).peek 0xFF002000 .w = 0xABCD := by decide +kernel

/-! ### Witnesses: for every obligation with hypotheses, a state and operands that meet them -/

def succeeds {α : Type} (r : EStateM.Result Stop State α) : Bool :=
  match r with
  | .ok _ _ => true
  | .error _ _ => false

theorem completes_next {o : Host.Outcome State Fault Refusal} (h : completes o = true) : ∃ t, o = .next t := by
  cases o with
  | next t => exact ⟨t, rfl⟩
  | fault f => cases h
  | refused r => cases h

theorem succeeds_ok {r : EStateM.Result Stop State Unit} (h : succeeds r = true) : ∃ t, r = .ok () t := by
  cases r with
  | ok a t => exact ⟨t, rfl⟩
  | error e t => cases h

theorem succeeds_error {α : Type} {r : EStateM.Result Stop State α} (h : succeeds r = false) : ∃ e t, r = .error e t := by
  cases r with
  | ok a t => cases h
  | error e t => exact ⟨e, t, rfl⟩

def answered (s : State) (xs : List BusAnswer) : State := s.setBus { s.bus with answers := xs }

/-- The hypotheses of the completions of F1. -/
def okToReg (h : Handler) {sz : Size} (ea : EA sz) (rx : Reg) (i : Instr) (s : State) : Prop :=
  i.view = .toReg h sz ea rx ∧ i.wellFormed = true ∧ s.plainBus ∧ ea.ready s (s.pc + 2) = true ∧
    (s.cell (if h = .cmpa then .a rx else .d rx)).written = true

/-- The hypotheses of the completions of F2. -/
def okToEa (h : Handler) {sz : Size} (dn : Reg) (ea : EA sz) (i : Instr) (s : State) : Prop :=
  i.view = .toEa h sz dn ea ∧ h.logicalOp.isSome = true ∧ i.wellFormed = true ∧ s.plainBus ∧
    (s.cell (.d dn)).written = true ∧ ea.ready s (s.pc + 2) = true

/-- The hypotheses of the completions of F3. -/
def okImm (h : Handler) {sz : Size} (v : BitVec sz.bits) (ea : EA sz) (i : Instr) (s : State) : Prop :=
  i.view = .immToEa h sz v ea ∧ i.wellFormed = true ∧ s.plainBus ∧
    ea.ready s (s.pc + 2 + BitVec.ofNat 32 (Variant.imm.extSize sz)) = true

theorem test_witness_CmpCompletes :
    okToReg .cmp (.postInc 7 : EA .b) 7 (.cmpB (.postInc 7) 7) r0 ∧
    okToReg .cmp (.an 7 : EA .w) 0 (.cmpW (.an 7) 0) r0 ∧
    okToReg .cmp (.pcIndex ⟨true, 7, true, 0x80⟩ : EA .l) 7 (.cmpL (.pcIndex ⟨true, 7, true, 0x80⟩) 7) r0 := by
  refine ⟨⟨rfl, ?_, rfl, ?_, ?_⟩, ⟨rfl, ?_, rfl, ?_, ?_⟩, ⟨rfl, ?_, rfl, ?_, ?_⟩⟩ <;> decide

theorem test_witness_CmpaCompletes :
    okToReg .cmpa (.imm 0x8000 : EA .w) 7 (.cmpaW (.imm 0x8000) 7) r0 ∧
    okToReg .cmpa (.postInc 0 : EA .l) 0 (.cmpaL (.postInc 0) 0) r0 := by
  refine ⟨⟨rfl, ?_, rfl, ?_, ?_⟩, ⟨rfl, ?_, rfl, ?_, ?_⟩⟩ <;> decide

theorem test_witness_CmpiCompletes :
    okImm .cmpi (sz := .b) 0xFF (.preDec 7) (.cmpiB 0xFF (.preDec 7)) r0 ∧
    okImm .cmpi (sz := .w) 0x8000 (.absW 0x8000) (.cmpiW 0x8000 (.absW 0x8000)) r0 ∧
    okImm .cmpi (sz := .l) 0 (.absL 0xFFFFFFFE) (.cmpiL 0 (.absL 0xFFFFFFFE)) r0 := by
  refine ⟨⟨rfl, ?_, rfl, ?_⟩, ⟨rfl, ?_, rfl, ?_⟩, ⟨rfl, ?_, rfl, ?_⟩⟩ <;> decide

/-- An odd address at size b, one register, and A7. -/
theorem test_witness_CmpmCompletes :
    ((Instr.cmpmB 0 7).view = .postInc .b 0 7 ∧ (areg r0 0 0xFFFFFFFF).plainBus ∧
      (areg r0 0 0xFFFFFFFF).cell (.a 0) = .val 0xFFFFFFFF ∧ (areg r0 0 0xFFFFFFFF).cell (.a 7) = .val 0 ∧
      misaligned 0xFFFFFFFF .b = false ∧ misaligned 0 .b = false) ∧
    ((Instr.cmpmW 2 2).view = .postInc .w 2 2 ∧ r0.plainBus ∧ r0.cell (.a 2) = .val 0 ∧ misaligned 0 .w = false) ∧
    ((Instr.cmpmL 7 0).view = .postInc .l 7 0 ∧ r0.plainBus ∧ r0.cell (.a 7) = .val 0 ∧ r0.cell (.a 0) = .val 0 ∧
      misaligned 0 .l = false) := by
  refine ⟨⟨rfl, rfl, ?_⟩, ⟨rfl, rfl, ?_⟩, ⟨rfl, rfl, ?_⟩⟩ <;> decide

theorem test_witness_LogicalToRegisterCompletes :
    (okToReg .andToReg (.imm 0 : EA .b) 0 (.andB (.imm 0) 0) r0 ∧ okToReg .andToReg (.dn 7 : EA .w) 7 (.andW (.dn 7) 7) r0 ∧
      okToReg .andToReg (.ind 7 : EA .l) 0 (.andL (.ind 7) 0) r0 ∧ Handler.andToReg.logicalOp = some .and) ∧
    (okToReg .orToReg (.postInc 7 : EA .b) 0 (.orB (.postInc 7) 0) r0 ∧
      okToReg .orToReg (.pcDisp 0x8000 : EA .w) 7 (.orW (.pcDisp 0x8000) 7) r0 ∧
      okToReg .orToReg (.index 7 ⟨false, 0, false, 0x7E⟩ : EA .l) 1 (.orL (.index 7 ⟨false, 0, false, 0x7E⟩) 1) r0 ∧
      Handler.orToReg.logicalOp = some .or) := by
  refine ⟨⟨⟨rfl, ?_, rfl, ?_, ?_⟩, ⟨rfl, ?_, rfl, ?_, ?_⟩, ⟨rfl, ?_, rfl, ?_, ?_⟩, rfl⟩, ⟨rfl, ?_, rfl, ?_, ?_⟩,
    ⟨rfl, ?_, rfl, ?_, ?_⟩, ⟨rfl, ?_, rfl, ?_, ?_⟩, rfl⟩ <;> decide

theorem test_witness_LogicalToEaCompletes :
    (okToEa .andToEa 0 (.preDec 7 : EA .b) (.andToEaB 0 (.preDec 7)) r0 ∧
      okToEa .andToEa 7 (.postInc 0 : EA .w) (.andToEaW 7 (.postInc 0)) r0 ∧
      okToEa .andToEa 1 (.absL 0xFFFFFFFC : EA .l) (.andToEaL 1 (.absL 0xFFFFFFFC)) r0) ∧
    (okToEa .orToEa 0 (.absW 0x7FFF : EA .b) (.orToEaB 0 (.absW 0x7FFF)) r0 ∧
      okToEa .orToEa 7 (.disp 7 0x8000 : EA .w) (.orToEaW 7 (.disp 7 0x8000)) r0 ∧
      okToEa .orToEa 1 (.ind 1 : EA .l) (.orToEaL 1 (.ind 1)) r0) ∧
    (okToEa .eor 3 (.dn 3 : EA .b) (.eorB 3 (.dn 3)) r0 ∧ okToEa .eor 0 (.ind 0 : EA .w) (.eorW 0 (.ind 0)) r0 ∧
      okToEa .eor 7 (.index 0 ⟨true, 7, true, 0x80⟩ : EA .l) (.eorL 7 (.index 0 ⟨true, 7, true, 0x80⟩)) r0) := by
  refine ⟨⟨⟨rfl, ?_, ?_, rfl, ?_, ?_⟩, ⟨rfl, ?_, ?_, rfl, ?_, ?_⟩, ⟨rfl, ?_, ?_, rfl, ?_, ?_⟩⟩,
    ⟨⟨rfl, ?_, ?_, rfl, ?_, ?_⟩, ⟨rfl, ?_, ?_, rfl, ?_, ?_⟩, ⟨rfl, ?_, ?_, rfl, ?_, ?_⟩⟩,
    ⟨⟨rfl, ?_, ?_, rfl, ?_, ?_⟩, ⟨rfl, ?_, ?_, rfl, ?_, ?_⟩, ⟨rfl, ?_, ?_, rfl, ?_, ?_⟩⟩⟩ <;> decide

theorem test_witness_LogicalImmediateCompletes :
    (okImm .andi (sz := .b) 0 (.dn 0) (.andiB 0 (.dn 0)) r0 ∧ okImm .andi (sz := .w) 0xFFFF (.ind 7) (.andiW 0xFFFF (.ind 7)) r0 ∧
      okImm .andi (sz := .l) 1 (.absL 0) (.andiL 1 (.absL 0)) r0 ∧ Handler.andi.logicalOp = some .and) ∧
    (okImm .ori (sz := .b) 0xFF (.preDec 7) (.oriB 0xFF (.preDec 7)) r0 ∧ okImm .ori (sz := .w) 0 (.dn 7) (.oriW 0 (.dn 7)) r0 ∧
      okImm .ori (sz := .l) 1 (.postInc 7) (.oriL 1 (.postInc 7)) r0 ∧ Handler.ori.logicalOp = some .or) ∧
    (okImm .eori (sz := .b) 0x80 (.disp 0 0xFFFF) (.eoriB 0x80 (.disp 0 0xFFFF)) r0 ∧
      okImm .eori (sz := .w) 0 (.absW 0xFFFE) (.eoriW 0 (.absW 0xFFFE)) r0 ∧
      okImm .eori (sz := .l) 0xFFFFFFFF (.dn 2) (.eoriL 0xFFFFFFFF (.dn 2)) r0 ∧ Handler.eori.logicalOp = some .eor) := by
  refine ⟨⟨⟨rfl, ?_, rfl, ?_⟩, ⟨rfl, ?_, rfl, ?_⟩, ⟨rfl, ?_, rfl, ?_⟩, rfl⟩,
    ⟨⟨rfl, ?_, rfl, ?_⟩, ⟨rfl, ?_, rfl, ?_⟩, ⟨rfl, ?_, rfl, ?_⟩, rfl⟩,
    ⟨⟨rfl, ?_, rfl, ?_⟩, ⟨rfl, ?_, rfl, ?_⟩, ⟨rfl, ?_, rfl, ?_⟩, rfl⟩⟩ <;> decide

/-- The first and the last line of each clause, and words of the illegal lines. -/
theorem test_witness_LinesOfTheOpcodeMap :
    lookup (dispatchTable Families.default) 0x0000 = some ⟨.ori, .b, .dn⟩ ∧
    lookup (dispatchTable Families.default) 0x0CB9 = some ⟨.cmpi, .l, .absL⟩ ∧
    lookup (dispatchTable Families.default) 0x8000 = some ⟨.orToReg, .b, .dn⟩ ∧
    lookup (dispatchTable Families.default) 0xB000 = some ⟨.cmp, .b, .dn⟩ ∧
    lookup (dispatchTable Families.default) 0xCFB9 = some ⟨.andToEa, .l, .absL⟩ := by decide +kernel

theorem test_witness_LinesOfTheOpcodeMap_other :
    [0x1000#16, 0x7FFF#16, 0x9000#16, 0xD000#16, 0xFFFF#16].all (fun w => !misaligned (load r0 [w]).pc .w &&
      (load r0 [w]).bus.readAnswer (load r0 [w]).pc .w == some w &&
      !([0b0000#4, 0b1000#4, 0b1011#4, 0b1100#4].contains (w.extractLsb' 12 4))) = true := by decide +kernel

theorem test_witness_DecodeOfEncodeIsIdentity : (Instr.cmpiL 0xFFFFFFFF (.absL 0xFFFFFFFF)).wellFormed = true ∧
    (Instr.cmpmB 7 0).wellFormed = true := by decide

theorem test_witness_DecodedInstructionsAreWellFormed :
    decodeBytes Families.default .little [0x41, 0xC2, 9] = .ok (.andW (.dn 1) 1, [9]) := by decide +kernel

theorem test_witness_StepRunsTheDecodedInstruction :
    let s := load r0 [0xC241]
    s.atInstruction ∧ s.plainBus ∧ misaligned s.pc .w = false ∧
      decodeBytes s.families s.bus.byteOrder (s.bus.bytesAt s.pc 10) = .ok (.andW (.dn 1) 1, [0, 0, 0, 0, 0, 0, 0, 0]) := by
  refine ⟨⟨rfl, ?_⟩, rfl, ?_, ?_⟩ <;> decide +kernel

theorem attempt_ok {s : State} {p : State → Bool} (h : attempt s p = true) :
    ∃ t, maybeDeliverInterrupt s = .ok () t ∧ p t = true := by
  unfold attempt at h
  split at h
  · exact ⟨_, ‹_›, h⟩
  · cases h

theorem test_witness_StepDeliversThenRunsTheHandler :
    let s := wordAt (requested (intBase false 0) [(3, 66)]) 0x4000 0xC241
    s.port.calls = [] ∧ s.deliverable = some 3 ∧ ∃ t, maybeDeliverInterrupt s = .ok () t ∧
      decide (t.bus.answers = [] ∧ misaligned t.pc .w = false ∧ decodeBytes t.families t.bus.byteOrder
        (t.bus.bytesAt t.pc 10) = .ok (.andW (.dn 1) 1, [0, 0, 0, 0, 0, 0, 0, 0])) = true :=
  ⟨rfl, by decide +kernel, attempt_ok (by decide +kernel)⟩

theorem test_witness_IllegalWordFaults :
    let s := load r0 [0x003C]
    misaligned s.pc .w = false ∧ s.bus.readAnswer s.pc .w = some 0x003C ∧
      lookup (dispatchTable s.families) 0x003C = none := by decide +kernel

theorem test_witness_OddPcFaults : (r0.setPC 0xFFFFFFFF).pc.getLsbD 0 = true ∧ (r0.setPC 0xFFFFFFFF).atInstruction :=
  ⟨by decide, rfl, by decide⟩

theorem test_witness_StepKeepsInvariant : (load r0 [0xC159]).wf = true ∧ ∃ t, step (load r0 [0xC159]) = .next t :=
  ⟨by decide +kernel, completes_next (by decide +kernel)⟩

theorem test_witness_ConfigurationNeverChanges :
    ∃ t, step { load r0 [0xC159] with families := ⟨false, true⟩ } = .next t :=
  completes_next (by decide +kernel)

theorem test_witness_DataRegisterWrite : (r0.cell (.d 7)).written = true ∧ (Size.b ≠ .l) ∧
    (r0.setD 0 .unwritten).cell (.d 0) = .unwritten := by decide

theorem test_witness_HostAddressRegister : (8 : Fin 16).val = 8 + (0 : Reg).val ∧ (15 : Fin 16).val = 8 + (7 : Reg).val ∧
    (host r0 [.setRegister 8 .w 0x8000]).port.calls = [.setRegister 8 .w 0x8000] ∧
    (host r0 [.setRegister 15 .l 1]).port.calls = [.setRegister 15 .l 1] ∧
    (host r0 [.setRegister 15 .b 1]).port.calls = [.setRegister 15 .b 1] ∧
    (host r0 [.getRegister 8 .w]).port.calls = [.getRegister 8 .w] ∧
    (host r0 [.getRegister 15 .l]).port.calls = [.getRegister 15 .l] ∧ r0.cell (.a 0) = .val 0 ∧ r0.cell (.a 7) = .val 0 := by
  decide

theorem test_witness_HostDataRegisterRoundTrip : (7 : Fin 16).val = (7 : Reg).val ∧
    (host r0 [.setRegister 7 .b 0x1AB, .getRegister 7 .b]).port.calls = [.setRegister 7 .b 0x1AB, .getRegister 7 .b] ∧
    ((host r0 [.setRegister 7 .b 0x1AB, .getRegister 7 .b]).cell (.d 7)).written = true := by decide

/-- F1: the index register alone unwritten, a destination An, a destination Dn. -/
theorem test_witness_UnwrittenRegisterFaults_F1 :
    (let s := r0.setD 3 .unwritten;
      (Instr.cmpW (.index 0 ⟨false, 3, false, 0⟩) 1).view = .toReg .cmp .w (.index 0 ⟨false, 3, false, 0⟩) 1 ∧
      (Instr.cmpW (.index 0 ⟨false, 3, false, 0⟩) 1).wellFormed = true ∧
      (EA.index 0 ⟨false, 3, false, 0⟩ : EA .w).regs.find? (fun q => !(s.cell q).written) = some (.d 3)) ∧
    (let s := r0.setA 7 .unwritten;
      (Instr.cmpaL (.dn 0) 7).view = .toReg .cmpa .l (.dn 0) 7 ∧ (Instr.cmpaL (.dn 0) 7).wellFormed = true ∧ s.plainBus ∧
      (EA.dn 0 : EA .l).ready s (s.pc + 2) = true ∧ s.cell (.a 7) = .unwritten) ∧
    (let s := r0.setD 0 .unwritten;
      (Instr.orB (.imm 1) 0).view = .toReg .orToReg .b (.imm 1) 0 ∧ (Instr.orB (.imm 1) 0).wellFormed = true ∧ s.plainBus ∧
      (EA.imm 1 : EA .b).ready s (s.pc + 2) = true ∧ s.cell (.d 0) = .unwritten) :=
  ⟨⟨rfl, by decide, by decide⟩, ⟨rfl, by decide, rfl, by decide, by decide⟩, ⟨rfl, by decide, rfl, by decide, by decide⟩⟩

/-- F2: the source Dn, and a destination Dm; F3: a base; CMPM: Ay, and Ax with Ay at an odd byte. -/
theorem test_witness_UnwrittenRegisterFaults_others :
    (let s := r0.setD 7 .unwritten;
      (Instr.eorL 7 (.ind 0)).view = .toEa .eor .l 7 (.ind 0) ∧ (Instr.eorL 7 (.ind 0)).wellFormed = true ∧
      s.cell (.d 7) = .unwritten ∧
      (Instr.eorB 0 (.dn 7)).view = .toEa .eor .b 0 (.dn 7) ∧ (Instr.eorB 0 (.dn 7)).wellFormed = true ∧
      (s.cell (.d 0)).written = true ∧
      (EA.dn 7 : EA .b).regs.find? (fun q => !(s.cell q).written) = some (.d 7)) ∧
    (let s := r0.setA 0 .unwritten;
      (Instr.cmpiW 1 (.preDec 0)).view = .immToEa .cmpi .w 1 (.preDec 0) ∧ (Instr.cmpiW 1 (.preDec 0)).wellFormed = true ∧
      (EA.preDec 0 : EA .w).regs.find? (fun q => !(s.cell q).written) = some (.a 0)) ∧
    (let s := (r0.setA 0 .unwritten).setA 7 (.val 0xFFFFFFFF);
      (Instr.cmpmL 0 7).view = .postInc .l 0 7 ∧ s.cell (.a 0) = .unwritten ∧
      (Instr.cmpmB 7 0).view = .postInc .b 7 0 ∧ s.cell (.a 7) = .val 0xFFFFFFFF ∧ misaligned 0xFFFFFFFF .b = false ∧
      s.plainBus) :=
  ⟨⟨rfl, by decide, by decide, rfl, by decide, by decide, by decide⟩, ⟨rfl, by decide, by decide⟩,
    ⟨rfl, by decide, rfl, by decide, by decide, rfl⟩⟩

theorem test_witness_SetStatus : (host r0 [.setStatus 0]).port.calls = [.setStatus 0] ∧
    (host r0 [.setStatus 0xFFFF]).port.calls = [.setStatus 0xFFFF] ∧ ∃ t, exec (.andW (.dn 1) 1) r0 = .next t :=
  ⟨rfl, rfl, completes_next (by decide +kernel)⟩

theorem test_witness_EnterPrivileged : r0.sr.s = true ∧ r0.sr.s ≠ false ∧
    (r0.setSR { r0.sr with s := false }).sr.s = false ∧ (r0.setSR { r0.sr with s := false }).sr.s ≠ true := by decide

/-- Also at the top of the address space, where a word's second byte is the first of memory. -/
theorem test_witness_MemoryReadAfterWrite : r0.bus.wf = true ∧ (wordAt r0 0x2000 0xABCD).bus.wf = true ∧
    r0.bus.cell 0x2001 ∉ r0.bus.footprint 0x2000 .b ∧ r0.bus.cell 1 ∉ r0.bus.footprint 0xFFFFFFFF .w := by decide

theorem test_witness_BigEndianBytes : r0.bus.byteOrder = .big ∧ r0.bus.wf = true := by decide

theorem test_witness_AddressesDecodeModuloWidth :
    let b : Bus := { r0.bus with addrBits := .bits24 }
    (0xFF002000 : Long).toNat % 2 ^ b.addrBits.count = (0x2000 : Long).toNat % 2 ^ b.addrBits.count := by decide

theorem test_witness_MisalignedAccessFaults : (Size.w ≠ .b ∧ (0xFFFFFFFF : Long).toNat % 2 = 1) ∧
    (Size.l ≠ .b ∧ (1 : Long).toNat % 2 = 1) ∧ (Size.b = .b) ∧ (0xFFFFFFFE : Long).toNat % 2 = 0 := by decide

theorem test_witness_StackAlignedStep : r0.cell (.a 7) = .val 0 ∧ r0.cell (.a 0) = .val 0 := by decide

/-- An index An and an index Dn, A0 and A7, each written and not. -/
theorem test_witness_EffectiveAddresses : (r0.cell (.a 0)).written = true ∧ (r0.cell (.a 7)).written = true ∧
    (0xF800#16).getLsbD 15 = true ∧ (r0.cell (.a ((0xF800#16).extractLsb' 12 3).toFin)).written = true ∧
    (0x0000#16).getLsbD 15 = false ∧ (r0.cell (.d ((0x0000#16).extractLsb' 12 3).toFin)).written = true ∧
    (let s := (r0.setA 7 .unwritten).setD 0 .unwritten;
      s.cell (.a 7) = .unwritten ∧ s.cell (.a ((0xF800#16).extractLsb' 12 3).toFin) = .unwritten ∧
      s.cell (.d ((0x0000#16).extractLsb' 12 3).toFin) = .unwritten ∧ (s.cell (.a 0)).written = true) := by decide

theorem test_witness_PutThenGet : r0.plainBus ∧ r0.bus.wf = true ∧
    (∃ t, (Loc.dreg 7 : Loc .b).put 0xFF r0 = .ok () t) ∧ ∃ t, (Loc.mem 0xFFFFFFFE : Loc .l).put 1 r0 = .ok () t :=
  ⟨rfl, by decide, succeeds_ok (by decide), succeeds_ok (by decide)⟩

theorem test_witness_ArithmeticLaws : (0x80 : BitVec Size.b.bits) = 0x80 ∧ (0 : BitVec Size.b.bits) = 0 ∧
    (0x80 : BitVec Size.b.bits) ≠ 0 := by decide

theorem test_witness_CompareFrame : (Instr.cmpmW 0 0).form.handler.logicalOp = none ∧ ∃ t, exec (.cmpmW 0 0) r0 = .next t :=
  ⟨rfl, completes_next (by decide +kernel)⟩

/-- A form that stores, and a form that stores nothing. -/
theorem test_witness_LogicalFrame :
    (Instr.andToEaW 0 (.postInc 1)).form.handler.logicalOp ≠ none ∧ (∃ t, exec (.andToEaW 0 (.postInc 1)) r0 = .next t) ∧
    ((Instr.andToEaW 0 (.postInc 1)).view.dest r0).2 = .mem 0 ∧
    (Instr.oriL 1 (.dn 7)).form.handler.logicalOp ≠ none ∧ (∃ t, exec (.oriL 1 (.dn 7)) r0 = .next t) ∧
    ((Instr.oriL 1 (.dn 7)).view.dest r0).2 = .dreg 7 :=
  ⟨by decide, completes_next (by decide +kernel), rfl, by decide, completes_next (by decide +kernel), rfl⟩

theorem test_witness_PcAdvancesByLength : ∃ t, exec (.cmpiL 0 (.absL 0)) (r0.setPC 0xFFFFFFFE) = .next t :=
  completes_next (by decide +kernel)

theorem test_witness_AccessesOfAnInstruction :
    ∃ t, decodeAndExecute (load r0 [0x02B9, 0xFFFF, 0x0000, 0x0000, 0x5000]) = .next t :=
  completes_next (by decide +kernel)

theorem test_witness_ModesExecuteAlike : ∃ t, exec (.eorL 0 (.preDec 7)) r0 = .next t :=
  completes_next (by decide +kernel)

/-- An illegal word, an unwritten register in each family, and a write that fails and leaves other bytes. -/
theorem test_witness_FaultsArePrecise : (∃ e t, fetchInstr (load r0 [0x7000]) = .error e t) ∧
    (∃ e t, compareHandler .w (.dn 0) (.ind 1) (r0.setD 0 .unwritten) = .error e t) ∧
    (∃ e t, compareAddressHandler .w (.dn 0) 7 (r0.setA 7 .unwritten) = .error e t) ∧
    ∃ e t, logicalHandler .eor .w (.dn 0) (.postInc 1) (answered r0 [.memory, .fail (some 0xDEAD)]) = .error e t :=
  ⟨succeeds_error (by decide +kernel), succeeds_error (by decide), succeeds_error (by decide), succeeds_error (by decide)⟩

theorem test_witness_MisalignedOperandFaults :
    let s := areg r0 7 0xFFFFFFFF
    ((Instr.cmpW (.ind 7) 0).view = .toReg .cmp .w (.ind 7) 0 ∧ (EA.ind 7 : EA .w).loc s (s.pc + 2) = .mem 0xFFFFFFFF) ∧
    ((Instr.cmpL (.pcDisp 1) 0).view = .toReg .cmp .l (.pcDisp 1) 0 ∧ (EA.pcDisp 1 : EA .l).loc s (s.pc + 2) = .prog 0x1003) ∧
    ((Instr.eorW 0 (.postInc 7)).view = .toEa .eor .w 0 (.postInc 7) ∧ (s.cell (.d 0)).written = true ∧
      (EA.postInc 7 : EA .w).loc s (s.pc + 2) = .mem 0xFFFFFFFF) ∧
    ((Instr.oriL 0 (.absW 1)).view = .immToEa .ori .l 0 (.absW 1) ∧ (EA.absW 1 : EA .l).loc s (s.pc + 2 + 4) = .mem 1) ∧
    ((Instr.cmpmW 7 0).view = .postInc .w 7 0 ∧ s.cell (.a 7) = .val 0xFFFFFFFF ∧ s.cell (.a 0) = .val 0) ∧
    ((Instr.cmpmW 0 7).view = .postInc .w 0 7 ∧ misaligned 0 .w = false ∧ s.plainBus) ∧
    misaligned 0xFFFFFFFF .w = true ∧ misaligned 0x1003 .l = true ∧ misaligned 1 .l = true ∧
    ((EA.ind 7 : EA .w).regs.all fun r => (s.cell r).written) = true ∧
    ((EA.postInc 7 : EA .w).regs.all fun r => (s.cell r).written) = true :=
  ⟨⟨rfl, by decide⟩, ⟨rfl, by decide⟩, ⟨rfl, by decide, by decide⟩, ⟨rfl, by decide⟩, ⟨rfl, by decide, by decide⟩,
    ⟨rfl, by decide, rfl⟩, by decide, by decide, by decide, by decide, by decide⟩

/-- The opcode fetch; an immediate, an absolute address alone, and one after an immediate. -/
theorem test_witness_BusFailuresFault_fetches :
    (misaligned r0.pc .w = false ∧ (answered r0 [.fail none]).bus.failsAt 0 = true) ∧
    (let s := answered (load r0 [0x02B9]) [.memory, .fail none];
      misaligned s.pc .w = false ∧ s.bus.readAnswer s.pc .w = some 0x02B9 ∧
      lookup (dispatchTable s.families) 0x02B9 = some ⟨.andi, .l, .absL⟩ ∧
      ((sourceRegs ⟨.andi, .l, .absL⟩ 0x02B9).all fun r => (s.cell r).written) = true ∧
      (Form.mk .andi .l .absL).immSize ≠ 0 ∧ s.bus.failsAt 1 = true ∧ (Form.mk .andi .l .absL).eaSize ≠ 0 ∧
      (answered s [.device 0x02B9, .memory, .fail (some 1)]).bus.failsAt 2 = true) ∧
    (let s := answered (load r0 [0xBBB9]) [.memory, .fail none];
      misaligned s.pc .w = false ∧ s.bus.readAnswer s.pc .w = some 0xBBB9 ∧
      lookup (dispatchTable s.families) 0xBBB9 = some ⟨.eor, .l, .absL⟩ ∧
      ((sourceRegs ⟨.eor, .l, .absL⟩ 0xBBB9).all fun r => (s.cell r).written) = true ∧
      (Form.mk .eor .l .absL).immSize = 0 ∧ (Form.mk .eor .l .absL).eaSize ≠ 0 ∧ s.bus.failsAt 1 = true) := by
  decide +kernel

/-- F1 from data and from program space; the read and the write of F2 and of F3; CMPI; both reads of CMPM. -/
theorem test_witness_BusFailuresFault_operands :
    let s := answered r0 [.fail (some 1)]
    let t := answered r0 [.memory, .fail none]
    s.bus.failsAt 0 = true ∧ t.bus.failsAt 1 = true ∧ (s.cell (.d 0)).written = true ∧ (t.cell (.d 0)).written = true ∧
    (EA.ind 0 : EA .b).ready s (s.pc + 2) = true ∧ (EA.ind 0 : EA .b).loc s (s.pc + 2) = .mem 0 ∧
    (EA.ind 0 : EA .b).ready t (t.pc + 2) = true ∧ (EA.ind 0 : EA .b).loc t (t.pc + 2) = .mem 0 ∧
    (EA.pcDisp 0 : EA .b).ready s (s.pc + 2) = true ∧ (EA.pcDisp 0 : EA .b).loc s (s.pc + 2) = .prog 0x1002 ∧
    (Instr.cmpB (.ind 0) 0).view = .toReg .cmp .b (.ind 0) 0 ∧ (Instr.cmpB (.pcDisp 0) 0).view = .toReg .cmp .b (.pcDisp 0) 0 ∧
    (Instr.eorB 0 (.ind 0)).view = .toEa .eor .b 0 (.ind 0) ∧
    (let c (s : State) := s.pc + 2 + BitVec.ofNat 32 (Variant.imm.extSize .l);
      (EA.absL 4 : EA .l).ready s (c s) = true ∧ (EA.absL 4 : EA .l).loc s (c s) = .mem 4 ∧
      (EA.absL 4 : EA .l).ready t (c t) = true ∧ (EA.absL 4 : EA .l).loc t (c t) = .mem 4 ∧
      (Instr.cmpiL 0 (.absL 4)).view = .immToEa .cmpi .l 0 (.absL 4) ∧
      (Instr.oriL 0 (.absL 4)).view = .immToEa .ori .l 0 (.absL 4) ∧ Handler.ori.logicalOp ≠ none) ∧
    (Instr.cmpmW 0 7).view = .postInc .w 0 7 ∧ s.cell (.a 0) = .val 0 ∧ s.cell (.a 7) = .val 0 ∧
    t.cell (.a 0) = .val 0 ∧ t.cell (.a 7) = .val 0 ∧ misaligned 0 .w = false := by decide

/-- Priorities 1, 7, 0 and 8. -/
theorem test_witness_RequestEnqueues :
    (host r0 [.requestInterrupt 1 255]).port.calls = [.requestInterrupt 1 255] ∧ 1 = (0 : Level).val + 1 ∧
    (host r0 [.requestInterrupt 7 0]).port.calls = [.requestInterrupt 7 0] ∧ 7 = (6 : Level).val + 1 ∧
    (host r0 [.requestInterrupt 0 0]).port.calls = [.requestInterrupt 0 0] ∧ (0 < 1 ∨ 7 < 0) ∧
    (host r0 [.requestInterrupt 8 0]).port.calls = [.requestInterrupt 8 0] ∧ (8 < 1 ∨ 7 < 8) := by decide

theorem test_witness_RejectedCallsChangeNothing :
    (host r0 [.requestInterrupt 0 0]).port.calls = [.requestInterrupt 0 0] ∧
    (host r0 [.requestInterrupt 8 0]).port.calls = [.requestInterrupt 8 0] ∧
    (host r0 [.setRegister 8 .b 1]).port.calls = [.setRegister 8 .b 1] ∧ 8 ≤ (8 : Fin 16).val ∧
    (host r0 [.setRegister 15 .b 1]).port.calls = [.setRegister 15 .b 1] ∧ 8 ≤ (15 : Fin 16).val := by decide

/-- A queued level that the mask holds back. -/
theorem test_witness_ArbiterSelectsHighest : (requested r0 [(0, 1)]).deliverable = none ∧
    (requested r0 [(0, 1)]).queues[(0 : Level)] ≠ [] := by decide

theorem test_witness_AcceptanceAgainstTheMask : (intBase true 0).sr.i = 0 ∧ r0.sr.i = 7 ∧
    (requested r0 [(6, 1)]).deliverable = some 6 ∧ (requested r0 [(6, 1)]).queues[(6 : Level)] ≠ [] := by decide

/-- Empty queues; levels 1 and 6 at mask 7, and level 3 at mask 3. -/
theorem test_witness_NoEligibleInterruptChangesNothing :
    ∀ s ∈ [r0, requested r0 [(0, 1), (5, 1)], requested (r0.setSR { r0.sr with i := 3 }) [(2, 1)]],
      ∀ k : Level, s.queues[k] ≠ [] → k.val + 1 ≠ 7 ∧ k.val + 1 ≤ s.sr.i.toNat := by decide

/-- From user mode, and from supervisor mode, with two vectors queued. -/
theorem test_witness_DeliverySequence :
    ∀ b : Bool, let s := requested (intBase b 0) [(2, 30), (2, 31)]
      s.deliverable = some 2 ∧ s.queues[(2 : Level)] = [30, 31] ∧ s.plainBus ∧
        s.ssp = .val 0x8000 ∧ misaligned 0x8000 .l = false := by
  intro b; cases b <;> refine ⟨?_, ?_, rfl, ?_, ?_⟩ <;> decide +kernel

theorem test_witness_InterruptFrame :
    let s := requested (intBase false 0) [(6, 25)]
    s.deliverable = some 6 ∧ s.plainBus ∧ s.bus.wf = true ∧ s.ssp = .val 0x8000 ∧
      ∃ t, maybeDeliverInterrupt s = .ok () t :=
  ⟨by decide +kernel, rfl, by decide +kernel, by decide +kernel, succeeds_ok (by decide +kernel)⟩

theorem test_witness_DeliveryFaults :
    (let s := requested ((intBase true 0).setA 7 .unwritten) [(6, 25)];
      s.deliverable = some 6 ∧ s.queues[(6 : Level)] = [25] ∧ s.ssp = .unwritten) ∧
    (let s := requested ((intBase true 0).setA 7 (.val 0x8001)) [(6, 25)];
      s.deliverable = some 6 ∧ s.queues[(6 : Level)] = [25] ∧ s.ssp = .val 0x8001 ∧ misaligned 0x8001 .l = true) ∧
    ∀ as ∈ [[BusAnswer.fail (some 7)], [.memory, .fail none], [.memory, .memory, .fail none]],
      let s := answered (requested (intBase false 0) [(0, 25)]) as
      s.deliverable = some 0 ∧ s.queues[(0 : Level)] = [25] ∧ s.ssp = .val 0x8000 ∧ misaligned 0x8000 .l = false ∧
        s.bus.answers = as := by decide +kernel

/-- D39: the second push fails and leaves its own bytes changed; the first stands, A7 and pc are as they were. -/
theorem test_delivery_second_push_fails :
    attemptFaults (answered (requested (intBase false 0) [(0, 25)]) [.memory, .fail (some 0xBEEF)])
      (.busFault .framePush .supervisorData 0x7FFA .w) fun t => t.value (.a 7) == 0x8000 && t.shadowSP == .val 0x9000 &&
        t.pc == 0x1000 && t.sr.word == 0x2100 && t.bus.peek 0x7FFC .l == 0x1000 && t.queues[0] == [] := by decide +kernel

theorem test_witness_DeliverThenResumeRestoresContext :
    ∀ b : Bool, let s := requested (intBase b 6) [(6, 25)]
      s.deliverable = some 6 ∧ s.plainBus ∧ s.bus.wf = true ∧ s.ssp = .val 0x8000 ∧
        ∃ t, maybeDeliverInterrupt s = .ok () t := by
  intro b; cases b <;>
    exact ⟨by decide +kernel, rfl, by decide +kernel, by decide +kernel, succeeds_ok (by decide +kernel)⟩

theorem test_witness_ResetTransaction : (host (requested (intBase false 3) [(0, 1)]) [.reset 0xFFFFFFFE 31]).port.calls =
    [.reset 0xFFFFFFFE 31] := rfl

theorem test_witness_HostPortStatusAndPc : (host r0 [.getStatus]).port.calls = [.getStatus] ∧
    (host r0 [.getPc]).port.calls = [.getPc] ∧ (host r0 [.setPc 0xFFFFFFFF]).port.calls = [.setPc 0xFFFFFFFF] := by decide

end Sys2Proof.Tests
end

section
/-! SUPPORT. What every transaction keeps (R8, R39, R43, R62, R69, R268): the configuration as it is, memory in its
canonical form, and the flag `outstanding` in agreement with the queues. One lemma for each operation, up to the step. -/

namespace Sys2Proof.Machine

/-! ### The bus -/

/-- From `b` to `c` the parameters are as they were, and a memory in canonical form is still in it. -/
structure BusKept (b c : Bus) : Prop where
  addrBits : c.addrBits = b.addrBits
  byteOrder : c.byteOrder = b.byteOrder
  wf : b.wf = true → c.wf = true

theorem BusKept.refl (b : Bus) : BusKept b b := ⟨rfl, rfl, id⟩

theorem BusKept.trans {a b c : Bus} (h : BusKept a b) (g : BusKept b c) : BusKept a c :=
  ⟨g.addrBits.trans h.addrBits, g.byteOrder.trans h.byteOrder, g.wf ∘ h.wf⟩

theorem BusKept.poke (b : Bus) (a : Long) (sz : Size) (v : BitVec sz.bits) : BusKept b (b.poke a sz v) :=
  ⟨by simp, by simp, Bus.wf_poke a sz v⟩

theorem BusKept.issue (b : Bus) (x : Access) : BusKept b (b.issue x) := ⟨rfl, rfl, id⟩

/-- Whatever the bus answers to a write. -/
theorem BusKept.writeAnswer (b : Bus) (a : Long) (sz : Size) (v : BitVec sz.bits) :
    BusKept b (b.writeAnswer a sz v).1 := by
  unfold Bus.writeAnswer
  split
  · exact .poke b a sz v
  · exact .refl b
  · exact .refl b
  · exact .poke b a sz _

/-- A write on the port: what the bus makes of it, and the access in the log. -/
theorem BusKept.write (b : Bus) (a : Long) (sz : Size) (v : BitVec sz.bits) (x : Access) :
    BusKept b ((b.writeAnswer a sz v).1.issue x) :=
  (BusKept.writeAnswer b a sz v).trans (.issue _ x)

theorem Reads.busKept {s t : State} {xs : List Access} (h : Reads s t xs) : BusKept s.bus t.bus := by
  obtain ⟨-, -, -, -, -, -, -, -, -, hm, ha, ho⟩ := h.fields
  exact ⟨ha, ho, by simp only [Bus.wf, hm, ha, imp_self]⟩

/-! ### What an instruction leaves alone (R173, R190, R210) -/

/-- From `s` to `t` nothing has changed but registers D0-D7 and A0-A7, the pc, the flags other than X, and the bus. -/
structure InstrFrame (s t : State) : Prop where
  shadowSP : t.shadowSP = s.shadowSP
  mode : t.sr.s = s.sr.s
  mask : t.sr.i = s.sr.i
  extend : t.sr.x = s.sr.x
  queues : t.queues = s.queues
  outstanding : t.outstanding = s.outstanding
  families : t.families = s.families
  port : t.port = s.port
  bus : BusKept s.bus t.bus

/-- The reads of the operands, the flags of a compare, both `finish`es and the next pc. -/
theorem compareHandler_frame {sz : Size} {src dst : EA sz} {s t : State} {u : Unit}
    (h : compareHandler sz src dst s = .ok u t) : InstrFrame s t := by
  obtain ⟨x, y, r, R, rfl⟩ := compareHandler_ok h
  have hb := R.busKept
  constructor <;> simp [EA.finished_fields, R.fields, hb]

theorem compareAddressHandler_frame {sz : Size} {src : EA sz} {n : Reg} {s t : State} {u : Unit}
    (h : compareAddressHandler sz src n s = .ok u t) : InstrFrame s t := by
  obtain ⟨x, r, R, rfl⟩ := compareAddressHandler_ok h
  have hb := R.busKept
  constructor <;> simp [EA.finished_fields, R.fields, hb]

theorem Stores.busKept {sz : Size} {l : Loc sz} {v : BitVec sz.bits} {r w : State} (h : Stores l v r w) :
    BusKept r.bus w.bus := by
  rcases h with ⟨n, -, rfl⟩ | ⟨a, -, -, -, rfl⟩
  · exact .refl _
  · exact .write _ _ _ _ _

theorem logicalHandler_frame {op : LogicalOp} {sz : Size} {src dst : EA sz} {s t : State} {u : Unit}
    (h : logicalHandler op sz src dst s = .ok u t) : InstrFrame s t := by
  obtain ⟨x, y, r, w, R, S, rfl⟩ := logicalHandler_ok h
  have hb := R.busKept.trans S.busKept
  constructor <;> simp [EA.finished_fields, S.fields, R.fields, hb]

/-- F1 runs a logical operation, CMPA's compare, or the compare of a data register. -/
theorem runView_toReg (h : Handler) {sz : Size} (ea : EA sz) (rx : Reg) :
    (h ≠ .cmpa ∧ ∃ op, runView (.toReg h sz ea rx) = logicalHandler op sz ea (.dn rx)) ∨
    (h = .cmpa ∧ runView (.toReg h sz ea rx) = compareAddressHandler sz ea rx) ∨
    (h ≠ .cmpa ∧ runView (.toReg h sz ea rx) = compareHandler sz ea (.dn rx)) := by
  cases hop : h.logicalOp with
  | some op =>
    have hc : h ≠ .cmpa := by rintro rfl; simp [Handler.logicalOp] at hop
    exact .inl ⟨hc, op, by simp only [runView, hop]⟩
  | none =>
    by_cases hc : h = .cmpa
    · exact .inr (.inl ⟨hc, by simp only [runView, hop, if_pos hc]⟩)
    · exact .inr (.inr ⟨hc, by simp only [runView, hop, if_neg hc]⟩)

/-- F2 runs a logical operation or a compare of its two operands. -/
theorem runView_toEa (h : Handler) {sz : Size} (rx : Reg) (ea : EA sz) :
    (∃ op, runView (.toEa h sz rx ea) = logicalHandler op sz (.dn rx) ea) ∨
    runView (.toEa h sz rx ea) = compareHandler sz (.dn rx) ea := by
  cases hop : h.logicalOp with
  | some op => exact .inl ⟨op, by simp only [runView, hop]⟩
  | none => exact .inr (by simp only [runView, hop])

/-- F3 runs a logical operation or a compare of its two operands. -/
theorem runView_immToEa (h : Handler) {sz : Size} (v : BitVec sz.bits) (ea : EA sz) :
    (∃ op, runView (.immToEa h sz v ea) = logicalHandler op sz (.imm v) ea) ∨
    runView (.immToEa h sz v ea) = compareHandler sz (.imm v) ea := by
  cases hop : h.logicalOp with
  | some op => exact .inl ⟨op, by simp only [runView, hop]⟩
  | none => exact .inr (by simp only [runView, hop])

/-- Every shape runs a handler that keeps the frame. -/
theorem runView_frame {v : View} {s t : State} {u : Unit} (h : runView v s = .ok u t) : InstrFrame s t := by
  cases v with
  | toReg g sz ea rx =>
    rcases runView_toReg g ea rx with ⟨-, op, hv⟩ | ⟨-, hv⟩ | ⟨-, hv⟩ <;> rw [hv] at h
    · exact logicalHandler_frame h
    · exact compareAddressHandler_frame h
    · exact compareHandler_frame h
  | toEa g sz rx ea =>
    rcases runView_toEa g rx ea with ⟨op, hv⟩ | hv <;> rw [hv] at h
    · exact logicalHandler_frame h
    · exact compareHandler_frame h
  | immToEa g sz x ea =>
    rcases runView_immToEa g x ea with ⟨op, hv⟩ | hv <;> rw [hv] at h
    · exact logicalHandler_frame h
    · exact compareHandler_frame h
  | postInc sz ay ax => exact compareHandler_frame h

/-- Every instruction that completes keeps the mode, the mask, X, the controller, the configuration and the host port. -/
theorem exec_frame {i : Instr} {s t : State} (h : exec i s = .next t) : InstrFrame s t := by
  rw [exec_eq, toOutcome_eq_next] at h
  obtain ⟨u, h⟩ := h
  exact runView_frame h

/-! ### What every transaction keeps -/

/-- From `s` to `t` the configuration is as it was, a memory in canonical form is still in it, and a controller in one of
its two states is still in one (R268). -/
structure Kept (s t : State) : Prop where
  families : t.families = s.families
  bus : BusKept s.bus t.bus
  controller : s.controllerConsistent = true → t.controllerConsistent = true

theorem Kept.trans {r s t : State} (h : Kept r s) (g : Kept s t) : Kept r t :=
  ⟨g.families.trans h.families, h.bus.trans g.bus, g.controller ∘ h.controller⟩

/-- Whether the controller is consistent depends on the queues and the flag alone. -/
theorem controllerConsistent_congr {s t : State} (hq : t.queues = s.queues) (ho : t.outstanding = s.outstanding) :
    t.controllerConsistent = s.controllerConsistent := by
  simp only [State.controllerConsistent, State.anyPending, hq, ho]

/-- A transaction that leaves the controller alone. -/
theorem Kept.of_controller_same {s t : State} (hf : t.families = s.families) (hb : BusKept s.bus t.bus)
    (hq : t.queues = s.queues) (ho : t.outstanding = s.outstanding) : Kept s t :=
  ⟨hf, hb, fun h => (controllerConsistent_congr hq ho).trans h⟩

theorem Kept.refl (s : State) : Kept s s := .of_controller_same rfl (.refl _) rfl rfl

theorem Kept.setPort (s : State) (p : HostPort) : Kept s (s.setPort p) := .of_controller_same rfl (.refl _) rfl rfl

theorem Kept.wf {s t : State} (h : Kept s t) (hs : s.wf = true) : t.wf = true := by
  simp only [State.wf, Bool.and_eq_true] at hs ⊢
  exact ⟨h.bus.wf hs.1, h.controller hs.2⟩

theorem InstrFrame.kept {s t : State} (h : InstrFrame s t) : Kept s t :=
  .of_controller_same h.families h.bus h.queues h.outstanding

theorem Reads.kept {s t : State} {xs : List Access} (h : Reads s t xs) : Kept s t := by
  obtain ⟨-, -, -, -, -, hq, ho, hf, -⟩ := h.fields
  exact .of_controller_same hf h.busKept hq ho

/-- Fetching puts reads on the port, and the instruction keeps what it keeps. -/
theorem decodeAndExecute_kept {s t : State} (h : decodeAndExecute s = .next t) : Kept s t := by
  unfold decodeAndExecute at h
  cases hf : fetchInstr s with
  | ok i s' =>
    obtain ⟨-, -, -, -, xs, -, -, -, R, -⟩ := fetchInstr_ok hf
    rw [hf] at h
    exact R.kept.trans (exec_frame h).kept
  | error e s' => cases e <;> simp [hf] at h

/-- A delivery computes `outstanding` again from the queues (R260), so it needs no consistency before it. -/
theorem takeException_kept {l : Level} {v : Byte} {s t : State} {u : Unit} (h : takeException l v s = .ok u t) :
    t.families = s.families ∧ BusKept s.bus t.bus ∧ t.controllerConsistent = true := by
  obtain ⟨sp, pc, b1, b2, b3, -, h1, h2, h3, -, rfl⟩ := takeException_ok h
  obtain ⟨-, -, hq, -, hf, -⟩ := State.enterPrivileged_fields s true
  have k1 : BusKept s.bus b1 := h1 ▸ .write _ _ _ _ _
  have k2 : BusKept b1 b2 := h2 ▸ .write _ _ _ _ _
  have k3 : BusKept b2 b3 := h3 ▸ .issue _ _
  exact ⟨by simp [hf], (k1.trans k2).trans k3, by simp [State.controllerConsistent, State.anyPending, hq]⟩

theorem maybeDeliverInterrupt_kept {s t : State} {u : Unit} (h : maybeDeliverInterrupt s = .ok u t) : Kept s t := by
  cases hd : s.deliverable with
  | none =>
    rw [maybeDeliverInterrupt_none hd] at h
    cases h
    exact .refl s
  | some l =>
    obtain ⟨v, rest, hq⟩ := deliverable_queue hd
    rw [maybeDeliverInterrupt_some hd hq] at h
    obtain ⟨hf, hb, hc⟩ := takeException_kept h
    exact ⟨hf, hb, fun _ => hc⟩

/-- A level with a queued vector is pending. -/
theorem anyPending_of_queue {s : State} {l : Level} (h : s.queues[l] ≠ []) : s.anyPending = true := by
  have hl : l ∈ Level.descending := by fin_cases l <;> decide
  exact List.any_eq_true.mpr ⟨l, hl, by simpa using h⟩

/-- A request fills a queue and sets the flag (R252). -/
theorem requestInterrupt_kept {s t : State} {p : Nat} {v : Byte} (h : s.requestInterrupt p v = some t) : Kept s t := by
  obtain ⟨l, -, rfl⟩ := requestInterrupt_some h
  refine ⟨rfl, .refl _, fun _ => ?_⟩
  have hp : ((s.setQueue l (s.queues[l] ++ [v])).setOutstanding true).anyPending = true :=
    anyPending_of_queue (l := l) (by simp)
  simpa only [State.controllerConsistent, State.setOutstanding_outstanding, beq_iff_eq] using hp.symm

theorem setStatus_kept (s : State) (v : Word) : Kept s (s.setStatus v) := by
  obtain ⟨-, -, hq, ho, hf, hb, -⟩ := State.enterPrivileged_fields s (v.getLsbD 13)
  exact .of_controller_same hf (hb ▸ .refl _) hq ho

/-- The reset transaction empties the queues and clears the flag (R44). -/
theorem resetTransaction_kept (s : State) (pc : Long) (ccr : BitVec 5) : Kept s (s.resetTransaction pc ccr) :=
  ⟨rfl, .refl _, fun _ => by simp [State.controllerConsistent, State.anyPending, State.resetTransaction]⟩

/-- Every host call but decode_and_execute (R292). -/
theorem hostTransaction_kept {c : HostCall} {s t : State} {u : Unit} (h : hostTransaction c s = .ok u t) : Kept s t := by
  cases c with
  | reset pc ccr =>
    cases h
    exact (resetTransaction_kept s pc ccr).trans (.setPort _ _)
  | maybeDeliverInterrupt =>
    simp only [hostTransaction, Op.bind_eq_ok, answerHost_run, EStateM.Result.ok.injEq, true_and] at h
    obtain ⟨_, r, hd, rfl⟩ := h
    exact (maybeDeliverInterrupt_kept hd).trans (.setPort _ _)
  | requestInterrupt p v =>
    simp only [hostTransaction, Op.get_bind] at h
    cases hr : s.requestInterrupt p v with
    | some r =>
      rw [hr] at h
      cases h
      exact (requestInterrupt_kept hr).trans (.setPort _ _)
    | none =>
      rw [hr] at h
      cases h
      exact .setPort _ _
  | getRegister x sz =>
    obtain ⟨p, rfl⟩ := hostGetRegister_ok h
    exact .setPort _ _
  | setRegister x sz v =>
    obtain ⟨p, rfl | ⟨n, c, rfl⟩ | ⟨n, c, rfl⟩⟩ := hostSetRegister_ok h
    all_goals exact .of_controller_same rfl (.refl _) rfl rfl
  | setStatus v =>
    cases h
    exact (setStatus_kept s v).trans (.setPort _ _)
  | setPc v =>
    cases h
    exact .of_controller_same rfl (.refl _) rfl rfl
  | busWrite a sz v =>
    cases h
    exact .of_controller_same rfl (.poke _ _ _ _) rfl rfl
  | getStatus | getPc | busRead _ _ | decodeAndExecute =>
    cases h
    exact .setPort _ _

/-- Every host call but decode_and_execute is its transaction. -/
theorem hostCall_eq {c : HostCall} (hc : c ≠ .decodeAndExecute) (s : State) :
    hostCall c s = toOutcome (hostTransaction c s) := by
  cases c with
  | decodeAndExecute => exact absurd rfl hc
  | _ => rfl

theorem hostCall_kept {c : HostCall} {s t : State} (h : hostCall c s = .next t) : Kept s t := by
  by_cases hc : c = .decodeAndExecute
  · subst hc
    exact (Kept.setPort _ _).trans (decodeAndExecute_kept h)
  · rw [hostCall_eq hc, toOutcome_eq_next] at h
    obtain ⟨u, h⟩ := h
    exact hostTransaction_kept h

theorem loopIteration_kept {s t : State} (h : loopIteration s = .next t) : Kept s t := by
  unfold loopIteration at h
  cases hd : maybeDeliverInterrupt s with
  | ok u s' =>
    rw [hd] at h
    exact (maybeDeliverInterrupt_kept hd).trans (decodeAndExecute_kept h)
  | error e s' => cases e <;> simp [hd] at h

/-- Every step: one iteration of the loop, or the host's next call. -/
theorem step_kept {s t : State} (h : step s = .next t) : Kept s t := by
  unfold step at h
  cases hc : s.port.calls with
  | nil =>
    rw [hc] at h
    exact loopIteration_kept h
  | cons c rest =>
    rw [hc] at h
    exact (Kept.setPort _ _).trans (hostCall_kept h)

/-- Settles O12: the invariant is two parts of what every step keeps. -/
theorem stepKeepsInvariant : Obligations.StepKeepsInvariant :=
  fun _ _ hs h => (step_kept h).wf hs

/-- Settles O13: no byte is listed and no vector is queued. -/
theorem resetMeetsInvariant : Obligations.ResetMeetsInvariant := by
  have hc : State.reset.controllerConsistent = true := by decide
  simp [Obligations.ResetMeetsInvariant, State.wf, reset_bus_wf, hc]

/-- Settles O14: the dispatch table is a function of the installed families, which every step keeps. -/
theorem configurationNeverChanges : Obligations.ConfigurationNeverChanges := by
  intro s t h
  have k := step_kept h
  exact ⟨by rw [k.families], k.families, k.bus.byteOrder, k.bus.addrBits⟩

end Sys2Proof.Machine
end

section
/-! SUPPORT. Registers and the host port (R21-R25, R292): what a write at a width leaves of a data register, the register
of a port index, and the step that takes a host call. -/

namespace Sys2Proof.Machine

/-! ### A write at a width (R22) -/

/-- The low bits of a write at a width are what was written. -/
theorem replaceLow_setWidth (old : Long) (sz : Size) (v : BitVec sz.bits) :
    (replaceLow old sz v).setWidth sz.bits = v := by
  cases sz with
  | b => exact BitVec.setWidth_append_eq_right
  | w => exact BitVec.setWidth_append_eq_right
  | l => exact BitVec.setWidth_eq v

/-- The bits above the width are as they were. -/
theorem replaceLow_getLsbD_high (old : Long) {sz : Size} (v : BitVec sz.bits) {k : Nat} (hk : sz.bits ≤ k) :
    (replaceLow old sz v).getLsbD k = old.getLsbD k := by
  cases sz with
  | b =>
    have hb : 8 ≤ k := hk
    simp only [replaceLow, BitVec.getLsbD_append, BitVec.getLsbD_extractLsb', if_neg (Nat.not_lt.mpr hb)]
    by_cases h : k < 32
    · simp [show k - 8 < 24 by omega, show 8 + (k - 8) = k by omega]
    · simp [BitVec.getLsbD_of_ge old k (by omega), show ¬ k - 8 < 24 by omega]
  | w =>
    have hb : 16 ≤ k := hk
    simp only [replaceLow, BitVec.getLsbD_append, BitVec.getLsbD_extractLsb', if_neg (Nat.not_lt.mpr hb)]
    by_cases h : k < 32
    · simp [show k - 16 < 16 by omega, show 16 + (k - 16) = k by omega]
    · simp [BitVec.getLsbD_of_ge old k (by omega), show ¬ k - 16 < 16 by omega]
  | l =>
    have hb : 32 ≤ k := hk
    rw [BitVec.getLsbD_of_ge old k hb]
    exact BitVec.getLsbD_of_ge (v : BitVec 32) k hb

/-- Settles O15: the register gets the old value with its low bits replaced; only a narrow write reads the old value. -/
theorem dataRegisterWrite : Obligations.DataRegisterWrite := by
  intro sz n v s
  refine ⟨fun hw => ⟨_, writeD_ok.mpr ⟨hw, rfl⟩, replaceLow_setWidth _ sz v, fun k hk => ?_⟩, fun hsz hc => ?_⟩
  · exact replaceLow_getLsbD_high _ v hk
  · exact writeD_error.mpr ⟨hsz, hc, rfl, rfl⟩

/-! ### The host port -/

@[simp] theorem State.setPort_setPort (s : State) (p q : HostPort) : (s.setPort p).setPort q = s.setPort q := rfl

theorem State.setPort_setD (s : State) (p : HostPort) (n : Reg) (c : Cell) :
    (s.setPort p).setD n c = (s.setD n c).setPort p := rfl

theorem State.setPort_setA (s : State) (p : HostPort) (n : Reg) (c : Cell) :
    (s.setPort p).setA n c = (s.setA n c).setPort p := rfl

/-- The port's indices 0..7 are D0-D7 (R25). -/
theorem portReg_data {x : Fin 16} {n : Reg} (h : x.val = n.val) : portReg x = .d n := by
  have hx : x.val < 8 := h ▸ n.isLt
  rw [portReg, dif_pos hx]
  simp only [h]

/-- The port's indices 8..15 are A0-A7 (R25). -/
theorem portReg_address {x : Fin 16} {n : Reg} (h : x.val = 8 + n.val) : portReg x = .a n := by
  have hx : ¬ x.val < 8 := by omega
  rw [portReg, dif_neg hx]
  simp only [h, Nat.add_sub_cancel_left]

/-- A step with a host call waiting takes it off the list and performs it. -/
theorem step_call {s : State} {c : HostCall} {rest : List HostCall} (h : s.port.calls = c :: rest)
    (hc : c ≠ .decodeAndExecute) :
    step s = toOutcome (hostTransaction c (s.setPort ⟨rest, s.port.reply⟩)) := by
  simp only [step, h, hostCall_eq hc]

theorem hostGetRegister_written {r : RegName} {sz : Size} {s : State} (hr : sz = .b → ∀ n, r ≠ .a n)
    (hw : (s.cell r).written = true) : hostGetRegister r sz s =
      .ok () (s.setPort { s.port with reply := .value (((s.value r).setWidth sz.bits).setWidth 32) }) := by
  have hn : ¬ ((∃ n, r = .a n) ∧ sz = .b) := fun ⟨⟨n, hn⟩, hb⟩ => hr hb n hn
  rw [hostGetRegister_eq, if_neg hn, Op.bind_of_ok (readReg_written hw), answerHost_run]

theorem hostSetRegister_data {n : Reg} {sz : Size} {v : Long} {s : State} (hw : (s.cell (.d n)).written = true) :
    hostSetRegister (.d n) sz v s =
      .ok () ((s.setD n (.val (replaceLow (s.value (.d n)) sz (v.setWidth sz.bits)))).setPort
        { s.port with reply := .ok }) := by
  simp only [hostSetRegister]
  rw [Op.bind_of_ok (a := ()) (writeD_ok.mpr ⟨.inr hw, rfl⟩), answerHost_run, State.setD_port]

theorem hostSetRegister_address_word (n : Reg) (v : Long) (s : State) :
    hostSetRegister (.a n) .w v s =
      .ok () ((s.setA n (.val ((v.setWidth 16).signExtend 32))).setPort { s.port with reply := .ok }) := by
  rw [BitVec.setWidth_eq_extractLsb' (by decide)]
  rfl

theorem hostSetRegister_address_long (n : Reg) (v : Long) (s : State) :
    hostSetRegister (.a n) .l v s = .ok () ((s.setA n (.val v)).setPort { s.port with reply := .ok }) := rfl

theorem hostSetRegister_address_byte (n : Reg) (v : Long) (s : State) :
    hostSetRegister (.a n) .b v s = .ok () (s.setPort { s.port with reply := .rejected }) := rfl

theorem step_setRegister {s : State} {x : Fin 16} {sz : Size} {v : Long} {rest : List HostCall}
    (h : s.port.calls = .setRegister x sz v :: rest) :
    step s = toOutcome (hostSetRegister (portReg x) sz v (s.setPort ⟨rest, s.port.reply⟩)) :=
  step_call h (by simp)

theorem step_getRegister {s : State} {x : Fin 16} {sz : Size} {rest : List HostCall}
    (h : s.port.calls = .getRegister x sz :: rest) :
    step s = toOutcome (hostGetRegister (portReg x) sz (s.setPort ⟨rest, s.port.reply⟩)) :=
  step_call h (by simp)

/-- Settles O16: one case for each size of a write and for the two sizes of a read. -/
theorem hostAddressRegister : Obligations.HostAddressRegister := by
  intro s n x v rest hx
  have hp := portReg_address hx
  refine ⟨fun h => ?word, fun h => ?long, fun h => ?byte, fun u hu => ?read⟩
  case word =>
    rw [step_setRegister h, hp, hostSetRegister_address_word, toOutcome_ok, State.setPort_setA, State.setPort_setPort,
      State.setPort_port]
  case long =>
    rw [step_setRegister h, hp, hostSetRegister_address_long, toOutcome_ok, State.setPort_setA, State.setPort_setPort,
      State.setPort_port]
  case byte =>
    rw [step_setRegister h, hp, hostSetRegister_address_byte, toOutcome_ok, State.setPort_setPort, State.setPort_port]
  case read =>
    have read (sz : Size) (hsz : sz ≠ .b) (h : s.port.calls = .getRegister x sz :: rest) :
        step s = .next (s.setPort ⟨rest, .value ((u.setWidth sz.bits).setWidth 32)⟩) := by
      rw [step_getRegister h, hp, hostGetRegister_written (fun hb => absurd hb hsz) (by simp [hu]), toOutcome_ok]
      simp [State.value, hu]
    exact ⟨read .w (by simp), fun h => by simpa using read .l (by simp) h⟩

/-! ### Runs -/

@[simp] theorem State.runSteps_zero (s : State) : s.runSteps 0 = .next s := rfl

/-- A run whose first step completes goes on from there. -/
theorem run_next {M : Host.Core} {s t : M.State} (h : M.step s = .next t) (k : Nat) : M.run (k + 1) s = M.run k t := by
  simp only [Host.Core.run, h]

theorem State.runSteps_next {s t : State} (h : step s = .next t) (k : Nat) : s.runSteps (k + 1) = t.runSteps k :=
  run_next (M := Sys2Proof.core) h k

/-- Settles O17: the first step replaces the register's low bits and the second reads them. -/
theorem hostDataRegisterRoundTrip : Obligations.HostDataRegisterRoundTrip := by
  intro s n x sz v rest hx hcalls hw
  have hp := portReg_data hx
  set w : Long := replaceLow (s.value (.d n)) sz (v.setWidth sz.bits) with hwd
  set t1 : State := (s.setD n (.val w)).setPort ⟨.getRegister x sz :: rest, .ok⟩ with ht1
  set t2 : State := (s.setD n (.val w)).setPort
    ⟨rest, .value (BitVec.ofNat 32 (v.toNat % 2 ^ sz.bits))⟩ with ht2
  have h1 : step s = .next t1 := by
    rw [step_setRegister hcalls, hp, hostSetRegister_data (by simpa using hw), toOutcome_ok]
    simp [ht1, hwd, State.setPort_setD]
  have hcell : t1.cell (.d n) = .val w := by simp [ht1, State.cell_setD]
  have hread : ((t1.value (.d n)).setWidth sz.bits).setWidth 32 = BitVec.ofNat 32 (v.toNat % 2 ^ sz.bits) := by
    rw [State.value, hcell, Cell.value_val, hwd, replaceLow_setWidth]
    apply BitVec.eq_of_toNat_eq
    simp
  have h2 : step t1 = .next t2 := by
    rw [step_getRegister (rest := rest) rfl, hp, hostGetRegister_written (by simp) (by simp [hcell]), toOutcome_ok,
      State.value_setPort, hread]
    simp [ht1, ht2]
  refine ⟨t2, ?_, rfl, fun r hr => ?_⟩
  · rw [State.runSteps_next h1, State.runSteps_next h2, State.runSteps_zero]
  · simp [ht2, State.cell_setD, hr]

end Sys2Proof.Machine
end

section
/-! SUPPORT. The first unwritten register an instruction reads is its fault (R26, R172, R244, R247): how the handler of
each operand shape stops when one of its operands does. -/

namespace Sys2Proof.Machine

/-- An instruction whose handler stops with a fault faults with it. -/
theorem exec_fault {i : Instr} {v : View} {s t : State} {f : Fault} (hv : i.view = v)
    (h : runView v s = .error (.fault f) t) : exec i s = .fault f := by
  rw [exec_eq, hv, h, toOutcome_fault]

/-! ### The shapes stop as their operands do -/

theorem runView_toReg_source_stop {h : Handler} {sz : Size} {ea : EA sz} {rx : Reg} {s t : State} {e : Stop}
    (hs : readOperand ea (s.pc + 2) s = .error e t) : runView (.toReg h sz ea rx) s = .error e t := by
  rcases runView_toReg h ea rx with ⟨-, op, hr⟩ | ⟨-, hr⟩ | ⟨-, hr⟩ <;> rw [hr]
  · exact logicalHandler_source_stop hs
  · exact compareAddressHandler_source_stop hs
  · exact compareHandler_source_stop hs

theorem runView_toReg_dest_stop {h : Handler} {sz : Size} {ea : EA sz} {rx : Reg} {s u t : State} {e : Stop}
    {x : BitVec sz.bits} (hc : h ≠ .cmpa) (hs : readOperand ea (s.pc + 2) s = .ok x u)
    (hd : readOperand (.dn rx : EA sz) (s.pc + 2 + BitVec.ofNat 32 ea.extSize) u = .error e t) :
    runView (.toReg h sz ea rx) s = .error e t := by
  rcases runView_toReg h ea rx with ⟨-, op, hr⟩ | ⟨hc', -⟩ | ⟨-, hr⟩
  · rw [hr]; exact logicalHandler_dest_stop hs hd
  · exact absurd hc' hc
  · rw [hr]; exact compareHandler_dest_stop hs hd

theorem runView_cmpa_dest_stop {sz : Size} {ea : EA sz} {an : Reg} {s u : State} {x : BitVec sz.bits}
    (hs : readOperand ea (s.pc + 2) s = .ok x u) (hu : u.cell (.a an) = .unwritten) :
    runView (.toReg .cmpa sz ea an) s = .error (.fault (.unwritten (.a an))) u :=
  compareAddressHandler_dest_stop hs hu

theorem runView_toEa_source_stop {h : Handler} {sz : Size} {ea : EA sz} {rx : Reg} {s t : State} {e : Stop}
    (hs : readOperand (.dn rx : EA sz) (s.pc + 2) s = .error e t) : runView (.toEa h sz rx ea) s = .error e t := by
  rcases runView_toEa h rx ea with ⟨op, hr⟩ | hr <;> rw [hr]
  · exact logicalHandler_source_stop hs
  · exact compareHandler_source_stop hs

/-- A data register has no extension, so the `<ea>` extension is the first one. -/
theorem runView_toEa_dest_stop {h : Handler} {sz : Size} {ea : EA sz} {rx : Reg} {s t : State} {e : Stop}
    (hw : (s.cell (.d rx)).written = true) (hd : readOperand ea (s.pc + 2) s = .error e t) :
    runView (.toEa h sz rx ea) s = .error e t := by
  have hs : readOperand (.dn rx : EA sz) (s.pc + 2) s = .ok _ s :=
    readOperand_quiet (by simp [EA.variant]) (by simp [EA.regs, hw]) rfl
  have hc : s.pc + 2 + BitVec.ofNat 32 (EA.dn rx : EA sz).extSize = s.pc + 2 := BitVec.add_zero _
  rw [← hc] at hd
  rcases runView_toEa h rx ea with ⟨op, hr⟩ | hr <;> rw [hr]
  · exact logicalHandler_dest_stop hs hd
  · exact compareHandler_dest_stop hs hd

theorem runView_immToEa_dest_stop {h : Handler} {sz : Size} {v : BitVec sz.bits} {ea : EA sz} {s t : State} {e : Stop}
    (hd : readOperand ea (s.pc + 2 + BitVec.ofNat 32 (Variant.imm.extSize sz)) s = .error e t) :
    runView (.immToEa h sz v ea) s = .error e t := by
  have hs : readOperand (.imm v : EA sz) (s.pc + 2) s = .ok _ s :=
    readOperand_quiet (by simp [EA.variant]) (by simp [EA.regs]) rfl
  rcases runView_immToEa h v ea with ⟨op, hr⟩ | hr <;> rw [hr]
  · exact logicalHandler_dest_stop hs hd
  · exact compareHandler_dest_stop hs hd

/-! ### Operands that answer on the reference bus, and registers that do not -/

theorem readOperand_plain {sz : Size} {ea : EA sz} {c : Long} {s : State} (hp : s.plainBus) (hr : ea.ready s c = true)
    (hb : sz = .b → ea.variant ≠ .an) :
    readOperand ea c s = .ok (ea.operand s c) (s.logged ((ea.loc s c).reads s)) := by
  obtain ⟨h1, h2⟩ := EA.read_plain hp hr hb
  exact (Op.bind_of_ok h1).trans h2

theorem State.cell_logged (s : State) (xs : List Access) (r : RegName) : (s.logged xs).cell r = s.cell r :=
  State.cell_setBus _ _ _

theorem readOperand_dn_unwritten {sz : Size} {n : Reg} {c : Long} {s : State} (h : s.cell (.d n) = .unwritten) :
    readOperand (.dn n : EA sz) c s = .error (.fault (.unwritten (.d n))) s :=
  readOperand_unwritten (by simp [EA.variant]) (by simp [EA.regs, h])

theorem readOperand_postInc_unwritten {sz : Size} {n : Reg} {c : Long} {s : State} (h : s.cell (.a n) = .unwritten) :
    readOperand (.postInc n : EA sz) c s = .error (.fault (.unwritten (.a n))) s :=
  readOperand_unwritten (by simp [EA.variant]) (by simp [EA.regs, h])

/-- A well-formed instruction of byte size reads no address register (R21, R154). -/
theorem variant_ne_an {i : Instr} (hw : i.wellFormed = true) (hb : i.form.size = .b) : i.form.variant ≠ .an := by
  intro hv
  simp [Instr.wellFormed, Form.sized, hb, hv] at hw

/-! ### The four shapes -/

/-- F1: the registers of the source, then the destination register. -/
theorem exec_toReg_unwritten {h : Handler} {sz : Size} {ea : EA sz} {rx : Reg} {i : Instr} {s : State}
    (hv : i.view = .toReg h sz ea rx) (hw : i.wellFormed = true) :
    (∀ r, ea.regs.find? (fun q => !(s.cell q).written) = some r → exec i s = .fault (.unwritten r)) ∧
    (s.plainBus → ea.ready s (s.pc + 2) = true →
      (h = .cmpa → s.cell (.a rx) = .unwritten → exec i s = .fault (.unwritten (.a rx))) ∧
      (h ≠ .cmpa → s.cell (.d rx) = .unwritten → exec i s = .fault (.unwritten (.d rx)))) := by
  have hb := sized_source hv hw
  refine ⟨fun r hr => ?source, fun hp hready => ⟨fun hc hx => ?address, fun hc hx => ?data⟩⟩
  case source => exact exec_fault hv (runView_toReg_source_stop (readOperand_unwritten hb hr))
  case address =>
    subst hc
    exact exec_fault hv (runView_cmpa_dest_stop (readOperand_plain hp hready hb) (by rw [State.cell_logged, hx]))
  case data =>
    exact exec_fault hv (runView_toReg_dest_stop hc (readOperand_plain hp hready hb)
      (readOperand_dn_unwritten (by rw [State.cell_logged, hx])))

/-- F2: the source register, then the registers of the destination. -/
theorem exec_toEa_unwritten {h : Handler} {sz : Size} {dn : Reg} {ea : EA sz} {i : Instr} {s : State}
    (hv : i.view = .toEa h sz dn ea) (hw : i.wellFormed = true) :
    (s.cell (.d dn) = .unwritten → exec i s = .fault (.unwritten (.d dn))) ∧
    ((s.cell (.d dn)).written = true →
      ∀ r, ea.regs.find? (fun q => !(s.cell q).written) = some r → exec i s = .fault (.unwritten r)) := by
  have hform : i.form = ⟨h, sz, ea.variant⟩ := by rw [Instr.form, hv, View.form]
  have hb : sz = .b → ea.variant ≠ .an := by simpa only [hform] using variant_ne_an hw
  exact ⟨fun hx => exec_fault hv (runView_toEa_source_stop (readOperand_dn_unwritten hx)),
    fun hx r hr => exec_fault hv (runView_toEa_dest_stop hx (readOperand_unwritten hb hr))⟩

/-- F3: the registers of the destination. -/
theorem exec_immToEa_unwritten {h : Handler} {sz : Size} {v : BitVec sz.bits} {ea : EA sz} {i : Instr} {s : State}
    {r : RegName} (hv : i.view = .immToEa h sz v ea) (hw : i.wellFormed = true)
    (hr : ea.regs.find? (fun q => !(s.cell q).written) = some r) : exec i s = .fault (.unwritten r) := by
  have hform : i.form = ⟨h, sz, ea.variant⟩ := by rw [Instr.form, hv, View.form]
  have hb : sz = .b → ea.variant ≠ .an := by simpa only [hform] using variant_ne_an hw
  exact exec_fault hv (runView_immToEa_dest_stop (readOperand_unwritten hb hr))

/-- CMPM: Ay, then Ax. -/
theorem exec_postInc_unwritten {sz : Size} {ay ax : Reg} {i : Instr} {s : State} (hv : i.view = .postInc sz ay ax) :
    (s.cell (.a ay) = .unwritten → exec i s = .fault (.unwritten (.a ay))) ∧
    ∀ y : Long, s.cell (.a ay) = .val y → misaligned y sz = false → s.plainBus → s.cell (.a ax) = .unwritten →
      exec i s = .fault (.unwritten (.a ax)) := by
  refine ⟨fun hy => ?_, fun y hy hm hp hx => ?_⟩
  · exact exec_fault hv (compareHandler_source_stop (readOperand_postInc_unwritten hy))
  · have hready : (EA.postInc ay : EA sz).ready s (s.pc + 2) = true := by
      simp [EA.ready, EA.regs, EA.loc, Loc.aligned, State.value, hy, hm]
    exact exec_fault hv (compareHandler_dest_stop (readOperand_plain hp hready (by simp [EA.variant]))
      (readOperand_postInc_unwritten (by rw [State.cell_logged, hx])))

/-- Settles O18: the four operand shapes. -/
theorem unwrittenRegisterFaults : Obligations.UnwrittenRegisterFaults :=
  ⟨fun _ _ _ _ _ _ hv hw => exec_toReg_unwritten hv hw, fun _ _ _ _ _ _ hv hw => exec_toEa_unwritten hv hw,
    fun _ _ _ _ _ _ _ hv hw hr => exec_immToEa_unwritten hv hw hr, fun _ _ _ _ _ hv => exec_postInc_unwritten hv⟩

end Sys2Proof.Machine
end

section
/-! SUPPORT. The rows of the dispatch table exclude each other (R101-R103): a row is found again from its base pattern,
and two rows that overlap have one base pattern. So startup accepts the table, whichever families are installed. -/

namespace Sys2Proof

/-! ### A row is found again from its base pattern -/

/-- The size of a base pattern with bits 8:6 equal to `op`: the code of R93, or bit 8 for CMPA. -/
def sizeOfOp (op : Nat) : Size :=
  match op with
  | 0 | 4 => .b
  | 1 | 3 | 5 => .w
  | _ => .l

/-- The variant of an effective-address field (R94). -/
def variantOfField (mode reg : Nat) : Variant :=
  match mode with
  | 0 => .dn
  | 1 => .an
  | 2 => .ind
  | 3 => .postInc
  | 4 => .preDec
  | 5 => .disp
  | 6 => .index
  | _ =>
    match reg with
    | 0 => .absW
    | 1 => .absL
    | 2 => .pcDisp
    | 3 => .pcIndex
    | _ => .imm

/-- The handler of line 0 (R108) with bits 11:9 equal to `k`. -/
def line0Handler (k : Nat) : Handler :=
  match k with
  | 0 => .ori
  | 1 => .andi
  | 5 => .eori
  | _ => .cmpi

/-- The row whose base pattern is `w` (R91-R94, R101). -/
def rowOfBase (w : Word) : Form :=
  let line := w.extractLsb' 12 4
  let op := (w.extractLsb' 6 3).toNat
  let mode := (w.extractLsb' 3 3).toNat
  let row (h : Handler) : Form := ⟨h, sizeOfOp op, variantOfField mode (w.extractLsb' 0 3).toNat⟩
  if line = 0x0 then row (line0Handler (w.extractLsb' 9 3).toNat)
  else if line = 0x8 then row (if op < 4 then .orToReg else .orToEa)
  else if line = 0xC then row (if op < 4 then .andToReg else .andToEa)
  else if op % 4 = 3 then row .cmpa
  else if op < 4 then row .cmp
  else if mode = 1 then ⟨.cmpm, sizeOfOp op, .postInc⟩
  else row .eor

/-- The handlers of the installed families (D2). -/
def Families.handlers (fam : Families) : List Handler :=
  (if fam.compare then [Handler.cmp, .cmpa, .cmpi, .cmpm] else []) ++
    (if fam.logical then [Handler.andToReg, .andToEa, .orToReg, .orToEa, .eor, .andi, .ori, .eori] else [])

/-- What holds of each of the 290 rows holds of every legal form. -/
theorem forall_legal {p : Form → Prop} (h : ∀ f ∈ Families.default.handlers.flatMap Handler.forms, p f) {f : Form}
    (hf : f.legal = true) : p f := by
  have hm : f.handler ∈ Families.default.handlers := by cases f.handler <;> decide
  exact h f (List.mem_flatMap.mpr ⟨_, hm, Handler.mem_forms.mpr ⟨rfl, hf⟩⟩)

theorem rowOfBase_base {f : Form} (h : f.legal = true) : rowOfBase f.base = f :=
  forall_legal (p := fun f => rowOfBase f.base = f) (by decide +kernel) h

/-! ### Rows that overlap are one row -/

/-- The don't-care mask of a row, read off the bits of its base pattern that every row cares about: an F3 row has line 0
and no Rx field, a row of mode 111 no register number. -/
def dontCareOf (w : Word) : Word :=
  (if w &&& 0xF000 = 0 then 0 else 0x0E00) ||| (if w &&& 0x0038 = 0x0038 then 0 else 0x0007)

/-- The register fields lie outside the bits every row cares about, and the base pattern is 0 there (C4). -/
theorem base_dontCare {f : Form} (h : f.legal = true) :
    f.dontCare = dontCareOf (f.base &&& 0xF1F8) ∧ f.dontCare &&& 0xF1F8 = 0 ∧ f.base &&& f.dontCare = 0 :=
  forall_legal (p := fun f => f.dontCare = dontCareOf (f.base &&& 0xF1F8) ∧ f.dontCare &&& 0xF1F8 = 0 ∧
    f.base &&& f.dontCare = 0) (by decide +kernel) h

/-- Rows that overlap agree on all bits both care about. -/
theorem Entry.base_and_eq_of_overlaps {e f : Entry} (h : e.overlaps f = true) {m : Word} (he : e.dontCare &&& m = 0)
    (hf : f.dontCare &&& m = 0) : e.base &&& m = f.base &&& m := by
  rw [Entry.overlaps, beq_iff_eq] at h
  apply BitVec.eq_of_getLsbD_eq
  intro k hk
  have hk' := congrArg (BitVec.getLsbD · k) h
  have hek := congrArg (BitVec.getLsbD · k) he
  have hfk := congrArg (BitVec.getLsbD · k) hf
  simp only [BitVec.getLsbD_and, BitVec.getLsbD_xor, BitVec.getLsbD_not, hk] at hk' hek hfk ⊢
  cases hm : m.getLsbD k <;> simp_all

/-- Two words that are 0 in `m` and agree outside it are equal. -/
theorem eq_of_and_not_eq {w : Nat} {x y m : BitVec w} (hx : x &&& m = 0) (hy : y &&& m = 0)
    (h : x &&& ~~~m = y &&& ~~~m) : x = y := by
  apply BitVec.eq_of_getLsbD_eq
  intro k hk
  have hxk := congrArg (BitVec.getLsbD · k) hx
  have hyk := congrArg (BitVec.getLsbD · k) hy
  have hk' := congrArg (BitVec.getLsbD · k) h
  simp only [BitVec.getLsbD_and, BitVec.getLsbD_not, hk] at hxk hyk hk'
  cases hm : m.getLsbD k <;> simp_all

/-- Two legal rows of which one word can match both are one row (R103). -/
theorem eq_of_overlaps {f g : Form} (hf : f.legal = true) (hg : g.legal = true)
    (h : f.entry.overlaps g.entry = true) : f = g := by
  obtain ⟨df, cf, bf⟩ := base_dontCare hf
  obtain ⟨dg, cg, bg⟩ := base_dontCare hg
  have hkey : f.base &&& 0xF1F8 = g.base &&& 0xF1F8 := Entry.base_and_eq_of_overlaps h cf cg
  have hd : f.dontCare = g.dontCare := by rw [df, dg, hkey]
  have hout : f.base &&& ~~~f.dontCare = g.base &&& ~~~f.dontCare :=
    Entry.base_and_eq_of_overlaps h (BitVec.and_not_self _) (by rw [Form.entry, ← hd]; exact BitVec.and_not_self _)
  have hb : f.base = g.base := eq_of_and_not_eq bf (hd ▸ bg) hout
  rw [← rowOfBase_base hf, ← rowOfBase_base hg, hb]

/-! ### The table is valid -/

theorem acceptable_of_legal {f : Form} (h : f.legal = true) : f.entry.acceptable = true := by
  obtain ⟨hw, hs⟩ := Form.legal_checks h
  obtain ⟨-, -, hb⟩ := base_dontCare h
  simp [Entry.acceptable, Form.entry, hb, h, hw, hs]

theorem Handler.nodup_forms (h : Handler) : h.forms.Nodup := by
  cases h <;> decide

/-- The rows of distinct handlers are distinct. -/
theorem nodup_flatMap_forms {hs : List Handler} (h : hs.Nodup) : (hs.flatMap Handler.forms).Nodup := by
  rw [List.nodup_flatMap]
  refine ⟨fun g _ => g.nodup_forms, h.imp fun {a b} hab f ha hb => hab ?_⟩
  rw [← (Handler.mem_forms.mp ha).1, (Handler.mem_forms.mp hb).1]

/-- Distinct legal rows make a valid table. -/
theorem tableValid_of_legal : ∀ {fs : List Form}, (∀ f ∈ fs, f.legal = true) → fs.Nodup →
    tableValid (fs.map Form.entry) = true := by
  intro fs
  induction fs with
  | nil => intros; rfl
  | cons f fs ih =>
    intro hl hn
    obtain ⟨hf, hl⟩ := List.forall_mem_cons.mp hl
    obtain ⟨hne, hn⟩ := List.nodup_cons.mp hn
    have hdis : (fs.map Form.entry).all (fun e => !f.entry.overlaps e) = true := by
      simp only [List.all_map, List.all_eq_true, Function.comp_apply, Bool.not_eq_true', ← Bool.not_eq_true]
      intro g hg ho
      exact hne (eq_of_overlaps hf (hl g hg) ho ▸ hg)
    simp only [List.map_cons, tableValid, acceptable_of_legal hf, hdis, ih hl hn, Bool.and_self]

theorem dispatchTable_eq (fam : Families) :
    dispatchTable fam = (fam.handlers.flatMap Handler.forms).map Form.entry := by
  obtain ⟨c, l⟩ := fam
  cases c <;> cases l <;>
    simp [dispatchTable, Families.handlers, compareInstaller, logicalInstaller]

/-- Whichever families are installed, startup accepts the table (R103). -/
theorem startup_dispatchTable (fam : Families) : startup (dispatchTable fam) = some (dispatchTable fam) := by
  have hn : fam.handlers.Nodup := by
    obtain ⟨c, l⟩ := fam
    cases c <;> cases l <;> decide
  have hl : ∀ f ∈ fam.handlers.flatMap Handler.forms, f.legal = true := by
    intro f hf
    obtain ⟨h, -, hf⟩ := List.mem_flatMap.mp hf
    exact (Handler.mem_forms.mp hf).2
  have hv : tableValid (dispatchTable fam) = true := by
    rw [dispatchTable_eq]
    exact tableValid_of_legal hl (nodup_flatMap_forms hn)
  rw [startup, if_pos hv]

end Sys2Proof
end

section
/-! SUPPORT. The status word, the privilege mode and reset (R28, R30-R36, R44, R290). -/

namespace Sys2Proof.Machine

/-! ### The status word (R30, R31) -/

/-- A field of `w` bits at bit `k` of a 16-bit word loses none of its bits. -/
theorem toNat_setWidth_shiftLeft {w k : Nat} (x : BitVec w) (h : w + k ≤ 16) :
    (x.setWidth 16 <<< k).toNat = x.toNat <<< k := by
  have hx : x.toNat <<< k < 2 ^ 16 := by
    rw [Nat.shiftLeft_eq]
    calc x.toNat * 2 ^ k < 2 ^ w * 2 ^ k := Nat.mul_lt_mul_of_pos_right x.isLt (Nat.two_pow_pos k)
      _ = 2 ^ (w + k) := (Nat.pow_add 2 w k).symm
      _ ≤ 2 ^ 16 := Nat.pow_le_pow_right (by decide) h
  rw [BitVec.toNat_shiftLeft, BitVec.toNat_setWidth_of_le (by omega), Nat.mod_eq_of_lt hx]

/-- Settles O19: the fields do not overlap, so their `or` is their sum. -/
theorem statusWordComposition : Obligations.StatusWordComposition := by
  intro r
  have hi := r.i.isLt
  have hx := r.x.toNat_lt
  have hn := r.n.toNat_lt
  have hz := r.z.toNat_lt
  have hv := r.v.toNat_lt
  have hc := r.c.toNat_lt
  simp only [StatusReg.word, BitVec.toNat_or, toNat_setWidth_shiftLeft, BitVec.toNat_setWidth_of_le,
    BitVec.toNat_ofBool, Nat.or_assoc, Nat.reduceAdd, Nat.reduceLeDiff]
  simp (disch := omega) only [← Nat.shiftLeft_add_eq_or_of_lt]
  simp only [Nat.shiftLeft_eq, Nat.add_assoc]

/-- The bits of the composed word; those that are not implemented are 0. -/
def StatusReg.bit (r : StatusReg) : Nat → Bool
  | 13 => r.s
  | 10 => r.i.getLsbD 2
  | 9 => r.i.getLsbD 1
  | 8 => r.i.getLsbD 0
  | 4 => r.x
  | 3 => r.n
  | 2 => r.z
  | 1 => r.v
  | 0 => r.c
  | _ => false

theorem StatusReg.word_getLsbD (r : StatusReg) {k : Nat} (hk : k < 16) : r.word.getLsbD k = r.bit k := by
  interval_cases k <;> simp [StatusReg.word, StatusReg.bit]

/-- No bit outside S, I and the flags is ever set (R30). -/
theorem StatusReg.word_unimplemented (r : StatusReg) : r.word &&& 0xD8E0 = 0 := by
  apply BitVec.eq_of_getLsbD_eq
  intro k hk
  rw [BitVec.getLsbD_and, r.word_getLsbD hk]
  interval_cases k <;> simp [StatusReg.bit]

/-! ### The privilege mode (R28, R33, R36) -/

/-- Settles O21: no change in the requested mode, and else the switch. -/
theorem enterPrivileged : Obligations.EnterPrivileged := by
  intro s b
  refine ⟨State.enterPrivileged_same, fun h => ⟨_, State.enterPrivileged_switch h, ?_⟩, ?_⟩
  · exact ⟨by simp, rfl, rfl, by simp, rfl, rfl⟩
  · obtain ⟨-, -, -, -, -, -, -, hsr⟩ := State.enterPrivileged_fields s b
    exact State.enterPrivileged_same (by rw [hsr])

/-- Which slot holds which stack pointer depends on the mode alone. -/
theorem State.stack_setSR {s : State} {r : StatusReg} (h : r.s = s.sr.s) :
    (s.setSR r).usp = s.usp ∧ (s.setSR r).ssp = s.ssp := by
  simp [State.usp, State.ssp, h]

theorem State.stack_enterPrivileged (s : State) (b : Bool) :
    (s.enterPrivileged b).usp = s.usp ∧ (s.enterPrivileged b).ssp = s.ssp := by
  by_cases h : s.sr.s = b
  · rw [State.enterPrivileged_same h]
    exact ⟨rfl, rfl⟩
  · rw [State.enterPrivileged_switch h]
    cases b <;> simp_all [State.usp, State.ssp]

theorem State.stack_setStatus (s : State) (v : Word) :
    (s.setStatus v).usp = s.usp ∧ (s.setStatus v).ssp = s.ssp := by
  obtain ⟨-, -, -, -, -, -, -, hsr⟩ := State.enterPrivileged_fields s (v.getLsbD 13)
  obtain ⟨hu, hs⟩ := State.stack_enterPrivileged s (v.getLsbD 13)
  rw [← hu, ← hs]
  exact State.stack_setSR (by rw [hsr])

/-- The live stack pointer is that of the mode (R28). -/
theorem State.live_stack (s : State) : s.a[7] = if s.sr.s then s.ssp else s.usp := by
  cases h : s.sr.s <;> simp [State.usp, State.ssp, h]

/-- Settles O22: each of the two operations keeps both stack pointers. -/
theorem stackPointersSurviveModeChanges : Obligations.StackPointersSurviveModeChanges := by
  intro s b v
  obtain ⟨hu, hs⟩ := s.stack_enterPrivileged b
  obtain ⟨hu', hs'⟩ := s.stack_setStatus v
  refine ⟨hu, hs, hu', hs', ?_⟩
  rw [State.live_stack, hu', hs']
  rfl

/-! ### set_status (R34) -/

/-- The word reads back without the bits that are not implemented. -/
theorem State.setStatus_word (s : State) (v : Word) : (s.setStatus v).sr.word = v &&& 0x271F := by
  apply BitVec.eq_of_getLsbD_eq
  intro k hk
  rw [StatusReg.word_getLsbD _ hk, BitVec.getLsbD_and]
  interval_cases k <;> simp [State.setStatus, StatusReg.bit]

theorem State.enterPrivileged_setPort (s : State) (p : HostPort) (b : Bool) :
    (s.setPort p).enterPrivileged b = (s.enterPrivileged b).setPort p := by
  by_cases h : s.sr.s = b
  · rw [State.enterPrivileged_same h, State.enterPrivileged_same (s := s.setPort p) h]
  · rw [State.enterPrivileged_switch h, State.enterPrivileged_switch (s := s.setPort p) h]
    rfl

theorem step_setStatus {s : State} {v : Word} {rest : List HostCall} (h : s.port.calls = .setStatus v :: rest) :
    step s = .next ((s.setStatus v).setPort ⟨rest, .ok⟩) := by
  rw [step_call h (by simp)]
  simp only [hostTransaction, Op.modify_bind, answerHost_run, toOutcome_ok, State.setStatus, State.setSR_port,
    State.enterPrivileged_setPort]
  rfl

/-- Settles O20: the host's call, and that every instruction keeps the mode and the mask. -/
theorem setStatus : Obligations.SetStatus := by
  refine ⟨fun s v rest h => ?_, fun i s t h => ⟨(exec_frame h).mode, (exec_frame h).mask⟩⟩
  exact ⟨_, step_setStatus h, rfl, rfl, rfl, rfl, rfl, rfl, rfl, rfl, s.setStatus_word v⟩

/-! ### Reset (R44, R290) -/

theorem cell_resetTransaction (s : State) (pc : Long) (ccr : BitVec 5) (r : RegName) :
    (s.resetTransaction pc ccr).cell r = .unwritten := by
  cases r <;> simp [State.resetTransaction, State.cell]

theorem step_reset {s : State} {pc : Long} {ccr : BitVec 5} {rest : List HostCall}
    (h : s.port.calls = .reset pc ccr :: rest) :
    step s = .next ((s.resetTransaction pc ccr).setPort ⟨rest, .ok⟩) := by
  rw [step_call h (by simp)]
  rfl

/-- Settles O57: the reset transaction from any state. -/
theorem resetTransaction : Obligations.ResetTransaction := by
  intro s pc ccr rest h
  refine ⟨_, step_reset h, fun r => ?_, rfl, rfl, rfl, rfl, ⟨rfl, rfl, rfl, rfl, rfl⟩, StatusReg.word_unimplemented _,
    fun k => ?_, rfl, rfl, startup_dispatchTable _, rfl, rfl⟩
  · rw [State.cell_setPort, cell_resetTransaction]
  · simp [State.resetTransaction]

/-- Settles O58: each field of the state after reset. -/
theorem resetState : Obligations.ResetState := by
  refine ⟨by decide, fun k => ?_, rfl, rfl, fun r => ?_, rfl, rfl⟩
  · simp [State.reset]
  · cases r <;> simp [State.reset, State.cell, Config.launchRegister]

end Sys2Proof.Machine
end

section
/-! SUPPORT. Memory behind the bus (R61-R63, R69, R151): the bytes of a word and a long under the big order, addresses
that select one cell, and when an access is misaligned. -/

namespace Sys2Proof.Machine

/-- Settles O23: the byte array's two laws at each size. -/
theorem memoryReadAfterWrite : Obligations.MemoryReadAfterWrite :=
  fun _ a sz v hb => ⟨Bus.peek_poke hb a sz v, fun _ hc => Bus.peekByte_poke_outside v hc⟩

/-! ### The big order (R62) -/

theorem Bus.peek_word_big {b : Bus} (h : b.byteOrder = .big) (a : Long) :
    b.peek a .w = b.peek a .b ++ b.peek (a + 1) .b := by
  simp only [Bus.peek, Bus.peekWord, h, ByteOrder.joinWord]

theorem Bus.peek_long_big {b : Bus} (h : b.byteOrder = .big) (a : Long) :
    b.peek a .l = b.peek a .w ++ b.peek (a + 2) .w := by
  simp only [Bus.peek, Bus.peekLong, h, ByteOrder.joinLong]

theorem Bus.bytes_of_word_big {b : Bus} (h : b.byteOrder = .big) (a : Long) :
    (b.peek a .w).extractLsb' 8 8 = b.peek a .b ∧ (b.peek a .w).extractLsb' 0 8 = b.peek (a + 1) .b := by
  rw [Bus.peek_word_big h]
  exact ⟨BitVec.extractLsb'_append_eq_left, BitVec.extractLsb'_append_eq_right⟩

theorem Bus.words_of_long_big {b : Bus} (h : b.byteOrder = .big) (a : Long) :
    (b.peek a .l).extractLsb' 16 16 = b.peek a .w ∧ (b.peek a .l).extractLsb' 0 16 = b.peek (a + 2) .w := by
  rw [Bus.peek_long_big h]
  exact ⟨BitVec.extractLsb'_append_eq_left, BitVec.extractLsb'_append_eq_right⟩

/-- Settles O24: the bytes of a written word are those of the word read back. -/
theorem bigEndianBytes : Obligations.BigEndianBytes := by
  intro b a h
  obtain ⟨hhi, hlo⟩ := Bus.bytes_of_word_big h a
  obtain ⟨hhi', hlo'⟩ := Bus.words_of_long_big h a
  refine ⟨hhi, hlo, hhi', hlo', fun v hb => ?_⟩
  have hp : (b.poke a .w v).byteOrder = .big := (Bus.poke_byteOrder b a .w v).trans h
  obtain ⟨phi, plo⟩ := Bus.bytes_of_word_big hp a
  rw [Bus.peek_poke hb] at phi plo
  exact ⟨phi.symm, plo.symm⟩

/-! ### Addresses that select one cell (R69) -/

/-- Addresses that select one cell still do so when both move on by `d`. -/
theorem Bus.cell_add_congr {b : Bus} {a c : Long} (h : b.cell a = b.cell c) (d : Long) :
    b.cell (a + d) = b.cell (c + d) := by
  simp only [Bus.cell, BitVec.toNat_add] at h ⊢
  cases hn : b.addrBits <;> simp only [hn, AddrBits.count] at h ⊢ <;> omega

theorem Bus.peekByte_cell_congr {b : Bus} {a c : Long} (h : b.cell a = b.cell c) : b.peekByte a = b.peekByte c := by
  simp only [Bus.peekByte, h]

theorem Bus.pokeByte_cell_congr {b : Bus} {a c : Long} (h : b.cell a = b.cell c) (v : Byte) :
    b.pokeByte a v = b.pokeByte c v := by
  simp only [Bus.pokeByte, h]

theorem Bus.peekWord_cell_congr {b : Bus} {a c : Long} (h : b.cell a = b.cell c) : b.peekWord a = b.peekWord c := by
  simp only [Bus.peekWord, Bus.peekByte_cell_congr h, Bus.peekByte_cell_congr (Bus.cell_add_congr h 1)]

theorem Bus.pokeWord_cell_congr {b : Bus} {a c : Long} (h : b.cell a = b.cell c) (v : Word) :
    b.pokeWord a v = b.pokeWord c v := by
  rw [Bus.pokeWord, Bus.pokeWord, Bus.pokeByte_cell_congr h]
  exact Bus.pokeByte_cell_congr (b := b.pokeByte c _) (Bus.cell_add_congr h 1) _

/-- Settles O25: each byte of an access has its own cell, and all of them move along with the first. -/
theorem addressesDecodeModuloWidth : Obligations.AddressesDecodeModuloWidth := by
  intro b a c sz (h : b.cell a = b.cell c)
  have h2 := Bus.cell_add_congr h 2
  cases sz with
  | b => exact ⟨Bus.peekByte_cell_congr h, fun v => Bus.pokeByte_cell_congr h v⟩
  | w => exact ⟨Bus.peekWord_cell_congr h, fun v => Bus.pokeWord_cell_congr h v⟩
  | l =>
    refine ⟨?_, fun v => ?_⟩
    · simp only [Bus.peek, Bus.peekLong, Bus.peekWord_cell_congr h, Bus.peekWord_cell_congr h2]
    · simp only [Bus.poke, Bus.pokeLong, Bus.pokeWord_cell_congr h]
      exact Bus.pokeWord_cell_congr (b := b.pokeWord c _) h2 _

/-! ### Alignment (R63) -/

theorem misaligned_iff {a : Long} {sz : Size} : misaligned a sz = true ↔ sz ≠ .b ∧ a.toNat % 2 = 1 := by
  simp [misaligned, BitVec.getLsbD, Nat.testBit_zero]

/-- Settles O26: a misaligned access stops in the state it found; an aligned one stops only when the bus fails it. -/
theorem misalignedAccessFaults : Obligations.MisalignedAccessFaults := by
  refine fun k g a sz v s => ⟨fun hsz ha => ?odd, fun hal t => ?even⟩
  case odd =>
    have hm : misaligned a sz = true := misaligned_iff.mpr ⟨hsz, ha⟩
    exact ⟨busRead_error.mpr (.inl ⟨hm, rfl, rfl⟩), busWrite_error.mpr (.inl ⟨hm, rfl, rfl⟩)⟩
  case even =>
    have hm : misaligned a sz = false := by
      rw [← Bool.not_eq_true, misaligned_iff]
      rintro ⟨hsz, ha⟩
      rcases hal with hb | hb
      · exact hsz hb
      · omega
    exact ⟨by simp [busRead_error, hm], by simp [busWrite_error, hm]⟩

end Sys2Proof.Machine
end

section
/-! SUPPORT. A misaligned operand in memory is the instruction's fault (R63, R243, R247): reading it stops before the
access goes out, and the handler of each operand shape stops as its operand does. -/

namespace Sys2Proof.Machine

/-! ### Reading a misaligned operand -/

/-- With all its registers written, reading an operand is reading its location. -/
theorem readOperand_of_regs_written {sz : Size} {ea : EA sz} {c : Long} {s : State}
    (hw : (ea.regs.all fun r => (s.cell r).written) = true) : readOperand ea c s = (ea.loc s c).get s := by
  rw [EA.regs_eq ea s c, List.all_append, Bool.and_eq_true] at hw
  obtain ⟨haddr, -⟩ := hw
  exact readOperand_loc haddr

/-- In data space. -/
theorem readOperand_mem_misaligned {sz : Size} {ea : EA sz} {c a : Long} {s : State}
    (hw : (ea.regs.all fun r => (s.cell r).written) = true) (hl : ea.loc s c = .mem a)
    (hm : misaligned a sz = true) :
    readOperand ea c s = .error (.fault (.misaligned .operandRead s.dataTag a sz)) s := by
  rw [readOperand_of_regs_written hw, hl]
  exact busRead_error.mpr (.inl ⟨hm, rfl, rfl⟩)

/-- In program space. -/
theorem readOperand_prog_misaligned {sz : Size} {ea : EA sz} {c a : Long} {s : State}
    (hw : (ea.regs.all fun r => (s.cell r).written) = true) (hl : ea.loc s c = .prog a)
    (hm : misaligned a sz = true) :
    readOperand ea c s = .error (.fault (.misaligned .operandRead s.progTag a sz)) s := by
  rw [readOperand_of_regs_written hw, hl]
  exact busRead_error.mpr (.inl ⟨hm, rfl, rfl⟩)

theorem readOperand_postInc_misaligned {sz : Size} {n : Reg} {c v : Long} {s : State} (hc : s.cell (.a n) = .val v)
    (hm : misaligned v sz = true) :
    readOperand (.postInc n : EA sz) c s = .error (.fault (.misaligned .operandRead s.dataTag v sz)) s :=
  readOperand_mem_misaligned (by simp [EA.regs, hc]) (by simp [EA.loc, State.value, hc]) hm

theorem ready_postInc {sz : Size} {n : Reg} {c v : Long} {s : State} (hc : s.cell (.a n) = .val v)
    (hm : misaligned v sz = false) : (EA.postInc n : EA sz).ready s c = true := by
  simp [EA.ready, EA.regs, EA.loc, Loc.aligned, State.value, hc, hm]

/-! ### CMPM -/

/-- The operand at Ay is read first, and on the reference bus the read of an aligned one goes through. -/
theorem exec_postInc_misaligned {sz : Size} {ay ax : Reg} {i : Instr} {s : State} {y x : Long}
    (hv : i.view = .postInc sz ay ax) (hy : s.cell (.a ay) = .val y) (hx : s.cell (.a ax) = .val x) :
    (misaligned y sz = true → exec i s = .fault (.misaligned .operandRead s.dataTag y sz)) ∧
    (misaligned y sz = false → s.plainBus → misaligned x sz = true →
      exec i s = .fault (.misaligned .operandRead s.dataTag x sz)) := by
  refine ⟨fun hm => ?source, fun hm hp hm' => ?dest⟩
  case source => exact exec_fault hv (compareHandler_source_stop (readOperand_postInc_misaligned hy hm))
  case dest =>
    exact exec_fault hv (compareHandler_dest_stop (readOperand_plain hp (ready_postInc hy hm) (by simp [EA.variant]))
      (readOperand_postInc_misaligned (by rw [State.cell_logged, hx]) hm'))

/-- Settles O46: the four operand shapes. -/
theorem misalignedOperandFaults : Obligations.MisalignedOperandFaults := by
  refine ⟨fun h sz ea rx i s a hv hw hm => ⟨fun hl => ?toRegMem, fun hl => ?toRegProg⟩,
    fun h sz dn ea i s a hv hd hw hl hm => ?toEa, fun h sz v ea i s a hv hw hl hm => ?immToEa,
    fun _ _ _ _ _ _ _ hv hy hx => exec_postInc_misaligned hv hy hx⟩
  case toRegMem => exact exec_fault hv (runView_toReg_source_stop (readOperand_mem_misaligned hw hl hm))
  case toRegProg => exact exec_fault hv (runView_toReg_source_stop (readOperand_prog_misaligned hw hl hm))
  case toEa => exact exec_fault hv (runView_toEa_dest_stop hd (readOperand_mem_misaligned hw hl hm))
  case immToEa => exact exec_fault hv (runView_immToEa_dest_stop (readOperand_mem_misaligned hw hl hm))

end Sys2Proof.Machine
end

section
/-! SUPPORT. The accesses of an instruction on the bus port (R65, R70, R107, R172): its fetches, then the reads of its
operands, then the write of its destination if that is in memory. -/

namespace Sys2Proof.Machine

theorem Reads.log {s t : State} {xs : List Access} (h : Reads s t xs) : t.bus.log = s.bus.log ++ xs := by
  unfold Reads at h
  rw [h, State.setBus_bus]

/-! ### Fetches -/

/-- An extension fetch of a size that exists puts exactly that extension's read on the port. -/
theorem fetchExt_reads {c : Long} {n : Nat} {s t : State} {v : Long} (hn : n = 0 ∨ n = 2 ∨ n = 4)
    (h : fetchExt c n s = .ok v t) : Reads s t (extensionReads s.progTag c [n]) := by
  rcases hn with rfl | rfl | rfl
  · obtain ⟨-, rfl⟩ : 0 = v ∧ s = t := by simpa [fetchExt] using h
    exact .refl s
  · simp only [fetchExt, Op.get_bind, Op.bind_eq_ok, Op.pure_run, EStateM.Result.ok.injEq] at h
    obtain ⟨_, _, h, -, rfl⟩ := h
    obtain ⟨-, -, R⟩ := busRead_ok.mp h
    exact R
  · obtain ⟨-, -, R⟩ := busRead_ok.mp h
    exact R

/-- What fetching puts on the port, whatever the bus answers: the fetches of the instruction it gives (R107). -/
theorem fetchInstr_reads {s t : State} {i : Instr} (h : fetchInstr s = .ok i t) : Reads s t (i.fetches s) := by
  simp only [fetchInstr, Op.get_bind, Op.bind_eq_ok] at h
  obtain ⟨w, s1, h0, h⟩ := h
  obtain ⟨-, -, R0⟩ := busRead_ok.mp h0
  cases hl : lookup (dispatchTable s.families) w with
  | none => simp [hl] at h
  | some f =>
    simp only [hl, Op.bind_eq_ok, requireRegs_ok] at h
    obtain ⟨_, s2, ⟨-, rfl⟩, imm, s3, h1, x, s4, h2, h⟩ := h
    obtain ⟨hi, he⟩ := Form.sizes f
    have R1 := fetchExt_reads hi h1
    have R2 := fetchExt_reads he h2
    rw [R0.tags.2] at R1
    rw [(R0.trans R1).tags.2] at R2
    cases ha : f.assemble w imm x with
    | none => simp [ha] at h
    | some j =>
      obtain ⟨rfl, rfl⟩ : j = i ∧ s4 = t := by simpa [ha] using h
      have hx := extensionReads_append s.progTag [f.immSize] [f.eaSize] (s.pc + 2)
      rw [List.singleton_append, List.sum_singleton] at hx
      have R := R0.trans (R1.trans R2)
      rwa [← hx, ← extensionReads_view (lookup_row hl).1 w imm x, ← view_of_assemble ha] at R

/-- Extension reads take the program selector, none is of a byte, and there is at most one for each operand. -/
theorem extensionReads_spec (g : Tag) (ns : List Nat) : ∀ c : Long,
    (extensionReads g c ns).length ≤ ns.length ∧
    ∀ x ∈ extensionReads g c ns, x.kind = .extension ∧ x.tag = g ∧ x.size ≠ .b := by
  induction ns with
  | nil => exact fun _ => ⟨le_rfl, by simp [extensionReads]⟩
  | cons n ns ih =>
    intro c
    obtain ⟨hlen, hmem⟩ := ih (c + BitVec.ofNat 32 n)
    by_cases hn : n = 0
    · simp only [extensionReads, if_pos hn, List.nil_append, List.length_cons]
      exact ⟨Nat.le_succ_of_le hlen, hmem⟩
    · simp only [extensionReads, if_neg hn, List.singleton_append, List.length_cons]
      exact ⟨Nat.succ_le_succ hlen, List.forall_mem_cons.mpr ⟨⟨rfl, rfl, by split <;> simp⟩, hmem⟩⟩

/-! ### Operands -/

/-- From `s` to `t` the operand reads `rs` and then the writes `ws`, at most one, have gone out. -/
structure OperandAccesses (s t : State) (rs ws : List Access) : Prop where
  log : t.bus.log = s.bus.log ++ (rs ++ ws)
  oneWrite : ws.length ≤ 1
  reads : ∀ x ∈ rs, x.kind = .operandRead ∧ (x.tag = s.dataTag ∨ x.tag = s.progTag)
  writes : ∀ x ∈ ws, x.kind = .operandWrite ∧ x.tag = s.dataTag

/-- Operand accesses, `n` at most. -/
def AccessesWithin (n : Nat) (s t : State) : Prop :=
  ∃ rs ws, OperandAccesses s t rs ws ∧ rs.length + ws.length ≤ n

theorem AccessesWithin.mono {m n : Nat} {s t : State} (h : AccessesWithin m s t) (hmn : m ≤ n) :
    AccessesWithin n s t := by
  obtain ⟨rs, ws, A, hm⟩ := h
  exact ⟨rs, ws, A, hm.trans hmn⟩

/-- The number of bus reads an operand takes. -/
def readCount {sz : Size} (s : State) (c : Long) (ea : EA sz) : Nat := ((ea.loc s c).reads s).length

theorem Loc.length_reads {sz : Size} (l : Loc sz) (s : State) : (l.reads s).length ≤ 1 := by
  cases l <;> simp [Loc.reads]

theorem readCount_le {sz : Size} (s : State) (c : Long) (ea : EA sz) : readCount s c ea ≤ 1 :=
  (ea.loc s c).length_reads s

theorem readCount_dn {sz : Size} (s : State) (c : Long) (n : Reg) : readCount s c (.dn n : EA sz) = 0 := rfl

theorem readCount_imm {sz : Size} (s : State) (c : Long) (v : BitVec sz.bits) :
    readCount s c (.imm v : EA sz) = 0 := rfl

theorem Loc.mem_reads {sz : Size} {l : Loc sz} {s : State} {x : Access} (h : x ∈ l.reads s) :
    x.kind = .operandRead ∧ (x.tag = s.dataTag ∨ x.tag = s.progTag) := by
  cases l <;> simp_all [Loc.reads]

theorem Loc.mem_writes {sz : Size} {l : Loc sz} {s : State} {v : BitVec sz.bits} {x : Access} (h : x ∈ l.writes s v) :
    x.kind = .operandWrite ∧ x.tag = s.dataTag := by
  cases l <;> simp_all [Loc.writes]

theorem Loc.mem_reads_append {sz : Size} {l m : Loc sz} {s : State} {x : Access} (h : x ∈ l.reads s ++ m.reads s) :
    x.kind = .operandRead ∧ (x.tag = s.dataTag ∨ x.tag = s.progTag) :=
  (List.mem_append.mp h).elim Loc.mem_reads Loc.mem_reads

theorem compareHandler_accesses {sz : Size} {src dst : EA sz} {s t : State} {u : Unit}
    (h : compareHandler sz src dst s = .ok u t) :
    AccessesWithin (readCount s (s.pc + 2) src + readCount s (s.pc + 2 + BitVec.ofNat 32 src.extSize) dst) s t := by
  obtain ⟨x, y, r, R, rfl⟩ := compareHandler_ok h
  refine ⟨_, [], ⟨?_, by simp, fun _ => Loc.mem_reads_append, by simp⟩, List.length_append.le⟩
  simp [EA.finished_fields, R.log]

theorem compareAddressHandler_accesses {sz : Size} {src : EA sz} {n : Reg} {s t : State} {u : Unit}
    (h : compareAddressHandler sz src n s = .ok u t) : AccessesWithin (readCount s (s.pc + 2) src) s t := by
  obtain ⟨x, r, R, rfl⟩ := compareAddressHandler_ok h
  refine ⟨_, [], ⟨?_, by simp, fun _ => Loc.mem_reads, by simp⟩, le_rfl⟩
  simp [EA.finished_fields, R.log]

theorem Bus.writeAnswer_log (b : Bus) (a : Long) (sz : Size) (v : BitVec sz.bits) :
    (b.writeAnswer a sz v).1.log = b.log := by
  unfold Bus.writeAnswer
  split <;> simp

/-- A store goes out on the port when its location is in memory, where the operand has been read. -/
theorem Stores.log {sz : Size} {l : Loc sz} {v : BitVec sz.bits} {r w : State} (h : Stores l v r w) (s : State) :
    w.bus.log = r.bus.log ++ l.writes r v ∧ (l.writes r v).length ≤ (l.reads s).length := by
  rcases h with ⟨n, rfl, rfl⟩ | ⟨a, rfl, -, -, rfl⟩
  · simp [Loc.writes]
  · simp [Loc.writes, Loc.reads, Bus.writeAnswer_log]

/-- A destination in memory is accessed twice. -/
theorem logicalHandler_accesses {op : LogicalOp} {sz : Size} {src dst : EA sz} {s t : State} {u : Unit}
    (h : logicalHandler op sz src dst s = .ok u t) :
    AccessesWithin (readCount s (s.pc + 2) src + 2 * readCount s (s.pc + 2 + BitVec.ofNat 32 src.extSize) dst) s t := by
  obtain ⟨x, y, r, w, R, S, rfl⟩ := logicalHandler_ok h
  obtain ⟨hlog, hlen⟩ := S.log s
  refine ⟨(src.loc s (s.pc + 2)).reads s ++ (dst.loc s (s.pc + 2 + BitVec.ofNat 32 src.extSize)).reads s, _,
    ⟨?_, hlen.trans (Loc.length_reads _ s), fun _ => Loc.mem_reads_append, fun z hz => ?_⟩, ?_⟩
  · simp [EA.finished_fields, hlog, R.log]
  · rw [← R.tags.1]
    exact Loc.mem_writes hz
  · simp only [List.length_append, readCount]
    omega

/-! ### The four shapes -/

/-- The most operand accesses a shape can make: one read of a source `<ea>`, a read and a write of a destination `<ea>`,
two reads of CMPM. -/
def viewAccessLimit : View → Nat
  | .toReg _ _ _ _ => 1
  | .toEa _ _ _ _ | .immToEa _ _ _ _ | .postInc _ _ _ => 2

/-- With an access for each extension these are four at most (R301). -/
theorem viewAccessLimit_add_extSizes (v : View) : viewAccessLimit v + v.extSizes.length ≤ 4 := by
  cases v <;> simp [viewAccessLimit, View.extSizes]

theorem runView_accesses {v : View} {s t : State} {u : Unit} (h : runView v s = .ok u t) :
    AccessesWithin (viewAccessLimit v) s t := by
  cases v with
  | toReg g sz ea rx =>
    have hn := readCount_le s (s.pc + 2) ea
    rcases runView_toReg g ea rx with ⟨-, op, hv⟩ | ⟨-, hv⟩ | ⟨-, hv⟩ <;> rw [hv] at h
    · exact (logicalHandler_accesses h).mono (by rw [readCount_dn]; exact hn)
    · exact (compareAddressHandler_accesses h).mono hn
    · exact (compareHandler_accesses h).mono (by rw [readCount_dn]; exact hn)
  | toEa g sz rx ea =>
    have hn := readCount_le s (s.pc + 2 + BitVec.ofNat 32 (EA.dn rx : EA sz).extSize) ea
    rcases runView_toEa g rx ea with ⟨op, hv⟩ | hv <;> rw [hv] at h
    · exact (logicalHandler_accesses h).mono (by rw [readCount_dn, viewAccessLimit]; omega)
    · exact (compareHandler_accesses h).mono (by rw [readCount_dn, viewAccessLimit]; omega)
  | immToEa g sz x ea =>
    have hn := readCount_le s (s.pc + 2 + BitVec.ofNat 32 (EA.imm x : EA sz).extSize) ea
    rcases runView_immToEa g x ea with ⟨op, hv⟩ | hv <;> rw [hv] at h
    · exact (logicalHandler_accesses h).mono (by rw [readCount_imm, viewAccessLimit]; omega)
    · exact (compareHandler_accesses h).mono (by rw [readCount_imm, viewAccessLimit]; omega)
  | postInc sz ay ax =>
    exact (compareHandler_accesses h).mono (Nat.add_le_add (readCount_le _ _ _) (readCount_le _ _ _))

/-! ### The whole transaction -/

/-- One instruction: the fetch answers, and the instruction runs from there. -/
theorem decodeAndExecute_next {s t : State} (h : decodeAndExecute s = .next t) :
    ∃ i u, fetchInstr s = .ok i u ∧ exec i u = .next t := by
  unfold decodeAndExecute at h
  cases hf : fetchInstr s with
  | ok i u => exact ⟨i, u, rfl, by rwa [hf] at h⟩
  | error e u => cases e <;> simp [hf] at h

/-- Settles O43: the fetches, the operand reads and the write, in this order. -/
theorem accessesOfAnInstruction : Obligations.AccessesOfAnInstruction := by
  intro s t h
  obtain ⟨i, u, hf, he⟩ := decodeAndExecute_next h
  rw [exec_eq, toOutcome_eq_next] at he
  obtain ⟨_, he⟩ := he
  have R := fetchInstr_reads hf
  obtain ⟨hdata, hprog⟩ := R.tags
  have hlimit := viewAccessLimit_add_extSizes i.view
  obtain ⟨rs, ws, ⟨hlog, hone, hreads, hwrites⟩, hcount⟩ := runView_accesses he
  obtain ⟨hlen, hext⟩ := extensionReads_spec s.progTag i.view.extSizes (s.pc + 2)
  rw [hdata, hprog] at hreads
  rw [hdata] at hwrites
  refine ⟨extensionReads s.progTag (s.pc + 2) i.view.extSizes, rs, ws, ?_, by omega, hone, hext, hreads, hwrites⟩
  simp [hlog, R.log, Instr.fetches]

end Sys2Proof.Machine
end

section
/-! SUPPORT. The dispatch table as a function of the word (R100-R103, R108): which tables startup accepts, which row a
lookup finds, and what each line of the opcode map holds. -/

namespace Sys2Proof

/-! ### Rows that one word matches (R103) -/

theorem Entry.hits_iff {e : Entry} {w : Word} : e.hits w = true ↔ e.base = w &&& ~~~e.dontCare := by
  rw [Entry.hits, beq_iff_eq]

theorem Form.hits_iff {f : Form} {w : Word} : f.entry.hits w = true ↔ f.base = w &&& ~~~f.dontCare :=
  Entry.hits_iff (e := f.entry)

theorem Entry.overlaps_of_hits {e f : Entry} {w : Word} (he : e.hits w = true) (hf : f.hits w = true) :
    e.overlaps f = true := by
  rw [Entry.hits_iff] at he hf
  rw [Entry.overlaps, beq_iff_eq, he, hf]
  apply BitVec.eq_of_getLsbD_eq
  intro k hk
  simp only [BitVec.getLsbD_and, BitVec.getLsbD_xor, BitVec.getLsbD_not, hk]
  cases hd : e.dontCare.getLsbD k <;> cases hd' : f.dontCare.getLsbD k <;> simp

theorem Entry.overlaps_comm (e f : Entry) : e.overlaps f = f.overlaps e := by
  rw [Entry.overlaps, Entry.overlaps, BitVec.xor_comm, BitVec.and_assoc, BitVec.and_comm (~~~e.dontCare),
    ← BitVec.and_assoc]

/-- A row whose base has no don't-care bit set matches the two bases put together, if it overlaps the other row (C4). -/
theorem Entry.hits_or_of_overlaps {e f : Entry} (he : e.base &&& e.dontCare = 0) (hf : f.base &&& f.dontCare = 0)
    (h : e.overlaps f = true) : e.hits (e.base ||| f.base) = true := by
  rw [Entry.overlaps, beq_iff_eq] at h
  rw [Entry.hits_iff]
  apply BitVec.eq_of_getLsbD_eq
  intro k hk
  have hek := congrArg (BitVec.getLsbD · k) he
  have hfk := congrArg (BitVec.getLsbD · k) hf
  have hk' := congrArg (BitVec.getLsbD · k) h
  simp only [BitVec.getLsbD_and, BitVec.getLsbD_or, BitVec.getLsbD_xor, BitVec.getLsbD_not,
    hk] at hek hfk hk' ⊢
  cases hd : e.dontCare.getLsbD k <;> cases hd' : f.dontCare.getLsbD k <;> simp_all

theorem Entry.base_and_dontCare {e : Entry} (h : e.acceptable = true) : e.base &&& e.dontCare = 0 := by
  simp only [Entry.acceptable, Bool.and_eq_true, beq_iff_eq] at h
  exact h.1.1.1

/-- The overlap test is exact on acceptable rows. -/
theorem Entry.overlaps_iff {e f : Entry} (he : e.acceptable = true) (hf : f.acceptable = true) :
    e.overlaps f = true ↔ ∃ w, e.hits w = true ∧ f.hits w = true := by
  constructor
  · intro h
    have he := Entry.base_and_dontCare he
    have hf := Entry.base_and_dontCare hf
    refine ⟨e.base ||| f.base, Entry.hits_or_of_overlaps he hf h, ?_⟩
    rw [BitVec.or_comm]
    exact Entry.hits_or_of_overlaps hf he (Entry.overlaps_comm e f ▸ h)
  · rintro ⟨w, he, hf⟩
    exact Entry.overlaps_of_hits he hf

/-- No word matches both rows. -/
def Entry.excludes (e f : Entry) : Prop := ∀ w, ¬ (e.hits w = true ∧ f.hits w = true)

theorem tableValid_iff {t : List Entry} :
    tableValid t = true ↔ (∀ e ∈ t, e.acceptable = true) ∧ t.Pairwise Entry.excludes := by
  induction t with
  | nil => simp [tableValid]
  | cons e t ih =>
    have hex : e.acceptable = true → (∀ f ∈ t, f.acceptable = true) →
        (t.all (fun f => !e.overlaps f) = true ↔ ∀ f ∈ t, e.excludes f) := by
      intro he ht
      simp only [List.all_eq_true, Bool.not_eq_true', ← Bool.not_eq_true]
      refine forall₂_congr fun f hf => ?_
      rw [Entry.overlaps_iff he (ht f hf), not_exists, Entry.excludes]
    simp only [tableValid, Bool.and_eq_true, ih, List.forall_mem_cons, List.pairwise_cons]
    constructor
    · rintro ⟨⟨he, hall⟩, ht, hp⟩
      exact ⟨⟨he, ht⟩, (hex he ht).mp hall, hp⟩
    · rintro ⟨⟨he, ht⟩, hall, hp⟩
      exact ⟨⟨he, (hex he ht).mpr hall⟩, ht, hp⟩

/-- Settles O1: the validation is acceptance of each row and exclusion of each pair. -/
theorem validatedTablesAreExclusive : Obligations.ValidatedTablesAreExclusive := by
  intro t
  rw [startup]
  exact if_congr tableValid_iff rfl rfl

/-! ### The row a lookup finds (R102) -/

theorem mem_dispatchTable_default {f : Form} (hf : f.legal = true) : f.entry ∈ dispatchTable Families.default := by
  rw [dispatchTable_eq]
  exact List.mem_map_of_mem (forall_legal (fun _ h => h) hf)

theorem lookup_of_hits {f : Form} {w : Word} (hf : f.legal = true) (hw : f.entry.hits w = true) :
    lookup (dispatchTable Families.default) w = some f := by
  obtain ⟨g, hg⟩ : ∃ g, lookup (dispatchTable Families.default) w = some g := by
    have hs : ((dispatchTable Families.default).find? (·.hits w)).isSome = true :=
      List.find?_isSome.mpr ⟨_, mem_dispatchTable_default hf, hw⟩
    obtain ⟨e, he⟩ := Option.isSome_iff_exists.mp hs
    exact ⟨e.form, by rw [lookup, he, Option.map_some]⟩
  obtain ⟨hgl, hgw⟩ := lookup_row hg
  rw [hg, eq_of_overlaps hgl hf (Entry.overlaps_of_hits hgw hw)]

/-- Settles O2: what is found is a legal row that matches, and two legal rows that match are one. -/
theorem lookupFindsTheMatchingRow : Obligations.LookupFindsTheMatchingRow := by
  intro w f
  rw [← Form.hits_iff]
  exact ⟨lookup_row, fun h => lookup_of_hits h.1 h.2⟩

/-! ### The lines of the opcode map (R108) -/

/-- What the line `l` of the opcode map (bits 15:12) may hold. -/
def lineHolds (l : BitVec 4) (h : Handler) : Prop :=
  (l = 0b0000 ∧ h ∈ [Handler.ori, .andi, .eori, .cmpi]) ∨ (l = 0b1000 ∧ h ∈ [Handler.orToReg, .orToEa]) ∨
    (l = 0b1011 ∧ h ∈ [Handler.cmp, .cmpa, .cmpm, .eor]) ∨ (l = 0b1100 ∧ h ∈ [Handler.andToReg, .andToEa])

theorem lineHolds_base {f : Form} (hf : f.legal = true) : lineHolds (f.base.extractLsb' 12 4) f.handler :=
  forall_legal (p := fun f => lineHolds (f.base.extractLsb' 12 4) f.handler) (by unfold lineHolds; decide +kernel) hf

/-- No row's register fields reach the line. -/
theorem line_dontCare (f : Form) : (~~~f.dontCare).extractLsb' 12 4 = BitVec.allOnes 4 := by
  rw [Form.dontCare]
  cases f.handler.hasRx <;> cases f.variant.hasReg <;> decide

/-- Whichever families are installed, a word's row is one of its line's. -/
theorem lineHolds_of_lookup {fam : Families} {w : Word} {f : Form} (h : lookup (dispatchTable fam) w = some f) :
    lineHolds (w.extractLsb' 12 4) f.handler := by
  obtain ⟨hf, hw⟩ := lookup_row h
  have hb : f.base = w &&& ~~~f.dontCare := Form.hits_iff.mp hw
  have hline : f.base.extractLsb' 12 4 = w.extractLsb' 12 4 := by
    rw [hb, BitVec.extractLsb'_and, line_dontCare, BitVec.and_allOnes]
  exact hline ▸ lineHolds_base hf

theorem lookup_of_unused_line {fam : Families} {w : Word}
    (h : w.extractLsb' 12 4 ∉ [0b0000#4, 0b1000#4, 0b1011#4, 0b1100#4]) : lookup (dispatchTable fam) w = none := by
  rw [Option.eq_none_iff_forall_ne_some]
  intro f hf
  apply h
  rcases lineHolds_of_lookup hf with ⟨hl, -⟩ | ⟨hl, -⟩ | ⟨hl, -⟩ | ⟨hl, -⟩ <;> rw [hl] <;> decide

end Sys2Proof

namespace Sys2Proof.Machine

/-! ### Faults of the opcode word (R104, R107) -/

theorem decodeAndExecute_fault {s t : State} {f : Fault} (h : fetchInstr s = .error (.fault f) t) :
    decodeAndExecute s = .fault f := by
  rw [decodeAndExecute, h]

theorem decodeAndExecute_ok {s t : State} {i : Instr} (h : fetchInstr s = .ok i t) : decodeAndExecute s = exec i t := by
  rw [decodeAndExecute, h]

/-- With no host call and no interrupt due, a step is one instruction. -/
theorem step_atInstruction {s : State} (h : s.atInstruction) : step s = decodeAndExecute s := by
  obtain ⟨hc, hd⟩ := h
  simp only [step, hc, loopIteration, maybeDeliverInterrupt_none hd]

/-- Settles O9: the opcode fetch answers, and nothing follows it. -/
theorem illegalWordFaults : Obligations.IllegalWordFaults := by
  intro s w hm hr hl
  have hread : busRead .opcode s.progTag s.pc .w s =
      .ok w (s.setBus (s.bus.issue ⟨.opcode, s.progTag, s.pc, .w, none⟩)) :=
    busRead_ok.mpr ⟨hm, hr, by simp [Reads, Bus.issue]⟩
  have hf : fetchInstr s =
      .error (.fault (.illegal s.pc w)) (s.setBus (s.bus.issue ⟨.opcode, s.progTag, s.pc, .w, none⟩)) := by
    simp only [fetchInstr, Op.get_bind]
    rw [Op.bind_of_ok hread]
    simp only [hl, raise_run]
  exact ⟨decodeAndExecute_fault hf, hf⟩

/-- Settles O10: the opcode fetch is the first access, and it is of a word. -/
theorem oddPcFaults : Obligations.OddPcFaults := by
  intro s hodd
  have hm : misaligned s.pc .w = true := by rw [misaligned, hodd]; rfl
  have hf : fetchInstr s = .error (.fault (.misaligned .opcode s.progTag s.pc .w)) s := by
    simp only [fetchInstr, Op.get_bind]
    exact Op.bind_of_error (busRead_error.mpr (.inl ⟨hm, rfl, rfl⟩))
  exact ⟨decodeAndExecute_fault hf, fun h => by rw [step_atInstruction h, decodeAndExecute_fault hf]⟩

/-- Settles O3: a row's line is its base pattern's, and a word without a row is illegal. -/
theorem linesOfTheOpcodeMap : Obligations.LinesOfTheOpcodeMap :=
  ⟨fun _ _ h => lineHolds_of_lookup h,
    fun s hm w hr hw => (illegalWordFaults s w hm hr (lookup_of_unused_line hw)).1⟩

end Sys2Proof.Machine
end

section
/-! SUPPORT. Decoding an encoded instruction gives it back, and what is decoded encodes to the opcode word it was decoded
from (R91-R99). The opcode word is a row's base pattern with register fields; the extensions are pieces of the stream. -/

namespace Sys2Proof

/-! ### The register fields of an opcode word (R91, R101) -/

/-- The two register fields, and 0 in every other bit. -/
def regFields (rx ry : Reg) : Word := BitVec.ofNat 16 rx.val <<< 9 ||| BitVec.ofNat 16 ry.val

theorem Form.word_eq (f : Form) (rx ry : Reg) : f.word rx ry = f.base ||| regFields rx ry := BitVec.or_assoc ..

theorem and_not_or_and {n : Nat} (w m : BitVec n) : w &&& ~~~m ||| w &&& m = w := by
  ext k hk
  cases h : m[k] <;> simp [h]

theorem regFields_rx : ∀ rx ry : Reg, (regFields rx ry).extractLsb' 9 3 = BitVec.ofFin rx := by decide

theorem regFields_ry : ∀ rx ry : Reg, (regFields rx ry).extractLsb' 0 3 = BitVec.ofFin ry := by decide

/-- The don't-care bits of a row are 0 in its base pattern. -/
theorem base_fields {f : Form} (h : f.legal = true) :
    (f.handler.hasRx = true → f.base.extractLsb' 9 3 = 0) ∧ (f.variant.hasReg = true → f.base.extractLsb' 0 3 = 0) :=
  forall_legal (p := fun f => (f.handler.hasRx = true → f.base.extractLsb' 9 3 = 0) ∧
    (f.variant.hasReg = true → f.base.extractLsb' 0 3 = 0)) (by decide +kernel) h

theorem rxField_word {f : Form} (h : f.legal = true) (hx : f.handler.hasRx = true) (rx ry : Reg) :
    rxField (f.word rx ry) = rx := by
  rw [rxField, Form.word_eq, BitVec.extractLsb'_or, (base_fields h).1 hx, regFields_rx]
  exact congrArg BitVec.toFin BitVec.zero_or

theorem ryField_word {f : Form} (h : f.legal = true) (hy : f.variant.hasReg = true) (rx ry : Reg) :
    ryField (f.word rx ry) = ry := by
  rw [ryField, Form.word_eq, BitVec.extractLsb'_or, (base_fields h).2 hy, regFields_ry]
  exact congrArg BitVec.toFin BitVec.zero_or

/-- A row that has no field for a register leaves its number 0. -/
def Form.admits (f : Form) (rx ry : Reg) : Prop :=
  (f.handler.hasRx = false → rx = 0) ∧ (f.variant.hasReg = false → ry = 0)

/-- A row matches its base pattern with any register numbers put in. -/
theorem hits_word {f : Form} (h : f.legal = true) {rx ry : Reg} (ha : f.admits rx ry) :
    f.entry.hits (f.word rx ry) = true := by
  have inside : ∀ hasRx hasReg : Bool, ∀ rx ry : Reg, (hasRx = false → rx = 0) → (hasReg = false → ry = 0) →
      regFields rx ry &&& ~~~((if hasRx then 0x0E00 else 0) ||| (if hasReg then 0x0007 else 0)) = 0 := by
    decide +kernel
  have hb : f.base &&& ~~~f.dontCare = f.base := by
    obtain ⟨-, -, hb⟩ := base_dontCare h
    simpa [hb] using and_not_or_and f.base f.dontCare
  rw [Form.hits_iff, Form.word_eq, BitVec.and_or_distrib_right, hb, Form.dontCare, inside _ _ _ _ ha.1 ha.2]
  exact BitVec.or_zero.symm

/-- The number a row reads out of bits 11:9 of a word; 0 where it has no such field. -/
def Form.rxOf (f : Form) (w : Word) : Reg := if f.handler.hasRx then rxField w else 0

/-- The number a row reads out of bits 2:0 of a word; 0 where it has no such field. -/
def Form.ryOf (f : Form) (w : Word) : Reg := if f.variant.hasReg then ryField w else 0

theorem regFields_of_word (w : Word) :
    regFields (rxField w) 0 = w &&& 0x0E00 ∧ regFields 0 (ryField w) = w &&& 0x0007 := by
  have hrx : BitVec.ofNat 16 (rxField w).val = (w.extractLsb' 9 3).setWidth 16 := BitVec.ofNat_toNat ..
  have hry : BitVec.ofNat 16 (ryField w).val = (w.extractLsb' 0 3).setWidth 16 := BitVec.ofNat_toNat ..
  constructor <;> apply BitVec.eq_of_getLsbD_eq <;> intro k hk
  · rw [regFields, hrx]
    interval_cases k <;> simp
  · rw [regFields, hry]
    interval_cases k <;> simp

/-- The don't-care bits of a word are the register fields its row reads out of it. -/
theorem and_dontCare (f : Form) (w : Word) : w &&& f.dontCare = regFields (f.rxOf w) (f.ryOf w) := by
  obtain ⟨hx, hy⟩ := regFields_of_word w
  have fields : ∀ rx ry : Reg, regFields rx ry = regFields rx 0 ||| regFields 0 ry := by decide
  have empty : regFields 0 0 = 0 := rfl
  rw [Form.dontCare, Form.rxOf, Form.ryOf, BitVec.and_or_distrib_left, fields]
  cases f.handler.hasRx <;> cases f.variant.hasReg <;> simp [hx, hy, empty]

/-- A word is its row's base pattern with the register numbers read out of it. -/
theorem word_of_hits {f : Form} {w : Word} (h : f.entry.hits w = true) : f.word (f.rxOf w) (f.ryOf w) = w := by
  rw [Form.hits_iff] at h
  rw [Form.word_eq, ← and_dontCare, h, and_not_or_and]

/-! ### Pieces of the instruction stream (R62, R96-R98, R131) -/

theorem ByteOrder.splitWord_joinWord (o : ByteOrder) (x y : Byte) : o.splitWord (o.joinWord x y) = (x, y) := by
  cases o <;> simp only [ByteOrder.joinWord, ByteOrder.splitWord, Prod.mk.injEq]
  · exact ⟨BitVec.extractLsb'_append_eq_left, BitVec.extractLsb'_append_eq_right⟩
  · exact ⟨BitVec.extractLsb'_append_eq_right, BitVec.extractLsb'_append_eq_left⟩

/-- A word is taken from a stream exactly when its two bytes are at the head. -/
theorem takeWord_eq_some {o : ByteOrder} {bs t : List Byte} {w : Word} :
    takeWord o bs = some (w, t) ↔ bs = o.wordBytes w ++ t := by
  constructor
  · intro h
    match bs, h with
    | x :: y :: t', h =>
      simp only [takeWord, Option.some.injEq, Prod.mk.injEq] at h
      obtain ⟨rfl, rfl⟩ := h
      rw [ByteOrder.wordBytes, o.splitWord_joinWord]
      rfl
  · rintro rfl
    simp [takeWord, ByteOrder.wordBytes, Machine.ByteOrder.joinWord_splitWord]

/-- What is taken as an extension of `n` bytes are the first `n` bytes. -/
theorem eq_append_of_takeExt {o : ByteOrder} {n : Nat} {bs t : List Byte} {x : Long} (hn : n = 0 ∨ n = 2 ∨ n = 4)
    (h : takeExt o n bs = some (x, t)) : ∃ p : List Byte, p.length = n ∧ bs = p ++ t := by
  rcases hn with rfl | rfl | rfl
  · simp only [takeExt, Option.some.injEq, Prod.mk.injEq] at h
    exact ⟨[], rfl, h.2⟩
  · simp only [takeExt, Option.map_eq_some_iff, Prod.mk.injEq] at h
    obtain ⟨⟨w, t'⟩, hw, -, rfl⟩ := h
    exact ⟨o.wordBytes w, o.wordBytes_length w, takeWord_eq_some.mp hw⟩
  · match bs, h with
    | x :: y :: z :: u :: t', h =>
      simp only [takeExt, takeLong, Option.some.injEq, Prod.mk.injEq] at h
      exact ⟨[x, y, z, u], rfl, by rw [← h.2]; rfl⟩

theorem takeExt_word (o : ByteOrder) (v : Word) (t : List Byte) :
    takeExt o 2 ((ExtItem.word v).bytes o ++ t) = some (v.setWidth 32, t) := by
  rw [takeExt, ExtItem.bytes, takeWord_eq_some.mpr rfl, Option.map_some]

theorem takeExt_long (o : ByteOrder) (v : Long) (t : List Byte) :
    takeExt o 4 ((ExtItem.long v).bytes o ++ t) = some (v, t) := by
  simp [takeExt, takeLong, ExtItem.bytes, ByteOrder.wordBytes, Machine.ByteOrder.joinWord_splitWord,
    Machine.ByteOrder.joinLong_splitLong]

theorem takeExt_imm (o : ByteOrder) (sz : Size) (v : BitVec sz.bits) (t : List Byte) :
    ∃ x : Long, takeExt o (Variant.imm.extSize sz) ((immItem sz v).bytes o ++ t) = some (x, t) ∧
      x.setWidth sz.bits = v := by
  cases sz
  case b => exact ⟨_, takeExt_word o _ t, by simp [Size.bits]⟩
  case w => exact ⟨_, takeExt_word o _ t, by simp⟩
  case l => exact ⟨_, takeExt_long o _ t, by simp⟩

/-- A brief extension word without its displacement (R95). -/
def Brief.high (x : Brief) : Word :=
  (BitVec.ofBool x.isAddr).setWidth 16 <<< 15 ||| BitVec.ofNat 16 x.reg.val <<< 12 |||
    (BitVec.ofBool x.isLong).setWidth 16 <<< 11

theorem Brief.word_eq (x : Brief) : x.word = x.high ||| x.d8.setWidth 16 := rfl

theorem Brief.high_fields (x : Brief) : x.high.getLsbD 15 = x.isAddr ∧ x.high.extractLsb' 12 3 = BitVec.ofFin x.reg ∧
    x.high.getLsbD 11 = x.isLong ∧ x.high.extractLsb' 0 8 = 0 := by
  obtain ⟨a, n, l, -⟩ := x
  simp only [Brief.high]
  revert a n l
  decide

theorem displacement_fields (d : Byte) : (d.setWidth 16).getLsbD 15 = false ∧ (d.setWidth 16).extractLsb' 12 3 = 0 ∧
    (d.setWidth 16).getLsbD 11 = false ∧ (d.setWidth 16).extractLsb' 0 8 = d := by
  refine ⟨by simp, ?_, by simp, ?_⟩ <;> apply BitVec.eq_of_getLsbD_eq <;> intro k hk
  · simp only [BitVec.getLsbD_extractLsb', BitVec.getLsbD_setWidth, BitVec.getLsbD_of_ge d (12 + k) (by omega)]
    simp
  · simp [show k < 16 by omega, hk]

theorem Brief.ofWord_word (x : Brief) : Brief.ofWord x.word = x := by
  obtain ⟨ha, hn, hl, hd⟩ := x.high_fields
  obtain ⟨la, ln, ll, ld⟩ := displacement_fields x.d8
  simp only [Brief.ofWord, Brief.word_eq, BitVec.getLsbD_or, BitVec.extractLsb'_or, ha, hn, hl, hd, la, ln, ll, ld]
  simp

/-- An operand is rebuilt from its variant, its register number and the extension its bytes are read as. -/
theorem EA.make_of_items {sz : Size} (ea : EA sz) (o : ByteOrder) (t : List Byte) :
    ∃ x : Long, takeExt o (ea.variant.extSize sz) (ea.items.flatMap (ExtItem.bytes o) ++ t) = some (x, t) ∧
      ∀ n : Reg, (ea.variant.hasReg = true → n = ea.regField) → EA.make sz n x ea.variant = ea := by
  cases ea with
  | dn n => exact ⟨0, rfl, fun m hm => congrArg EA.dn (hm rfl)⟩
  | an n => exact ⟨0, rfl, fun m hm => congrArg EA.an (hm rfl)⟩
  | ind n => exact ⟨0, rfl, fun m hm => congrArg EA.ind (hm rfl)⟩
  | postInc n => exact ⟨0, rfl, fun m hm => congrArg EA.postInc (hm rfl)⟩
  | preDec n => exact ⟨0, rfl, fun m hm => congrArg EA.preDec (hm rfl)⟩
  | disp n d => exact ⟨_, takeExt_word o d t, fun m hm => by simp [EA.make, EA.variant, hm rfl, EA.regField]⟩
  | index n x =>
    exact ⟨_, takeExt_word o x.word t, fun m hm => by
      simp [EA.make, EA.variant, hm rfl, EA.regField, Brief.ofWord_word]⟩
  | absW a => exact ⟨_, takeExt_word o a t, fun m _ => by simp [EA.make, EA.variant]⟩
  | absL a => exact ⟨_, takeExt_long o a t, fun m _ => rfl⟩
  | pcDisp d => exact ⟨_, takeExt_word o d t, fun m _ => by simp [EA.make, EA.variant]⟩
  | pcIndex x => exact ⟨_, takeExt_word o x.word t, fun m _ => by simp [EA.make, EA.variant, Brief.ofWord_word]⟩
  | imm v =>
    obtain ⟨x, hx, hv⟩ := takeExt_imm o sz v t
    exact ⟨x, by simpa [EA.items, EA.variant] using hx, fun m _ => congrArg EA.imm hv⟩

/-! ### The shape of an instruction (R92) -/

/-- The register number in bits 11:9 of a shape's opcode word. -/
def View.rx : View → Reg
  | .toReg _ _ _ rx => rx
  | .toEa _ _ rx _ => rx
  | .immToEa _ _ _ _ => 0
  | .postInc _ _ ax => ax

/-- The register number in bits 2:0 of a shape's opcode word. -/
def View.ry : View → Reg
  | .toReg _ _ ea _ => ea.regField
  | .toEa _ _ _ ea => ea.regField
  | .immToEa _ _ _ ea => ea.regField
  | .postInc _ ay _ => ay

theorem View.opword_eq (v : View) : v.opword = v.form.word v.rx v.ry := by cases v <;> rfl

theorem EA.regField_of_not_hasReg {sz : Size} {ea : EA sz} (h : ea.variant.hasReg = false) : ea.regField = 0 := by
  cases ea <;> simp [EA.variant, Variant.hasReg, EA.regField] at h ⊢

/-- A shape has a register number only where its row has the field. -/
theorem View.form_admits {v : View} (h : Machine.viewReal v) : v.form.admits v.rx v.ry := by
  cases v with
  | toReg h' sz ea rx =>
    refine ⟨fun hx => ?_, EA.regField_of_not_hasReg⟩
    rcases h with rfl | ⟨rfl, -⟩ | rfl | rfl <;> cases hx
  | toEa h' sz rx ea =>
    refine ⟨fun hx => ?_, EA.regField_of_not_hasReg⟩
    rcases h with rfl | rfl | rfl <;> cases hx
  | immToEa h' sz v ea => exact ⟨fun _ => rfl, EA.regField_of_not_hasReg⟩
  | postInc sz ay ax => exact ⟨nofun, nofun⟩

/-- A shape is rebuilt from its row, a word with its register numbers, and what its extensions are read as. -/
theorem View.form_view {v : View} (hr : Machine.viewReal v) {w : Word}
    (hx : v.form.handler.hasRx = true → rxField w = v.rx) (hy : v.form.variant.hasReg = true → ryField w = v.ry)
    (o : ByteOrder) (t : List Byte) :
    ∃ imm x bs, takeExt o v.form.immSize (v.items.flatMap (ExtItem.bytes o) ++ t) = some (imm, bs) ∧
      takeExt o v.form.eaSize bs = some (x, t) ∧ v.form.view w imm x = v := by
  cases v with
  | toReg h sz ea rx =>
    obtain ⟨x, hext, hmake⟩ := ea.make_of_items o t
    refine ⟨0, x, _, ?_, hext, ?_⟩
    · rcases hr with rfl | ⟨rfl, -⟩ | rfl | rfl <;> rfl
    · rcases hr with rfl | ⟨rfl, -⟩ | rfl | rfl <;>
        exact congrArg₂ (View.toReg _ sz) (hmake _ hy) (hx rfl)
  | toEa h sz rx ea =>
    obtain ⟨x, hext, hmake⟩ := ea.make_of_items o t
    refine ⟨0, x, _, ?_, hext, ?_⟩
    · rcases hr with rfl | rfl | rfl <;> rfl
    · rcases hr with rfl | rfl | rfl <;> exact congrArg₂ (View.toEa _ sz) (hx rfl) (hmake _ hy)
  | immToEa h sz v ea =>
    obtain ⟨x, hext, hmake⟩ := ea.make_of_items o t
    obtain ⟨imm, himm, hv⟩ := takeExt_imm o sz v (ea.items.flatMap (ExtItem.bytes o) ++ t)
    refine ⟨imm, x, _, ?_, hext, ?_⟩
    · rw [View.items, List.flatMap_cons, List.append_assoc]
      rcases hr with rfl | rfl | rfl | rfl <;> exact himm
    · rcases hr with rfl | rfl | rfl | rfl <;> exact congrArg₂ (View.immToEa _ sz) hv (hmake _ hy)
  | postInc sz ay ax =>
    exact ⟨0, 0, t, rfl, rfl, congrArg₂ (View.postInc sz) (hy rfl) (hx rfl)⟩

/-! ### Decoding -/

/-- All a decoding that answers has done: the opcode word, the lookup, the two extensions, the instruction. -/
theorem decodeBytes_eq_ok {fam : Families} {o : ByteOrder} {bs rest : List Byte} {i : Instr} :
    decodeBytes fam o bs = .ok (i, rest) ↔ ∃ w bs1 f imm bs2 x, takeWord o bs = some (w, bs1) ∧
      lookup (dispatchTable fam) w = some f ∧ takeExt o f.immSize bs1 = some (imm, bs2) ∧
      takeExt o f.eaSize bs2 = some (x, rest) ∧ f.assemble w imm x = some i := by
  constructor
  · intro h
    unfold decodeBytes at h
    split at h
    · cases h
    next w bs1 hw =>
    split at h
    · cases h
    next f hf =>
    split at h
    · cases h
    next imm bs2 himm =>
    split at h
    · cases h
    next x bs3 hx =>
    split at h
    · cases h
    next j hj =>
    cases h
    exact ⟨w, bs1, f, imm, bs2, x, hw, hf, himm, hx, hj⟩
  · rintro ⟨w, bs1, f, imm, bs2, x, hw, hf, himm, hx, hi⟩
    simp only [decodeBytes, hw, hf, himm, hx, hi]

/-- Settles O4: the lookup finds the row again, and the row reads its registers and extensions back. -/
theorem decodeOfEncodeIsIdentity : Obligations.DecodeOfEncodeIsIdentity := by
  intro o i rest hwf
  have hreal := Machine.view_real i
  have hlegal : i.view.form.legal = true := Machine.legal_of_wellFormed hwf
  have hlookup : lookup (dispatchTable Families.default) i.view.opword = some i.view.form := by
    rw [View.opword_eq]
    exact lookup_of_hits hlegal (hits_word hlegal (View.form_admits hreal))
  have hx (h : i.view.form.handler.hasRx = true) : rxField i.view.opword = i.view.rx := by
    rw [View.opword_eq, rxField_word hlegal h]
  have hy (h : i.view.form.variant.hasReg = true) : ryField i.view.opword = i.view.ry := by
    rw [View.opword_eq, ryField_word hlegal h]
  obtain ⟨imm, x, bs, himm, hext, hview⟩ := View.form_view hreal hx hy o rest
  have hi : i.view.form.assemble i.view.opword imm x = some i := by
    rw [Form.assemble, hview, Machine.view_instr]
  rw [decodeBytes_eq_ok, encodeBytes, List.append_assoc]
  exact ⟨_, _, _, imm, bs, x, takeWord_eq_some.mpr rfl, hlookup, himm, hext, hi⟩

theorem decodeBytes_of_encodeBytes {i : Instr} {bs : List Byte} (hwf : i.wellFormed = true)
    (h : encodeBytes .big i = bs) : decodeBytes Families.default .big bs = .ok (i, []) := by
  rw [← h, ← List.append_nil (encodeBytes .big i)]
  exact decodeOfEncodeIsIdentity .big i [] hwf

/-- Settles O6: each list of bytes is the encoding of its instruction. -/
theorem knownWordsDecode : Obligations.KnownWordsDecode :=
  ⟨decodeBytes_of_encodeBytes rfl rfl, decodeBytes_of_encodeBytes rfl rfl, decodeBytes_of_encodeBytes rfl rfl,
    decodeBytes_of_encodeBytes rfl rfl, decodeBytes_of_encodeBytes rfl rfl, decodeBytes_of_encodeBytes rfl rfl,
    decodeBytes_of_encodeBytes rfl rfl, decodeBytes_of_encodeBytes rfl rfl⟩

/-! ### What is decoded (R99) -/

theorem EA.regField_make (sz : Size) (n : Reg) (x : Long) (v : Variant) :
    (EA.make sz n x v).regField = if v.hasReg then n else 0 := by cases v <;> rfl

theorem variant_of_cmpm {sz : Size} {v : Variant} (h : (Form.mk .cmpm sz v).legal = true) : v = .postInc := by
  simpa [Form.legal, Handler.legalModes] using h

/-- The shape a row gives a word has the register numbers the row reads out of it. -/
theorem form_view_fields {f : Form} (hf : f.legal = true) (w : Word) (imm x : Long) :
    (f.view w imm x).rx = f.rxOf w ∧ (f.view w imm x).ry = f.ryOf w := by
  obtain ⟨h, sz, v⟩ := f
  cases h
  case cmpm =>
    rw [variant_of_cmpm hf]
    exact ⟨rfl, rfl⟩
  all_goals exact ⟨rfl, EA.regField_make ..⟩

theorem length_form_view {f : Form} (hf : f.legal = true) (w : Word) (imm x : Long) :
    (f.view w imm x).length = 2 + f.immSize + f.eaSize := by
  obtain ⟨h, sz, v⟩ := f
  cases h
  case cmpm =>
    rw [variant_of_cmpm hf]
    rfl
  all_goals exact congrArg (_ + Variant.extSize sz ·) (EA.variant_make ..)

/-- Settles O5: the bytes are the opcode word and the two extensions, and the word is its row's with its registers. -/
theorem decodedInstructionsAreWellFormed : Obligations.DecodedInstructionsAreWellFormed := by
  intro fam o bs rest i h
  obtain ⟨w, bs1, f, imm, bs2, x, hw, hlookup, himm, hext, hi⟩ := decodeBytes_eq_ok.mp h
  obtain ⟨hlegal, hhits⟩ := lookup_row hlookup
  obtain ⟨himmSize, heaSize⟩ := Form.sizes f
  obtain ⟨p, hp, rfl⟩ := eq_append_of_takeExt himmSize himm
  obtain ⟨q, hq, rfl⟩ := eq_append_of_takeExt heaSize hext
  have hbs : bs = o.wordBytes w ++ p ++ q ++ rest := by
    rw [takeWord_eq_some.mp hw, List.append_assoc, List.append_assoc]
  have hlen : i.length = (o.wordBytes w ++ p ++ q).length := by
    rw [Instr.length, view_of_assemble hi, length_form_view hlegal, List.length_append, List.length_append,
      o.wordBytes_length, hp, hq]
  have hop : i.view.opword = w := by
    obtain ⟨hrx, hry⟩ := form_view_fields hlegal w imm x
    have hform : (f.view w imm x).form = f := view_of_assemble hi ▸ form_of_assemble hlegal hi
    rw [View.opword_eq, view_of_assemble hi, hform, hrx, hry, word_of_hits hhits]
  refine ⟨wellFormed_of_assemble hlegal hi, ?_, ?_, ?_⟩
  · rw [hlen, hbs, List.length_append]
  · rw [hlen, hbs, List.drop_left]
  · rw [hop, takeWord_eq_some.mp hw, List.take_left' (o.wordBytes_length w)]

end Sys2Proof
end

section
/-! SUPPORT. A step on the reference bus is the instruction that the bytes at the pc decode to (R107, R172, R258). -/

namespace Sys2Proof.Machine

/-- Of an instruction with a source register Dn, the fetch asks for that register before the extensions (R172). -/
theorem sourceRegs_of_assemble {f : Form} {w : Word} {imm x : Long} {i : Instr} (ha : f.assemble w imm x = some i)
    {h : Handler} {sz : Size} {n : Reg} {ea : EA sz} (hv : i.view = .toEa h sz n ea) : sourceRegs f w = [.d n] := by
  rw [view_of_assemble ha] at hv
  obtain ⟨g, z, v⟩ := f
  cases g <;> simp only [Form.view, View.toEa.injEq, reduceCtorEq] at hv
  all_goals rw [← hv.2.2.1]; rfl

theorem requireRegs_unwritten {r : RegName} {rs : List RegName} {s : State} (h : s.cell r = .unwritten) :
    requireRegs (r :: rs) s = .error (.fault (.unwritten r)) s :=
  Op.bind_of_error (readReg_error.mpr ⟨h, rfl, rfl⟩)

/-- The fetch stops at the unwritten source register of a Dn,<ea> form. -/
theorem fetchInstr_source_unwritten {s : State} {i : Instr} {rest : List Byte} (hp : s.plainBus)
    (ha : misaligned s.pc .w = false)
    (hd : decodeBytes s.families s.bus.byteOrder (s.bus.bytesAt s.pc 10) = .ok (i, rest))
    {h : Handler} {sz : Size} {n : Reg} {ea : EA sz} (hv : i.view = .toEa h sz n ea) (hn : s.cell (.d n) = .unwritten) :
    ∃ t, fetchInstr s = .error (.fault (.unwritten (.d n))) t := by
  obtain ⟨w, _, f, imm, _, x, hw, hl, -, -, hi⟩ := decodeBytes_eq_ok.mp hd
  obtain ⟨rfl, -⟩ : s.bus.peekWord s.pc = w ∧ _ = _ := by
    rwa [takeWord_bytesAt s.bus s.pc 8, Option.some.injEq, Prod.mk.injEq] at hw
  refine ⟨s.logged [⟨.opcode, s.progTag, s.pc, .w, none⟩], ?_⟩
  simp only [fetchInstr, Op.get_bind]
  rw [Op.bind_of_ok (busRead_plain hp ha)]
  simp only [Bus.peek, hl, sourceRegs_of_assemble hi hv]
  exact Op.bind_of_error (requireRegs_unwritten (by rw [State.cell_logged, hn]))

/-- One instruction on the reference bus at an even pc: the fetches of what the bytes there decode to, then its meaning.
With its source register unwritten the fetch stops early, at the fault its meaning would raise. -/
theorem decodeAndExecute_plain {s : State} {i : Instr} {rest : List Byte} (hp : s.plainBus)
    (ha : misaligned s.pc .w = false)
    (hd : decodeBytes s.families s.bus.byteOrder (s.bus.bytesAt s.pc 10) = .ok (i, rest)) :
    decodeAndExecute s = exec i (s.logged (i.fetches s)) := by
  by_cases hr : ∀ n h sz ea, i.view = .toEa h sz n ea → (s.cell (.d n)).written = true
  · exact decodeAndExecute_ok (fetchInstr_plain hp ha hd hr)
  · push Not at hr
    obtain ⟨n, h, sz, ea, hv, hn⟩ := hr
    have hn : s.cell (.d n) = .unwritten := by
      cases hc : s.cell (.d n) with
      | unwritten => rfl
      | val v => simp [hc] at hn
    obtain ⟨t, ht⟩ := fetchInstr_source_unwritten hp ha hd hv hn
    obtain ⟨hw, -⟩ := decodedInstructionsAreWellFormed _ _ _ _ _ hd
    rw [decodeAndExecute_fault ht, (exec_toEa_unwritten hv hw).1 (by rw [State.cell_logged, hn])]

/-- Settles O7: the step is one instruction, and the instruction is what the bytes decode to. -/
theorem stepRunsTheDecodedInstruction : Obligations.StepRunsTheDecodedInstruction := by
  intro s i rest hat hp ha hd
  rw [step_atInstruction hat, decodeAndExecute_plain hp ha hd]

end Sys2Proof.Machine
end

section
/-! SUPPORT. The operand resolver (R133-R151): where `resolve` stops, the fields of the brief extension word, the
register that `finish` moves, and `get` after `put`. -/

namespace Sys2Proof.Machine

/-! ### Resolving an address (R26, R140-R149) -/

/-- Requiring registers stops at the first unwritten one. -/
theorem requireRegs_first_unwritten {r : RegName} {s : State} : ∀ {rs : List RegName},
    rs.find? (fun q => !(s.cell q).written) = some r → requireRegs rs s = .error (.fault (.unwritten r)) s
  | q :: qs, h => by
    cases hc : s.cell q with
    | unwritten =>
      obtain rfl : q = r := by simpa [hc] using h
      exact requireRegs_unwritten hc
    | val v =>
      have hqs : qs.find? (fun q => !(s.cell q).written) = some r := by simpa [hc] using h
      exact (Op.bind_of_ok (readReg_ok.mpr ⟨hc, rfl⟩)).trans (requireRegs_first_unwritten hqs)

theorem EA.resolve_first_unwritten {sz : Size} {ea : EA sz} {c : Long} {s : State} {r : RegName}
    (h : ea.addressRegs.find? (fun q => !(s.cell q).written) = some r) :
    ea.resolve c s = .error (.fault (.unwritten r)) s :=
  Op.bind_of_error (requireRegs_first_unwritten h)

theorem EA.resolve_written {sz : Size} {ea : EA sz} {c : Long} {s : State}
    (h : (ea.addressRegs.all fun r => (s.cell r).written) = true) : ea.resolve c s = .ok (ea.loc s c) s :=
  EA.resolve_ok.mpr ⟨h, rfl, rfl⟩

/-- The displacement of the brief word is its low byte (R95). -/
theorem Brief.d8_ofWord (e : Word) : (Brief.ofWord e).d8 = e.setWidth 8 :=
  (BitVec.setWidth_eq_extractLsb' (by decide)).symm

/-- The index is the register's low word sign-extended, or the whole register (R95, R145). -/
theorem Brief.index_ofWord (e : Word) (v : Long) :
    (Brief.ofWord e).index v = if e.getLsbD 11 then v else (v.setWidth 16).signExtend 32 := by
  rw [BitVec.setWidth_eq_extractLsb' (by decide)]; rfl

/-- Settles O28: an operand with its address registers written resolves to its location; otherwise it stops at the first
unwritten one, the base before the index. -/
theorem effectiveAddresses : Obligations.EffectiveAddresses := by
  intro sz s c n e d r index d8
  have hr : (Brief.ofWord e).regName = r := rfl
  have hindex : (Brief.ofWord e).index (s.value r) = index := Brief.index_ofWord e _
  have hd8 : (Brief.ofWord e).d8.signExtend 32 = d8 := by rw [Brief.d8_ofWord]
  have hloc : (EA.index n (Brief.ofWord e) : EA sz).loc s c = .mem (s.value (.a n) + d8 + index) := by
    simp only [EA.loc, hr, hindex, hd8]
  have hlocPc : (EA.pcIndex (Brief.ofWord e) : EA sz).loc s c = .prog (c + d8 + index) := by
    simp only [EA.loc, hr, hindex, hd8]
  refine ⟨fun hn => ⟨?ind, ?postInc, ?preDec, ?disp, fun hx => ?index⟩, fun hx => ?pcIndex, ?absW, ?absL, ?pcDisp,
    fun hn ea hea => ?baseUnwritten, fun hx => ⟨fun hn => ?indexUnwritten, ?pcIndexUnwritten⟩⟩
  case ind | postInc | preDec | disp => exact EA.resolve_written (by simp [EA.addressRegs, hn])
  case index => rw [← hloc]; exact EA.resolve_written (by simp [EA.addressRegs, hr, hn, hx])
  case pcIndex => rw [← hlocPc]; exact EA.resolve_written (by simp [EA.addressRegs, hr, hx])
  case absW | absL | pcDisp => exact EA.resolve_written rfl
  case baseUnwritten =>
    have hbase : ea.addressRegs.head? = some (.a n) := by
      simp only [List.mem_cons, List.not_mem_nil, or_false] at hea
      rcases hea with rfl | rfl | rfl | rfl | rfl <;> rfl
    obtain ⟨rs, hrs⟩ := List.head?_eq_some_iff.mp hbase
    exact EA.resolve_first_unwritten (by simp [hrs, hn])
  case indexUnwritten => exact EA.resolve_first_unwritten (by simp [EA.addressRegs, hr, hn, hx])
  case pcIndexUnwritten => exact EA.resolve_first_unwritten (by simp [EA.addressRegs, hr, hx])

/-! ### `get` after `put` (R151) -/

/-- A data register gives back the low bits that were put in it. -/
theorem Loc.get_dreg_setD_replaceLow {sz : Size} (n : Reg) (old : Long) (v : BitVec sz.bits) (s : State) :
    (Loc.dreg n : Loc sz).get (s.setD n (.val (replaceLow old sz v))) =
      .ok v (s.setD n (.val (replaceLow old sz v))) := by
  have hc : (s.setD n (.val (replaceLow old sz v))).cell (.d n) = .val (replaceLow old sz v) := by
    simp [State.cell_setD]
  rw [Loc.get, Op.bind_of_ok (readReg_ok.mpr ⟨hc, rfl⟩), replaceLow_setWidth, Op.pure_run]

/-- Memory on the reference bus gives back what was last stored there. -/
theorem Loc.get_mem_poke {sz : Size} {a : Long} {s : State} (hp : s.plainBus) (hwf : s.bus.wf = true)
    (ha : misaligned a sz = false) (v : BitVec sz.bits) (x : Access) :
    ∃ u, (Loc.mem a : Loc sz).get (s.setBus ((s.bus.poke a sz v).issue x)) = .ok v u := by
  have hp' : (s.setBus ((s.bus.poke a sz v).issue x)).plainBus := by
    simp [State.plainBus, show s.bus.answers = [] from hp]
  have hget := busRead_plain (k := .operandRead) (g := s.dataTag) hp' ha
  rw [State.setBus_bus, Bus.peek_issue, Bus.peek_poke hwf] at hget
  exact ⟨_, hget⟩

/-- Settles O29: only a data register or an aligned address in memory takes a value, and each gives it back. -/
theorem putThenGet : Obligations.PutThenGet := by
  intro sz l v s t hp hwf hput
  obtain ⟨n, rfl, rfl⟩ | ⟨a, rfl, ha, -, rfl⟩ := Loc.put_ok hput
  · exact ⟨_, Loc.get_dreg_setD_replaceLow n _ v s⟩
  · rw [Bus.writeAnswer_plain hp]
    exact Loc.get_mem_poke hp hwf ha v _

/-! ### The move of a post-increment and a pre-decrement (R136) -/

/-- Settles O27: `finish` completes where the register is written, and moves it by the step. -/
theorem stackAlignedStep : Obligations.StackAlignedStep := by
  refine fun n sz => ⟨?step, fun s v hc => ⟨?postInc, ?preDec⟩⟩
  case step => cases sz <;> rfl
  case postInc | preDec =>
    rw [EA.finish_written (by simp [EA.moves, hc])]
    simp [EA.finished, State.value, hc]

end Sys2Proof.Machine
end

section
/-! SUPPORT. The ALU's flags and results (R174-R178, R180): the overflow and the borrow of a subtraction at any width, the
flags a compare sets, and the flags and bits of a logical result. -/

namespace Sys2Proof.Machine

/-! ### The borrow of a subtraction (R176) -/

/-- Operands with one sign do not overflow, so the sign of their difference tells which is the lesser. -/
theorem msb_sub_of_msb_eq {w : Nat} {d s : BitVec w} (h : d.msb = s.msb) : (d - s).msb = d.ult s := by
  have hov : ¬ d.ssubOverflow s := by
    rw [BitVec.ssubOverflow_eq, h]
    cases s.msb <;> simp
  rw [BitVec.msb_eq_toInt, BitVec.toInt_sub_of_not_ssubOverflow hov, ← BitVec.slt_eq_ult_of_msb_eq h,
    BitVec.slt_eq_decide, decide_eq_decide]
  omega

/-- The borrow out of the top bit, from the signs of the operands and of the difference. -/
theorem ult_eq_borrow {w : Nat} (d s : BitVec w) :
    d.ult s = ((s.msb && !d.msb) || ((d - s).msb && !d.msb) || (s.msb && (d - s).msb)) := by
  by_cases h : d.msb = s.msb
  · rw [msb_sub_of_msb_eq h, h]
    cases s.msb <;> simp
  · rw [BitVec.ult_eq_msb_of_msb_neq h, Bool.eq_not_of_ne h]
    cases s.msb <;> simp

/-! ### The flags of a compare -/

section
variable {w : Nat} (sr : StatusReg) (d s : BitVec w)

theorem StatusReg.compared_n : (sr.compared d s).n = (d - s).msb := rfl

theorem StatusReg.compared_z : (sr.compared d s).z = true ↔ d - s = 0 := beq_iff_eq

theorem StatusReg.compared_z_iff_eq : (sr.compared d s).z = true ↔ d = s := by
  rw [compared_z, sub_eq_zero]

theorem StatusReg.compared_c : (sr.compared d s).c = true ↔ d.toNat < s.toNat := BitVec.ult_iff_toNat_lt

/-- V is the signed overflow of the subtraction. -/
theorem StatusReg.compared_v : (sr.compared d s).v = d.ssubOverflow s := by
  rw [BitVec.ssubOverflow_eq]
  change ((s.msb != d.msb) && ((d - s).msb != d.msb)) = _
  cases d.msb <;> cases s.msb <;> simp

/-- Overflow turns the sign of the difference over, so N and V together tell the signed order (R180). -/
theorem StatusReg.compared_n_xor_v : ((sr.compared d s).n ^^ (sr.compared d s).v) = d.slt s := by
  rw [compared_n, compared_v, BitVec.ssubOverflow_eq, BitVec.slt_eq_ult, ult_eq_borrow]
  cases d.msb <;> cases s.msb <;> simp

end

/-- Settles O30: each flag is a bit of its operands or of the difference; C is the borrow. -/
theorem compareFlags : Obligations.CompareFlags := by
  intro sz d s sr m r f
  have hmsb : ∀ x : BitVec sz.bits, x.getLsbD m = x.msb := fun x => (BitVec.msb_eq_getLsbD_last x).symm
  refine ⟨?n, StatusReg.compared_z sr d s, ?v, StatusReg.compared_c sr d s, ?borrow, rfl, rfl, rfl⟩
  case n => rw [hmsb]; rfl
  case v =>
    simp only [hmsb, ← bne_iff_ne, ← Bool.and_eq_true]
    rfl
  case borrow =>
    simp only [hmsb]
    exact ult_eq_borrow d s

/-- Settles O31: the flags as equality, unsigned order, signed order and signed overflow. -/
theorem arithmeticLaws : Obligations.ArithmeticLaws := by
  intro sz d s sr f
  have hz : f.z = true ↔ d = s := StatusReg.compared_z_iff_eq sr d s
  have hc : f.c = true ↔ d.toNat < s.toNat := StatusReg.compared_c sr d s
  have hv : f.v = d.ssubOverflow s := StatusReg.compared_v sr d s
  refine ⟨hz, ?signedOrder, ?unsignedOrder, ?overflow, ?equal, ?zeroDest, ?zeroSource, BitVec.xor_self, BitVec.and_zero,
    BitVec.or_zero⟩
  case signedOrder => rw [StatusReg.compared_n_xor_v, BitVec.slt_iff_toInt_lt]
  case unsignedOrder => rw [Bool.or_eq_true, hz, hc, ← BitVec.toNat_inj, Nat.le_iff_lt_or_eq]
  case overflow =>
    rw [hv, BitVec.ssubOverflow, Bool.or_eq_true, decide_eq_true_eq, decide_eq_true_eq]
    exact or_comm
  case equal =>
    rintro rfl
    simp [f, StatusReg.compared]
  case zeroDest =>
    rintro rfl hs
    exact hc.mpr (Nat.pos_of_ne_zero fun h => hs (BitVec.eq_of_toNat_eq h))
  case zeroSource =>
    rintro rfl
    simp [f, StatusReg.compared]

/-! ### Logical results -/

/-- Settles O32: the result bit by bit, N and Z from it, V and C clear, the rest kept. -/
theorem logicalResultAndFlags : Obligations.LogicalResultAndFlags := by
  intro sz d s sr op r f
  refine ⟨?bits, BitVec.msb_eq_getLsbD_last r, beq_iff_eq, rfl, rfl, rfl, rfl, rfl⟩
  cases op with
  | and => exact fun k => BitVec.getLsbD_and
  | or => exact fun k => BitVec.getLsbD_or
  | eor => exact fun k => BitVec.getLsbD_xor

end Sys2Proof.Machine
end

section
/-! SUPPORT. What a compare leaves alone (R173, R190), and the pc after an instruction (R170). -/

namespace Sys2Proof.Machine

/-! ### The frame of a compare -/

/-- From `s` to `t` no data register, no address register but those in `moved`, and no byte of memory has changed, and
operand reads alone have gone out on the port. -/
structure CompareKept (moved : List Reg) (s t : State) : Prop where
  dataRegs : t.d = s.d
  addressRegs : ∀ n, n ∉ moved → t.cell (.a n) = s.cell (.a n)
  mem : t.bus.mem = s.bus.mem
  log : ∃ xs, t.bus.log = s.bus.log ++ xs ∧ ∀ x ∈ xs, x.kind = .operandRead

theorem Reads.compareKept {s r : State} {xs : List Access} (R : Reads s r xs) (hxs : ∀ x ∈ xs, x.kind = .operandRead) :
    CompareKept [] s r := by
  obtain ⟨hd, -, -, -, -, -, -, -, -, hm, -⟩ := R.fields
  exact ⟨hd, fun n _ => R.cell (.a n), hm, xs, R.log, hxs⟩

theorem CompareKept.setSR {moved : List Reg} {s t : State} (h : CompareKept moved s t) (q : StatusReg) :
    CompareKept moved s (t.setSR q) :=
  ⟨h.dataRegs, h.addressRegs, h.mem, h.log⟩

theorem CompareKept.setPC {moved : List Reg} {s t : State} (h : CompareKept moved s t) (v : Long) :
    CompareKept moved s (t.setPC v) :=
  ⟨h.dataRegs, h.addressRegs, h.mem, h.log⟩

/-- `finish` moves the address register of its mode. -/
theorem CompareKept.finished {moved : List Reg} {s t : State} (h : CompareKept moved s t) {sz : Size} (ea : EA sz) :
    CompareKept (moved ++ ea.moves) s (ea.finished t) := by
  obtain ⟨hd, -, -, -, -, -, -, hb, -⟩ := EA.finished_fields ea t
  refine ⟨hd.trans h.dataRegs, fun n hn => ?_, hb ▸ h.mem, hb ▸ h.log⟩
  rw [List.mem_append, not_or] at hn
  exact (EA.finished_cell ea t hn.2).trans (h.addressRegs n hn.1)

theorem compareHandler_kept {sz : Size} {src dst : EA sz} {s t : State} {u : Unit}
    (h : compareHandler sz src dst s = .ok u t) : CompareKept (src.moves ++ dst.moves) s t := by
  obtain ⟨x, y, r, R, rfl⟩ := compareHandler_ok h
  exact ((((R.compareKept fun _ hx => (Loc.mem_reads_append hx).1).setSR _).finished src).finished dst).setPC _

theorem compareAddressHandler_kept {sz : Size} {src : EA sz} {n : Reg} {s t : State} {u : Unit}
    (h : compareAddressHandler sz src n s = .ok u t) : CompareKept src.moves s t := by
  obtain ⟨x, r, R, rfl⟩ := compareAddressHandler_ok h
  exact (((R.compareKept fun _ hx => (Loc.mem_reads hx).1).setSR _).finished src).setPC _

/-- Every shape whose handler is none of the logical ones runs a compare; Dn and an immediate move no register. -/
theorem runView_compareKept {v : View} {s t : State} {u : Unit} (hc : v.form.handler.logicalOp = none)
    (h : runView v s = .ok u t) : CompareKept v.moves s t := by
  cases v with
  | toReg g sz ea rx =>
    have hop : g.logicalOp = none := hc
    simp only [runView, hop] at h
    split at h
    · exact compareAddressHandler_kept h
    · simpa [View.moves, EA.moves] using compareHandler_kept h
  | toEa g sz rx ea =>
    have hop : g.logicalOp = none := hc
    simp only [runView, hop] at h
    exact compareHandler_kept h
  | immToEa g sz x ea =>
    have hop : g.logicalOp = none := hc
    simp only [runView, hop] at h
    exact compareHandler_kept h
  | postInc sz ay ax => exact compareHandler_kept h

/-- Settles O40: what every instruction leaves alone, and what a compare leaves alone beyond that. -/
theorem compareFrame : Obligations.CompareFrame := by
  intro i s t hc h
  have F := exec_frame h
  rw [exec_eq, toOutcome_eq_next] at h
  obtain ⟨u, h⟩ := h
  obtain ⟨hd, ha, hm, hlog⟩ := runView_compareKept hc h
  exact ⟨hd, ha, F.shadowSP, F.mode, F.mask, F.extend, F.queues, F.outstanding, F.families, F.port, F.bus.addrBits,
    F.bus.byteOrder, fun a => Bus.peek_congr hm F.bus.addrBits F.bus.byteOrder a .b, hlog⟩

/-! ### The next pc -/

theorem compareHandler_pc {sz : Size} {src dst : EA sz} {s t : State} {u : Unit}
    (h : compareHandler sz src dst s = .ok u t) : t.pc = s.pc + BitVec.ofNat 32 (2 + src.extSize + dst.extSize) := by
  obtain ⟨x, y, r, -, rfl⟩ := compareHandler_ok h
  rfl

theorem compareAddressHandler_pc {sz : Size} {src : EA sz} {n : Reg} {s t : State} {u : Unit}
    (h : compareAddressHandler sz src n s = .ok u t) : t.pc = s.pc + BitVec.ofNat 32 (2 + src.extSize) := by
  obtain ⟨x, r, -, rfl⟩ := compareAddressHandler_ok h
  rfl

theorem logicalHandler_pc {op : LogicalOp} {sz : Size} {src dst : EA sz} {s t : State} {u : Unit}
    (h : logicalHandler op sz src dst s = .ok u t) : t.pc = s.pc + BitVec.ofNat 32 (2 + src.extSize + dst.extSize) := by
  obtain ⟨x, y, r, w, -, -, rfl⟩ := logicalHandler_ok h
  rfl

theorem EA.extSize_imm {sz : Size} (v : BitVec sz.bits) : (EA.imm v : EA sz).extSize = Variant.imm.extSize sz := rfl

/-- Every shape advances the pc by its length; a register operand has no extension. -/
theorem runView_pc {v : View} {s t : State} {u : Unit} (h : runView v s = .ok u t) :
    t.pc = s.pc + BitVec.ofNat 32 v.length := by
  cases v with
  | toReg g sz ea rx =>
    rcases runView_toReg g ea rx with ⟨-, op, hv⟩ | ⟨-, hv⟩ | ⟨-, hv⟩ <;> rw [hv] at h
    · exact logicalHandler_pc h
    · exact compareAddressHandler_pc h
    · exact compareHandler_pc h
  | toEa g sz rx ea =>
    rcases runView_toEa g rx ea with ⟨op, hv⟩ | hv <;> rw [hv] at h
    · exact logicalHandler_pc h
    · exact compareHandler_pc h
  | immToEa g sz x ea =>
    rw [View.length, ← EA.extSize_imm x]
    rcases runView_immToEa g x ea with ⟨op, hv⟩ | hv <;> rw [hv] at h
    · exact logicalHandler_pc h
    · exact compareHandler_pc h
  | postInc sz ay ax => exact compareHandler_pc h

/-- The length is the base word's and the extensions' (R99). -/
theorem View.length_eq_extSizes (v : View) : v.length = 2 + v.extSizes.sum := by
  cases v <;> simp [View.length, View.extSizes, Nat.add_assoc]

theorem View.extSizes_even {v : View} : ∀ n ∈ v.extSizes, 2 ∣ n := by
  have even (sz : Size) (x : Variant) : 2 ∣ x.extSize sz := Nat.dvd_of_mod_eq_zero (x.extSize_range sz).2
  cases v <;> simp [View.extSizes, EA.extSize, even]

/-- Settles O42: the pc advances by the length, which is even. -/
theorem pcAdvancesByLength : Obligations.PcAdvancesByLength := by
  intro i s t h
  rw [exec_eq, toOutcome_eq_next] at h
  obtain ⟨u, h⟩ := h
  have hpc : t.pc.toNat = (s.pc.toNat + (2 + i.view.extSizes.sum)) % 2 ^ 32 := by
    rw [runView_pc h, View.length_eq_extSizes, BitVec.toNat_add, BitVec.toNat_ofNat, Nat.add_mod_mod]
  have heven : 2 ∣ i.view.extSizes.sum := List.dvd_sum View.extSizes_even
  refine ⟨hpc, ?_⟩
  rw [← BitVec.testBit_toNat, ← BitVec.testBit_toNat, Nat.testBit_zero, Nat.testBit_zero, hpc, decide_eq_decide]
  omega

end Sys2Proof.Machine
end

section
/-! SUPPORT. The state each compare instruction leaves on the reference bus (R190-R194): the handler of its operand shape,
with what a register operand, an immediate and a post-incremented operand contribute to the reads, the moves and the pc. -/

namespace Sys2Proof.Machine

/-- An instruction whose handler completes leaves the handler's state. -/
theorem exec_next {i : Instr} {v : View} {s t : State} (hv : i.view = v) (h : runView v s = .ok () t) :
    exec i s = .next t := by
  rw [exec_eq, hv, h, toOutcome_ok]

/-! ### What the operands of a well-formed instruction are -/

/-- An immediate instruction of byte size has no address register for its `<ea>` (R21, R154). -/
theorem sized_immToEa {i : Instr} {h : Handler} {sz : Size} {v : BitVec sz.bits} {ea : EA sz}
    (hv : i.view = .immToEa h sz v ea) (hw : i.wellFormed = true) : sz = .b → ea.variant ≠ .an := by
  have hform : i.form = ⟨h, sz, ea.variant⟩ := by rw [Instr.form, hv, View.form]
  simpa only [hform] using variant_ne_an hw

/-- CMPA has no byte size (R192). -/
theorem cmpa_size {i : Instr} {sz : Size} {ea : EA sz} {an : Reg} (hv : i.view = .toReg .cmpa sz ea an) : sz ≠ .b := by
  have hr := view_real i
  rw [hv] at hr
  simpa [viewReal] using hr

/-! ### CMP, CMPA, CMPI -/

/-- Settles O33: a data register is read without an access, moves nothing and has no extension. -/
theorem cmpCompletes : Obligations.CmpCompletes := by
  intro sz ea dn i s hv hw hp hready hd
  have h := compareHandler_plain hp hready (ready_dn (c := s.pc + 2 + BitVec.ofNat 32 ea.extSize) hd) fun hb =>
    ⟨sized_source hv hw hb, by simp [EA.variant]⟩
  have hreads : ((EA.dn dn : EA sz).loc s (s.pc + 2 + BitVec.ofNat 32 ea.extSize)).reads s = [] := rfl
  rw [hreads, List.append_nil] at h
  rw [Instr.length, hv]
  exact exec_next hv h

/-- Settles O34: An is read after the source and before the source's `finish`. -/
theorem cmpaCompletes : Obligations.CmpaCompletes := by
  intro sz ea an i s hv hw hp hready ha
  rw [Instr.length, hv]
  exact exec_next hv (compareAddressHandler_plain hp hready ha (cmpa_size hv))

/-- Settles O35: the immediate is read without an access, moves nothing, and its extension comes before the `<ea>`'s. -/
theorem cmpiCompletes : Obligations.CmpiCompletes := by
  intro sz v ea i s hv hw hp c hready
  rw [Instr.length, hv]
  exact exec_next hv (compareHandler_plain (src := .imm v) hp ready_imm hready fun hb =>
    ⟨by simp [EA.variant], sized_immToEa hv hw hb⟩)

/-! ### CMPM -/

theorem State.value_of_cell {s : State} {r : RegName} {v : Long} (h : s.cell r = .val v) : s.value r = v := by
  rw [State.value, h, Cell.value_val]

theorem EA.finished_postInc {sz : Size} {n : Reg} {s : State} {v : Long} (h : s.cell (.a n) = .val v) :
    (EA.postInc n : EA sz).finished s = s.setA n (.val (v + stepSize n sz)) := by
  rw [EA.finished, State.value_of_cell h]

theorem EA.loc_postInc {sz : Size} {n : Reg} {s : State} {c v : Long} (h : s.cell (.a n) = .val v) :
    (EA.postInc n : EA sz).loc s c = .mem v := by
  rw [EA.loc, State.value_of_cell h]

theorem EA.operand_postInc {sz : Size} {n : Reg} {s : State} {c v : Long} (h : s.cell (.a n) = .val v) :
    (EA.postInc n : EA sz).operand s c = s.bus.peek v sz := by
  rw [EA.operand, EA.loc_postInc h, Loc.contents]

/-- Both `finish`es of CMPM: the second sees the first's move where the registers are one (R136, R295). -/
theorem EA.finished_postInc_postInc {sz : Size} {ay ax : Reg} {s : State} {y x : Long} (hy : s.cell (.a ay) = .val y)
    (hx : s.cell (.a ax) = .val x) :
    (EA.postInc ax : EA sz).finished ((EA.postInc ay : EA sz).finished s) =
      (s.setA ay (.val (y + stepSize ay sz))).setA ax
        (.val ((if ay = ax then y + stepSize ay sz else x) + stepSize ax sz)) := by
  rw [EA.finished_postInc hy]
  refine EA.finished_postInc ?_
  rw [State.cell_setA]
  by_cases h : ay = ax
  · rw [if_pos (congrArg RegName.a h.symm), if_pos h]
  · rw [if_neg fun hr => h (RegName.a.inj hr).symm, if_neg h, hx]

/-- Settles O36: both operands are read at the original registers, then both registers move. -/
theorem cmpmCompletes : Obligations.CmpmCompletes := by
  intro sz ay ax i s y x hv hp hy hx hmy hmx
  have h := compareHandler_plain hp (ready_postInc hy hmy) (ready_postInc hx hmx) fun _ => by simp [EA.variant]
  rw [EA.loc_postInc hy, EA.loc_postInc hx, EA.operand_postInc hy, EA.operand_postInc hx,
    EA.finished_postInc_postInc (by rw [State.cell_setSR, State.cell_logged, hy])
      (by rw [State.cell_setSR, State.cell_logged, hx])] at h
  exact exec_next hv h

end Sys2Proof.Machine
end

section
/-! SUPPORT. The state each logical instruction leaves on the reference bus (R210-R218), and what it leaves alone whatever
the bus answers (R173, R210). -/

namespace Sys2Proof.Machine

/-! ### The shapes of a logical operation -/

section
variable {h : Handler} {op : LogicalOp} (ho : h.logicalOp = some op) {sz : Size}
include ho

theorem runView_toReg_logical (ea : EA sz) (rx : Reg) :
    runView (.toReg h sz ea rx) = logicalHandler op sz ea (.dn rx) := by
  simp only [runView, ho]

theorem runView_toEa_logical (rx : Reg) (ea : EA sz) :
    runView (.toEa h sz rx ea) = logicalHandler op sz (.dn rx) ea := by
  simp only [runView, ho]

theorem runView_immToEa_logical (v : BitVec sz.bits) (ea : EA sz) :
    runView (.immToEa h sz v ea) = logicalHandler op sz (.imm v) ea := by
  simp only [runView, ho]

end

/-! ### AND, OR, EOR, ANDI, ORI, EORI on the reference bus -/

/-- Settles O37: the source's read is the only access, and the register destination moves nothing and has no extension. -/
theorem logicalToRegisterCompletes : Obligations.LogicalToRegisterCompletes := by
  intro h op sz ea dn i s hv ho hw hp hready hd r
  have hrun := logicalHandler_plain (op := op) hp hready
    (ready_dn (c := s.pc + 2 + BitVec.ofNat 32 ea.extSize) hd) (sized_source hv hw) rfl
  have hloc (c : Long) : (EA.dn dn : EA sz).loc s c = .dreg dn := rfl
  simp only [hloc, Loc.reads, Loc.writes, List.append_nil] at hrun
  rw [← runView_toReg_logical ho] at hrun
  rw [Instr.length, hv]
  exact exec_next hv hrun

/-- Settles O38: the source is read without an access and has no extension, so the destination's extension is the first. -/
theorem logicalToEaCompletes : Obligations.LogicalToEaCompletes := by
  intro h op sz dn ea i s hv ho hw hp hd hready l r
  have hcursor : s.pc + 2 + BitVec.ofNat 32 (EA.dn dn : EA sz).extSize = s.pc + 2 := BitVec.add_zero _
  have hrun := logicalHandler_plain (op := op) (src := .dn dn) (dst := ea) hp (ready_dn hd) (by rwa [hcursor])
    (by simp [EA.variant]) (dest_writable hw ho (.inl ⟨dn, hv⟩))
  rw [hcursor, ← runView_toEa_logical ho] at hrun
  rw [Instr.length, hv]
  exact exec_next hv hrun

/-- Settles O39: the immediate is read without an access, moves nothing, and its extension comes before the `<ea>`'s. -/
theorem logicalImmediateCompletes : Obligations.LogicalImmediateCompletes := by
  intro h op sz v ea i s hv ho hw hp c hready l r
  have hrun := logicalHandler_plain (op := op) (src := .imm v) hp ready_imm hready (by simp [EA.variant])
    (dest_writable hw ho (.inr ⟨v, hv⟩))
  rw [← runView_immToEa_logical ho] at hrun
  rw [Instr.length, hv]
  exact exec_next hv hrun

/-! ### The frame of a logical instruction -/

theorem Bus.cell_congr {b c : Bus} (h : c.addrBits = b.addrBits) (a : Long) : c.cell a = b.cell a := by
  rw [Bus.cell, Bus.cell, h]

theorem Bus.footprint_congr {b c : Bus} (h : c.addrBits = b.addrBits) (a : Long) (sz : Size) :
    c.footprint a sz = b.footprint a sz := by
  cases sz <;> simp only [Bus.footprint, Bus.cell_congr h]

/-- Whatever the bus answers to a write, a byte outside the cells it selects is as before. -/
theorem Bus.peekByte_writeAnswer_outside {b : Bus} {a c : Long} {sz : Size} (v : BitVec sz.bits)
    (h : b.cell c ∉ b.footprint a sz) : (b.writeAnswer a sz v).1.peekByte c = b.peekByte c := by
  unfold Bus.writeAnswer
  split
  · exact Bus.peekByte_poke_outside v h
  · rfl
  · rfl
  · exact Bus.peekByte_poke_outside _ h

/-- From `s` to `t` no data register and no byte of memory has changed but those of the location `l`, and no address
register but those in `moved`. -/
structure LogicalKept {sz : Size} (l : Loc sz) (moved : List Reg) (s t : State) : Prop where
  dataRegs : ∀ n, l ≠ .dreg n → t.cell (.d n) = s.cell (.d n)
  addressRegs : ∀ n, n ∉ moved → t.cell (.a n) = s.cell (.a n)
  mem : ∀ c, (∀ a, l = .mem a → s.bus.cell c ∉ s.bus.footprint a sz) → t.bus.peekByte c = s.bus.peekByte c

/-- The reads of the operands and the one store. -/
theorem Stores.logicalKept {sz : Size} {l : Loc sz} {v : BitVec sz.bits} {s r w : State} {xs : List Access}
    (S : Stores l v r w) (R : Reads s r xs) : LogicalKept l [] s w := by
  have hbyte (c : Long) : r.bus.peekByte c = s.bus.peekByte c := R.peek c .b
  rcases S with ⟨m, rfl, rfl⟩ | ⟨a, rfl, -, -, rfl⟩
  · refine ⟨fun n hn => ?_, fun n _ => ?_, fun c _ => hbyte c⟩
    · rw [State.cell_setD, if_neg fun h => hn (congrArg Loc.dreg (RegName.d.inj h).symm), R.cell]
    · rw [State.cell_setD, if_neg RegName.noConfusion, R.cell]
  · refine ⟨fun n _ => ?_, fun n _ => ?_, fun c hc => ?_⟩
    · rw [State.cell_setBus, R.cell]
    · rw [State.cell_setBus, R.cell]
    · have hout : r.bus.cell c ∉ r.bus.footprint a sz := by
        rw [Bus.cell_congr R.busKept.addrBits, Bus.footprint_congr R.busKept.addrBits]
        exact hc a rfl
      exact (Bus.peekByte_writeAnswer_outside v hout).trans (hbyte c)

section
variable {sz : Size} {l : Loc sz} {moved : List Reg} {s t : State} (K : LogicalKept l moved s t)
include K

theorem LogicalKept.setSR (q : StatusReg) : LogicalKept l moved s (t.setSR q) :=
  ⟨K.dataRegs, K.addressRegs, K.mem⟩

theorem LogicalKept.setPC (v : Long) : LogicalKept l moved s (t.setPC v) :=
  ⟨K.dataRegs, K.addressRegs, K.mem⟩

/-- `finish` moves the address register of its mode. -/
theorem LogicalKept.finished (ea : EA sz) : LogicalKept l (moved ++ ea.moves) s (ea.finished t) := by
  obtain ⟨hd, -, -, -, -, -, -, hb, -⟩ := EA.finished_fields ea t
  refine ⟨fun n hn => ?_, fun n hn => ?_, hb ▸ K.mem⟩
  · rw [State.cell_d, hd]
    exact K.dataRegs n hn
  · rw [List.mem_append, not_or] at hn
    exact (EA.finished_cell ea t hn.2).trans (K.addressRegs n hn.1)

end

/-- The location is the one computed before the operands are read. -/
theorem logicalHandler_kept {op : LogicalOp} {sz : Size} {src dst : EA sz} {s t : State} {u : Unit}
    (h : logicalHandler op sz src dst s = .ok u t) :
    LogicalKept (dst.loc s (s.pc + 2 + BitVec.ofNat 32 src.extSize)) (src.moves ++ dst.moves) s t := by
  obtain ⟨x, y, r, w, R, S, rfl⟩ := logicalHandler_ok h
  exact ((((S.logicalKept R).setSR _).finished src).finished dst).setPC _

theorem logicalHandler_sr {op : LogicalOp} {sz : Size} {src dst : EA sz} {s t : State} {u : Unit}
    (h : logicalHandler op sz src dst s = .ok u t) : ∃ r : BitVec sz.bits, t.sr = s.sr.valued r := by
  obtain ⟨x, y, r, w, -, -, rfl⟩ := logicalHandler_ok h
  exact ⟨op.apply y x, by simp only [State.setPC_sr, EA.finished_fields, State.setSR_sr]⟩

/-- Every shape with a logical handler runs the logical operation on its destination; Dn and an immediate move no
register. -/
theorem runView_logicalKept {v : View} {s t : State} {u : Unit} (hl : v.form.handler.logicalOp ≠ none)
    (h : runView v s = .ok u t) :
    LogicalKept (v.dest s).2 v.moves s t ∧ ∃ r : BitVec (v.dest s).1.bits, t.sr = s.sr.valued r := by
  obtain ⟨op, ho⟩ := Option.ne_none_iff_exists'.mp hl
  cases v with
  | toReg g sz ea rx =>
    rw [runView_toReg_logical (h := g) ho] at h
    have K := logicalHandler_kept h
    rw [show ea.moves ++ (EA.dn rx : EA sz).moves = ea.moves from List.append_nil _] at K
    exact ⟨K, logicalHandler_sr h⟩
  | toEa g sz rx ea =>
    rw [runView_toEa_logical (h := g) ho] at h
    have K := logicalHandler_kept h
    rw [show s.pc + 2 + BitVec.ofNat 32 (EA.dn rx : EA sz).extSize = s.pc + 2 from BitVec.add_zero _] at K
    exact ⟨K, logicalHandler_sr h⟩
  | immToEa g sz x ea =>
    rw [runView_immToEa_logical (h := g) ho] at h
    have K := logicalHandler_kept h
    rw [EA.extSize_imm] at K
    exact ⟨K, logicalHandler_sr h⟩
  | postInc sz ay ax => exact absurd rfl hl

theorem EA.eq_dn_of_loc {sz : Size} {ea : EA sz} {s : State} {c : Long} {n : Reg} (h : ea.loc s c = .dreg n) :
    ea = .dn n := by
  cases ea <;> simp_all [EA.loc]

/-- A data register that is the destination is among the data registers written. -/
theorem View.mem_dataDest {v : View} {s : State} {n : Reg} (h : (v.dest s).2 = .dreg n) : n ∈ v.dataDest := by
  cases v with
  | toReg g sz ea rx => exact List.mem_singleton.mpr (Loc.dreg.inj h).symm
  | toEa g sz rx ea =>
    obtain rfl := EA.eq_dn_of_loc h
    exact List.mem_singleton_self n
  | immToEa g sz x ea =>
    obtain rfl := EA.eq_dn_of_loc h
    exact List.mem_singleton_self n
  | postInc sz ay ax => cases h

/-- Settles O41: what every instruction leaves alone, and what a logical one leaves alone beyond that. -/
theorem logicalFrame : Obligations.LogicalFrame := by
  intro i s t hl h
  have F := exec_frame h
  rw [exec_eq, toOutcome_eq_next] at h
  obtain ⟨u, h⟩ := h
  obtain ⟨K, r, hsr⟩ := runView_logicalKept hl h
  have hv : t.sr.v = false := by rw [hsr]; rfl
  have hc : t.sr.c = false := by rw [hsr]; rfl
  exact ⟨fun n hn => K.dataRegs n fun hd => hn (View.mem_dataDest hd), K.addressRegs, F.shadowSP, F.mode, F.mask, F.extend,
    hv, hc, F.queues, F.outstanding, F.families, F.port, F.bus.addrBits, F.bus.byteOrder, K.mem⟩

end Sys2Proof.Machine
end

section
/-! SUPPORT. The interrupt controller (R251-R262): the arbiter's choice and its acceptance against the mask, and the host's
requests. -/

namespace Sys2Proof.Machine

/-! ### The arbiter (R254) -/

/-- In a falling list the first level with a property is the highest one. -/
theorem find?_eq_some_of_falling {p : Level → Bool} {l : Level} : ∀ {ls : List Level}, ls.Pairwise (· > ·) →
    (ls.find? p = some l ↔ l ∈ ls ∧ p l = true ∧ ∀ k ∈ ls, l < k → p k = false)
  | [], _ => by simp
  | a :: ls, hls => by
    obtain ⟨ha, hls⟩ := List.pairwise_cons.mp hls
    cases hp : p a with
    | false =>
      rw [List.find?_cons_of_neg (by simp [hp]), find?_eq_some_of_falling hls]
      have hne : p l = true → l ≠ a := by rintro h rfl; simp [hp] at h
      simp only [List.mem_cons, forall_eq_or_imp, hp, implies_true, true_and]
      exact ⟨fun ⟨hm, h, hk⟩ => ⟨.inr hm, h, hk⟩, fun ⟨hm, h, hk⟩ => ⟨hm.resolve_left (hne h), h, hk⟩⟩
    | true =>
      rw [List.find?_cons_of_pos hp, Option.some.injEq]
      constructor
      · rintro rfl
        refine ⟨List.mem_cons_self, hp, fun k hk hlt => ?_⟩
        rcases List.mem_cons.mp hk with rfl | hk
        · exact absurd hlt (lt_irrefl _)
        · exact absurd hlt (ha k hk).asymm
      · rintro ⟨hm, -, hk⟩
        rcases List.mem_cons.mp hm with rfl | hm
        · rfl
        · exact absurd (hk a List.mem_cons_self (ha l hm)) (by simp [hp])

theorem Level.mem_descending (l : Level) : l ∈ Level.descending := by revert l; decide

theorem Level.descending_falling : Level.descending.Pairwise (· > ·) := by decide

theorem selected_eq_some {s : State} {l : Level} :
    s.selected = some l ↔ s.queues[l] ≠ [] ∧ ∀ k : Level, l < k → s.queues[k] = [] := by
  rw [State.selected, find?_eq_some_of_falling Level.descending_falling]
  simp [Level.mem_descending]

theorem selected_eq_none {s : State} : s.selected = none ↔ ∀ k : Level, s.queues[k] = [] := by
  simp [State.selected, Level.mem_descending]

/-! ### Acceptance (R255, R256) -/

theorem accepts_iff {s : State} {l : Level} : s.accepts l = true ↔ l.val + 1 = 7 ∨ s.sr.i.toNat < l.val + 1 := by
  have h7 : l = 6 ↔ l.val + 1 = 7 := by rw [Fin.ext_iff]; exact Nat.succ_inj.symm
  have hn : l.number.toNat = l.val + 1 := by rw [Level.number, BitVec.toNat_ofNat]; omega
  rw [State.accepts, Bool.or_eq_true, beq_iff_eq, decide_eq_true_eq, h7, BitVec.lt_def, hn]

theorem deliverable_eq_some {s : State} {l : Level} :
    s.deliverable = some l ↔ s.selected = some l ∧ s.accepts l = true := by
  rw [State.deliverable]
  cases s.selected with
  | none => simp
  | some k =>
    simp only [Option.ite_none_right_eq_some, Option.some.injEq]
    exact ⟨fun ⟨h, hk⟩ => ⟨hk, hk ▸ h⟩, fun ⟨hk, h⟩ => ⟨hk ▸ h, hk⟩⟩

theorem accepts_false_iff {s : State} {l : Level} :
    s.accepts l = false ↔ l.val + 1 ≠ 7 ∧ l.val + 1 ≤ s.sr.i.toNat := by
  rw [← Bool.not_eq_true, accepts_iff, not_or, not_lt]

/-- A higher level is accepted where a lower one is. -/
theorem accepts_mono {s : State} {k l : Level} (hkl : k ≤ l) (h : s.accepts k = true) : s.accepts l = true := by
  have : k.val ≤ l.val := hkl
  rw [accepts_iff] at h ⊢
  omega

/-- Nothing is delivered exactly when no queued level is accepted. -/
theorem deliverable_eq_none {s : State} :
    s.deliverable = none ↔ ∀ k : Level, s.queues[k] ≠ [] → s.accepts k = false := by
  cases hs : s.selected with
  | none => simp [State.deliverable, hs, selected_eq_none.mp hs]
  | some l =>
    obtain ⟨hl, habove⟩ := selected_eq_some.mp hs
    simp only [State.deliverable, hs, ite_eq_right_iff, reduceCtorEq, imp_false, Bool.not_eq_true]
    refine ⟨fun hna k hk => ?_, fun h => h l hl⟩
    have hkl : k ≤ l := not_lt.mp fun hlt => hk (habove k hlt)
    exact Bool.eq_false_of_not_eq_true fun hak => by simp [accepts_mono hkl hak] at hna

/-- Settles O50: the arbiter takes the first non-empty queue from level 7 down. -/
theorem arbiterSelectsHighest : Obligations.ArbiterSelectsHighest :=
  fun _ => ⟨fun _ => selected_eq_some, selected_eq_none, deliverable_eq_none.mp⟩

/-- Settles O51: the mask against the selected level, whose queue is the highest that is not empty. -/
theorem acceptanceAgainstTheMask : Obligations.AcceptanceAgainstTheMask := by
  intro s l
  refine ⟨by rw [deliverable_eq_some, accepts_iff], fun h0 => ?maskZero, fun h7 hd => ?maskSeven, fun h6 => ?levelSeven⟩
  case maskZero =>
    have hacc (k : Level) : s.accepts k = true := accepts_iff.mpr (by simp [h0])
    cases hs : s.selected <;> simp [State.deliverable, hs, hacc]
  case maskSeven =>
    obtain ⟨-, hacc⟩ := deliverable_eq_some.mp hd
    rw [accepts_iff, h7] at hacc
    rcases hacc with h | h
    · exact h
    · exact absurd h (by simp)
  case levelSeven =>
    have hnone (k : Level) (hk : 6 < k) : s.queues[k] = [] := absurd hk (not_lt.mpr (Fin.le_last k))
    exact deliverable_eq_some.mpr ⟨selected_eq_some.mpr ⟨h6, hnone⟩, accepts_iff.mpr (.inl rfl)⟩

/-- Settles O52: no queued level is accepted. -/
theorem noEligibleInterruptChangesNothing : Obligations.NoEligibleInterruptChangesNothing :=
  fun _ h => maybeDeliverInterrupt_none (deliverable_eq_none.mpr fun k hk => accepts_false_iff.mpr (h k hk))

/-! ### Requests (R245, R252) -/

theorem step_requestInterrupt {s : State} {l : Level} {v : Byte} {rest : List HostCall}
    (h : s.port.calls = .requestInterrupt (l.val + 1) v :: rest) :
    step s = .next (((s.setQueue l (s.queues[l] ++ [v])).setOutstanding true).setPort ⟨rest, .ok⟩) := by
  rw [step_call h (by simp)]
  simp only [hostTransaction, Op.get_bind, requestInterrupt_level, Op.set_bind, answerHost_run, toOutcome_ok]
  rfl

theorem step_requestInterrupt_rejected {s : State} {p : Nat} {v : Byte} {rest : List HostCall}
    (h : s.port.calls = .requestInterrupt p v :: rest) (hp : p < 1 ∨ 7 < p) :
    step s = .next (s.setPort ⟨rest, .rejected⟩) := by
  rw [step_call h (by simp)]
  simp only [hostTransaction, Op.get_bind, requestInterrupt_none hp, answerHost_run, toOutcome_ok,
    State.setPort_setPort, State.setPort_port]

/-- Settles O48: a priority that names a level, and one that does not. -/
theorem requestEnqueues : Obligations.RequestEnqueues := by
  intro s p l v rest h
  refine ⟨?_, step_requestInterrupt_rejected h⟩
  rintro rfl
  exact step_requestInterrupt h

/-- Settles O49: a priority that names no level, and A0-A7 behind the port's indices 8 to 15 (R25). -/
theorem rejectedCallsChangeNothing : Obligations.RejectedCallsChangeNothing := by
  refine ⟨fun s p v rest h hp => step_requestInterrupt_rejected h (by omega), fun s x v rest h hx => ?_⟩
  have hreg : portReg x = .a ⟨x.val - 8, by omega⟩ := portReg_address (by simp only []; omega)
  rw [step_setRegister h, hreg, hostSetRegister_address_byte, toOutcome_ok, State.setPort_setPort, State.setPort_port]

end Sys2Proof.Machine
end

section
/-! SUPPORT. The delivery of an interrupt (R258-R261, R265): the mode switch, then the entry to the handler; what it
leaves on the reference bus, where it stops, and the host's return from the handler. -/

namespace Sys2Proof.Machine

/-! ### Bus accesses with a given answer (R61, R68) -/

theorem Bus.poke_issue (b : Bus) (x : Access) (a : Long) (sz : Size) (v : BitVec sz.bits) :
    (b.issue x).poke a sz v = (b.poke a sz v).issue x := by
  cases sz <;> rfl

/-- A write that the reference bus answers stores its bytes. -/
theorem busWrite_memory {k : AccessKind} {g : Tag} {a : Long} {sz : Size} {v : BitVec sz.bits} {s : State}
    {more : List BusAnswer} (hm : misaligned a sz = false) (h : s.bus.answers = .memory :: more) :
    busWrite k g a sz v s =
      .ok () (s.setBus ((s.bus.poke a sz v).issue ⟨k, g, a, sz, some (v.setWidth 32)⟩)) := by
  have hw : s.bus.writeAnswer a sz v = (s.bus.poke a sz v, true) := by simp [Bus.writeAnswer, Bus.answer, h]
  exact busWrite_ok.mpr ⟨hm, by rw [hw], by rw [hw]⟩

/-- A write that fails stops with the bus alone changed, and of memory its own destination alone. -/
theorem busWrite_fail {k : AccessKind} {g : Tag} {a : Long} {sz : Size} (v : BitVec sz.bits) {s : State} {u : Option Long}
    (hm : misaligned a sz = false) (h : s.bus.answer = .fail u) :
    ∃ b : Bus, busWrite k g a sz v s = .error (.fault (.busFault k g a sz)) (s.setBus b) ∧
      ∀ c, s.bus.cell c ∉ s.bus.footprint a sz → b.peekByte c = s.bus.peekByte c := by
  have hw : (s.bus.writeAnswer a sz v).2 = false := by cases u <;> simp [Bus.writeAnswer, h]
  exact ⟨_, busWrite_error.mpr (.inr ⟨hm, hw, rfl, rfl⟩), fun c hc => Bus.peekByte_writeAnswer_outside v hc⟩

theorem busRead_fail {k : AccessKind} {g : Tag} {a : Long} {sz : Size} {s : State} {u : Option Long}
    (hm : misaligned a sz = false) (h : s.bus.answer = .fail u) :
    ∃ b : Bus, busRead k g a sz s = .error (.fault (.busFault k g a sz)) (s.setBus b) ∧ b.mem = s.bus.mem := by
  have hr : s.bus.readAnswer a sz = none := by simp [Bus.readAnswer, h]
  exact ⟨_, busRead_error.mpr (.inr ⟨hm, hr, rfl, rfl⟩), rfl⟩

/-! ### The mode switch (R33, R260) -/

/-- The state in which a delivery of level `l` makes its first access: the vector dequeued, supervisor mode, the mask at the
level. -/
def State.entered (s : State) (l : Level) (rest : List Byte) : State :=
  ((s.setQueue l rest).enterPrivileged true).setSR { s.sr with s := true, i := BitVec.ofNat 3 (l.val + 1) }

/-- A delivery is the mode switch and then the entry to the handler. -/
theorem maybeDeliverInterrupt_eq {s : State} {l : Level} {v : Byte} {rest : List Byte} (hd : s.deliverable = some l)
    (hq : s.queues[l] = v :: rest) : maybeDeliverInterrupt s = enterHandler s.pc s.sr.word v (s.entered l rest) := by
  rw [maybeDeliverInterrupt_some hd hq, takeException_eq]
  rfl

section
variable (s : State) (l : Level) (rest : List Byte)

theorem State.entered_fields :
    (s.entered l rest).d = s.d ∧ (s.entered l rest).pc = s.pc ∧
    (s.entered l rest).sr = { s.sr with s := true, i := BitVec.ofNat 3 (l.val + 1) } ∧
    (s.entered l rest).queues = s.queues.set l rest ∧ (s.entered l rest).outstanding = s.outstanding ∧
    (s.entered l rest).families = s.families ∧ (s.entered l rest).bus = s.bus ∧ (s.entered l rest).port = s.port := by
  obtain ⟨hd, hpc, hq, ho, hf, hb, hp, -⟩ := State.enterPrivileged_fields (s.setQueue l rest) true
  exact ⟨hd, hpc, rfl, hq, ho, hf, hb, hp⟩

theorem State.entered_bus : (s.entered l rest).bus = s.bus := by
  obtain ⟨-, -, -, -, -, -, hb, -⟩ := s.entered_fields l rest
  exact hb

/-- A7 is the supervisor stack pointer (R28). -/
theorem State.entered_live : (s.entered l rest).cell (.a 7) = s.ssp := by
  rw [State.entered, State.cell_setSR, (enterPrivileged_stack _).1]
  rfl

theorem State.entered_shadow : (s.entered l rest).shadowSP = s.usp := by
  rw [State.entered, State.setSR_shadowSP, (enterPrivileged_stack _).2.1]
  rfl

theorem State.entered_set_live (c : Cell) : (s.entered l rest).a.set 7 c = s.a.set 7 c := by
  rw [State.entered, State.setSR_a, (enterPrivileged_stack _).2.2]
  rfl

end

/-! ### What a delivery leaves on the reference bus (R260) -/

theorem vectorAddress_eq (v : Byte) : vectorAddress v = 4 * v.setWidth 32 := by
  apply BitVec.eq_of_toNat_eq
  simp [vectorAddress, Nat.shiftLeft_eq, Nat.mul_comm]

theorem anyPending_eq (s : State) : s.anyPending = decide (∃ k : Level, s.queues[k] ≠ []) := by
  rw [Bool.eq_iff_iff, decide_eq_true_eq]
  simp [State.anyPending, Level.mem_descending]

/-- Both frame words in memory (R261). -/
def State.pushedFrame (s : State) (sp : Long) : Bus := (s.bus.poke (sp - 4) .l s.pc).poke (sp - 6) .w s.sr.word

/-- The state after the delivery of `v` of level `l`, with supervisor stack pointer `sp` before it. -/
def State.delivered (s : State) (l : Level) (v : Byte) (rest : List Byte) (sp : Long) : State :=
  { s with
    a := s.a.set 7 (.val (sp - 6))
    shadowSP := s.usp
    pc := (s.pushedFrame sp).peek (4 * v.setWidth 32) .l
    sr := { s.sr with s := true, i := BitVec.ofNat 3 (l.val + 1) }
    queues := s.queues.set l rest
    outstanding := decide (∃ k : Level, (s.queues.set l rest)[k] ≠ [])
    bus := { s.pushedFrame sp with log := s.bus.log ++ deliveryAccesses sp s.pc s.sr.word v } }

theorem maybeDeliverInterrupt_delivered {s : State} {l : Level} {v : Byte} {rest : List Byte} {sp : Long}
    (hd : s.deliverable = some l) (hq : s.queues[l] = v :: rest) (hp : s.plainBus) (hsp : s.ssp = .val sp)
    (hm : misaligned sp .l = false) : maybeDeliverInterrupt s = .ok () (s.delivered l v rest sp) := by
  obtain ⟨hd', -, hsr, hqs, -, hf, hbus, hport⟩ := s.entered_fields l rest
  have hplain : (s.entered l rest).plainBus := by rw [State.plainBus, hbus]; exact hp
  rw [maybeDeliverInterrupt_eq hd hq, enterHandler_plain hplain ((s.entered_live l rest).trans hsp) hm, hbus,
    vectorAddress_eq, anyPending_eq, hqs]
  exact congrArg _ (State.mk.injEq .. |>.mpr ⟨hd', s.entered_set_live l rest _, s.entered_shadow l rest, rfl, hsr, hqs,
    rfl, hf, rfl, hport⟩)

/-- Settles O53: the mode switch and the entry to the handler, field by field. -/
theorem deliverySequence : Obligations.DeliverySequence :=
  fun _ _ _ _ _ hd hq hp hsp hm => maybeDeliverInterrupt_delivered hd hq hp hsp hm

/-! ### Where a delivery stops (R242-R244, R260) -/

section
variable {s : State} {oldpc sp : Long} {old : Word} {v : Byte}

theorem enterHandler_unwritten (h : s.cell (.a 7) = .unwritten) :
    enterHandler oldpc old v s = .error (.fault (.unwritten (.a 7))) s :=
  Op.bind_of_error (readReg_error.mpr ⟨h, rfl, rfl⟩)

/-- The stack pointer answers, and the first push stops. -/
theorem enterHandler_firstPush_stop {t : State} {e : Stop} (h : s.cell (.a 7) = .val sp)
    (h1 : busWrite .framePush .supervisorData (sp - 4) .l oldpc s = .error e t) :
    enterHandler oldpc old v s = .error e t := by
  rw [enterHandler, Op.bind_of_ok (readReg_ok.mpr ⟨h, rfl⟩), Op.bind_of_error h1]

theorem enterHandler_secondPush_stop {t u : State} {e : Stop} (h : s.cell (.a 7) = .val sp)
    (h1 : busWrite .framePush .supervisorData (sp - 4) .l oldpc s = .ok () u)
    (h2 : busWrite .framePush .supervisorData (sp - 6) .w old u = .error e t) :
    enterHandler oldpc old v s = .error e t := by
  rw [enterHandler, Op.bind_of_ok (readReg_ok.mpr ⟨h, rfl⟩), Op.bind_of_ok h1, Op.bind_of_error h2]

/-- Both pushes have answered and A7 is written when the vector fetch stops. -/
theorem enterHandler_vectorFetch_stop {t u w : State} {e : Stop} (h : s.cell (.a 7) = .val sp)
    (h1 : busWrite .framePush .supervisorData (sp - 4) .l oldpc s = .ok () u)
    (h2 : busWrite .framePush .supervisorData (sp - 6) .w old u = .ok () w)
    (h3 : busRead .vectorFetch .supervisorProgram (vectorAddress v) .l (w.setA 7 (.val (sp - 6))) = .error e t) :
    enterHandler oldpc old v s = .error e t := by
  rw [enterHandler, Op.bind_of_ok (readReg_ok.mpr ⟨h, rfl⟩), Op.bind_of_ok h1, Op.bind_of_ok h2,
    Op.bind_of_ok (writeA_run _ _ _), Op.bind_of_error h3]

end

theorem misaligned_sub_four {sp : Long} : misaligned (sp - 4) .l = misaligned sp .l := by
  have h (a b : Long) (hab : a.toNat % 2 = b.toNat % 2) : misaligned a .l = misaligned b .l := by
    rw [Bool.eq_iff_iff, misaligned_iff, misaligned_iff, hab]
  apply h
  bv_omega

/-- The access of a push (R260). -/
def pushAccess (a : Long) (sz : Size) (v : BitVec sz.bits) : Access :=
  ⟨.framePush, .supervisorData, a, sz, some (v.setWidth 32)⟩

section
variable {s : State} {oldpc sp : Long} {old : Word} {v : Byte} (h : s.cell (.a 7) = .val sp)
include h

theorem enterHandler_misaligned (hm : misaligned sp .l = true) :
    enterHandler oldpc old v s = .error (.fault (.misaligned .framePush .supervisorData (sp - 4) .l)) s :=
  enterHandler_firstPush_stop h (busWrite_error.mpr (.inl ⟨misaligned_sub_four.trans hm, rfl, rfl⟩))

variable (hm : misaligned sp .l = false) {u : Option Long}
include hm

theorem enterHandler_firstPush_fails (hu : s.bus.answer = .fail u) :
    ∃ r, enterHandler oldpc old v s = .error (.fault (.busFault .framePush .supervisorData (sp - 4) .l)) r ∧
      r = s.setBus r.bus ∧ ∀ c, s.bus.cell c ∉ s.bus.footprint (sp - 4) .l →
        r.bus.peekByte c = s.bus.peekByte c := by
  obtain ⟨b, hw, hb⟩ := busWrite_fail (k := .framePush) (g := .supervisorData) (sz := .l) oldpc
    (misaligned_sub_four.trans hm) hu
  exact ⟨_, enterHandler_firstPush_stop h hw, rfl, hb⟩

variable {more : List BusAnswer}

theorem enterHandler_secondPush_fails (hu : s.bus.answers = .memory :: .fail u :: more) :
    ∃ r, enterHandler oldpc old v s = .error (.fault (.busFault .framePush .supervisorData (sp - 6) .w)) r ∧
      r = s.setBus r.bus ∧ ∀ c, s.bus.cell c ∉ s.bus.footprint (sp - 6) .w →
        r.bus.peekByte c = (s.bus.poke (sp - 4) .l oldpc).peekByte c := by
  have h1 := busWrite_memory (k := .framePush) (g := .supervisorData) (sz := .l) (v := oldpc)
    (misaligned_sub_four.trans hm) hu
  set b1 : Bus := (s.bus.poke (sp - 4) .l oldpc).issue (pushAccess (sp - 4) .l oldpc) with hb1
  have hbits : b1.addrBits = s.bus.addrBits := Bus.poke_addrBits _ _ _ _
  have hfail : (s.setBus b1).bus.answer = .fail u := by simp [Bus.answer, hb1, hu]
  obtain ⟨b, hw, hb⟩ := busWrite_fail (k := .framePush) (g := .supervisorData) (sz := .w) old
    (misaligned_sub (k := 6) rfl hm) hfail
  refine ⟨_, enterHandler_secondPush_stop h h1 hw, rfl, fun c hc => hb c ?_⟩
  rwa [State.setBus_bus, Bus.cell_congr hbits, Bus.footprint_congr hbits]

theorem enterHandler_vectorFetch_fails (hu : s.bus.answers = .memory :: .memory :: .fail u :: more) :
    ∃ r, enterHandler oldpc old v s =
        .error (.fault (.busFault .vectorFetch .supervisorProgram (vectorAddress v) .l)) r ∧
      r = (s.setA 7 (.val (sp - 6))).setBus r.bus ∧
      r.bus.mem = ((s.bus.poke (sp - 4) .l oldpc).poke (sp - 6) .w old).mem := by
  have h1 := busWrite_memory (k := .framePush) (g := .supervisorData) (sz := .l) (v := oldpc)
    (misaligned_sub_four.trans hm) hu
  set b1 : Bus := (s.bus.poke (sp - 4) .l oldpc).issue (pushAccess (sp - 4) .l oldpc) with hb1
  have hmem : (s.setBus b1).bus.answers = .memory :: .fail u :: more := by simp [hb1, hu]
  have h2 := busWrite_memory (k := .framePush) (g := .supervisorData) (sz := .w) (v := old)
    (misaligned_sub (k := 6) rfl hm) hmem
  set b2 : Bus := (b1.poke (sp - 6) .w old).issue (pushAccess (sp - 6) .w old) with hb2
  have hfail : b2.answer = .fail u := by simp [Bus.answer, hb2, hb1, hu]
  obtain ⟨b, h3, hb⟩ := busRead_fail (k := .vectorFetch) (g := .supervisorProgram)
    (s := (s.setBus b2).setA 7 (.val (sp - 6))) (vectorAddress_aligned v) hfail
  refine ⟨_, enterHandler_vectorFetch_stop h h1 h2 h3, rfl, ?_⟩
  rw [State.setBus_bus, hb, State.setA_bus, State.setBus_bus, hb2, hb1, Bus.poke_issue]
  rfl

end

/-- Settles O55: the mode switch answers, and the entry stops at one of its accesses. -/
theorem deliveryFaults : Obligations.DeliveryFaults := by
  intro s l v rest hd hq t
  have hrun : maybeDeliverInterrupt s = enterHandler s.pc s.sr.word v t := maybeDeliverInterrupt_eq hd hq
  have hlive : t.cell (.a 7) = s.ssp := s.entered_live l rest
  have hbus : t.bus = s.bus := s.entered_bus l rest
  rw [hrun, ← hlive, ← hbus, ← vectorAddress_eq]
  exact ⟨enterHandler_unwritten, fun sp hsp => ⟨enterHandler_misaligned hsp, fun hm u =>
    ⟨enterHandler_firstPush_fails hsp hm, fun more =>
      ⟨enterHandler_secondPush_fails hsp hm, enterHandler_vectorFetch_fails hsp hm⟩⟩⟩⟩

/-! ### The frame (R261) -/

/-- Cells less than the smaller address space apart are different. -/
theorem Bus.cell_add_ne (b : Bus) (a : Long) {j k : Nat} (hj : j < 2 ^ 24) (hk : k < 2 ^ 24) (h : j ≠ k) :
    b.cell (a + BitVec.ofNat 32 j) ≠ b.cell (a + BitVec.ofNat 32 k) := by
  have := a.isLt
  simp only [Bus.cell, BitVec.toNat_add, BitVec.toNat_ofNat]
  cases b.addrBits <;> simp only [AddrBits.count] <;> omega

/-- A long none of whose bytes a store writes is as before. -/
theorem Bus.peekLong_poke_outside {b : Bus} {a c : Long} {sz : Size} (v : BitVec sz.bits)
    (h : ∀ k < 4, b.cell (c + BitVec.ofNat 32 k) ∉ b.footprint a sz) : (b.poke a sz v).peekLong c = b.peekLong c := by
  have byte (k : Nat) (hk : k < 4) :
      (b.poke a sz v).peekByte (c + BitVec.ofNat 32 k) = b.peekByte (c + BitVec.ofNat 32 k) :=
    Bus.peekByte_poke_outside v (h k hk)
  have h0 : (b.poke a sz v).peekByte c = b.peekByte c := by simpa using byte 0 (by decide)
  have h1 : (b.poke a sz v).peekByte (c + 1) = b.peekByte (c + 1) := byte 1 (by decide)
  have h2 : (b.poke a sz v).peekByte (c + 2) = b.peekByte (c + 2) := byte 2 (by decide)
  have h3 : (b.poke a sz v).peekByte (c + 2 + 1) = b.peekByte (c + 2 + 1) := by
    rw [BitVec.add_assoc]
    exact byte 3 (by decide)
  simp only [Bus.peekLong, Bus.peekWord, Bus.poke_byteOrder, h0, h1, h2, h3]

/-- The status word is pushed below the pc and touches none of its bytes. -/
theorem State.pushedFrame_peek {s : State} (hwf : s.bus.wf = true) (sp : Long) :
    (s.pushedFrame sp).peekWord (sp - 6) = s.sr.word ∧ (s.pushedFrame sp).peekLong (sp - 4) = s.pc := by
  refine ⟨Bus.peek_poke (Bus.wf_poke _ _ _ hwf) (sp - 6) .w _, ?_⟩
  rw [State.pushedFrame, Bus.peekLong_poke_outside]
  · exact Bus.peek_poke hwf (sp - 4) .l s.pc
  · intro k hk
    have hk4 : sp - 4 + BitVec.ofNat 32 k = sp - 6 + BitVec.ofNat 32 (k + 2) := by bv_omega
    have h0 := (s.bus.poke (sp - 4) .l s.pc).cell_add_ne (sp - 6) (j := k + 2) (k := 0) (by omega) (by decide) (by omega)
    have h1 := (s.bus.poke (sp - 4) .l s.pc).cell_add_ne (sp - 6) (j := k + 2) (k := 1) (by omega) (by decide) (by omega)
    rw [BitVec.ofNat_eq_ofNat, BitVec.add_zero] at h0
    rw [hk4, Bus.footprint, List.mem_pair]
    exact fun h => h.elim h0 h1

/-- A delivery that completes on the reference bus found its stack pointer even, and has left the frame (R260). -/
theorem maybeDeliverInterrupt_next {s t : State} {l : Level} {sp : Long} (hd : s.deliverable = some l) (hp : s.plainBus)
    (hsp : s.ssp = .val sp) (h : maybeDeliverInterrupt s = .ok () t) :
    ∃ v rest, t = s.delivered l v rest sp := by
  obtain ⟨v, rest, hq⟩ := deliverable_queue hd
  refine ⟨v, rest, ?_⟩
  cases hm : misaligned sp .l with
  | true =>
    obtain ⟨-, hf⟩ := deliveryFaults s l v rest hd hq
    rw [(hf sp hsp).1 hm] at h
    cases h
  | false =>
    rw [maybeDeliverInterrupt_delivered hd hq hp hsp hm] at h
    exact (EStateM.Result.ok.inj h).2.symm

/-- Settles O54: the frame in the memory that the delivery has left. -/
theorem interruptFrame : Obligations.InterruptFrame := by
  intro s t l sp hd hp hwf hsp h
  obtain ⟨v, rest, rfl⟩ := maybeDeliverInterrupt_next hd hp hsp h
  obtain ⟨hsr, hpc⟩ := s.pushedFrame_peek hwf sp
  exact ⟨by simp [State.ssp, State.delivered], hsr, hpc⟩

/-! ### The return from a handler (R265) -/

theorem step_busRead {s : State} {a : Long} {sz : Size} {rest : List HostCall}
    (h : s.port.calls = .busRead a sz :: rest) :
    step s = .next (s.setPort ⟨rest, .value ((s.bus.peek a sz).setWidth 32)⟩) := by
  rw [step_call h (by simp)]
  rfl

theorem step_setPc {s : State} {v : Long} {rest : List HostCall} (h : s.port.calls = .setPc v :: rest) :
    step s = .next ((s.setPC v).setPort ⟨rest, .ok⟩) := by
  rw [step_call h (by simp)]
  rfl

theorem step_setLiveStack {s : State} {v : Long} {rest : List HostCall}
    (h : s.port.calls = .setRegister 15 .l v :: rest) :
    step s = .next ((s.setA 7 (.val v)).setPort ⟨rest, .ok⟩) := by
  rw [step_setRegister h]
  rfl

theorem State.setPort_setPC (s : State) (p : HostPort) (v : Long) :
    (s.setPort p).setPC v = (s.setPC v).setPort p := rfl

theorem State.setPort_setStatus (s : State) (p : HostPort) (v : Word) :
    (s.setPort p).setStatus v = (s.setStatus v).setPort p := by
  rw [State.setStatus, State.enterPrivileged_setPort]
  rfl

/-- The host's five calls: the frame read, then A7 past it, and the pc and the status word it holds. -/
theorem runSteps_resumeCalls (t : State) (r : HostReply) :
    (t.setPort ⟨t.resumeCalls, r⟩).runSteps 5 =
      .next ((((t.setA 7 (.val (t.value (.a 7) + 6))).setPC (t.bus.peekLong (t.value (.a 7) + 2))).setStatus
        (t.bus.peekWord (t.value (.a 7)))).setPort ⟨[], .ok⟩) := by
  rw [State.resumeCalls, State.runSteps_next (step_busRead rfl), State.runSteps_next (step_busRead rfl),
    State.runSteps_next (step_setLiveStack rfl), State.runSteps_next (step_setPc rfl),
    State.runSteps_next (step_setStatus rfl), State.runSteps_zero]
  simp only [State.setPort_setPort, State.setPort_setA, State.setPort_setPC, State.setPort_setStatus]

/-- A composed status word sets the status it was composed from (R31, R34). -/
theorem State.setStatus_compose (s : State) (r : StatusReg) : s.setStatus r.word = (s.enterPrivileged r.s).setSR r := by
  have bit (k : Nat) (hk : k < 16) : r.word.getLsbD k = r.bit k := r.word_getLsbD hk
  have hi : r.word.extractLsb' 8 3 = r.i := by
    apply BitVec.eq_of_getLsbD_eq
    intro k hk
    rw [BitVec.getLsbD_extractLsb', bit _ (by omega)]
    interval_cases k <;> simp [StatusReg.bit]
  rw [State.setStatus, hi, bit 13 (by decide), bit 4 (by decide), bit 3 (by decide), bit 2 (by decide),
    bit 1 (by decide), bit 0 (by decide)]
  rfl

/-- Back in the interrupted mode both stack slots hold what they held, once the live one is `sp` again. -/
theorem State.delivered_stack (s : State) (l : Level) (v : Byte) (rest : List Byte) {sp : Long} (hsp : s.ssp = .val sp)
    (pc : Long) :
    let u := ((s.delivered l v rest sp).setA 7 (.val sp)).setPC pc
    (u.enterPrivileged s.sr.s).a = s.a ∧ (u.enterPrivileged s.sr.s).shadowSP = s.shadowSP := by
  intro u
  have hmode : u.sr.s = true := rfl
  have ha : u.a = s.a.set 7 (.val sp) := by simp [u, State.delivered]
  have hsh : u.shadowSP = s.usp := rfl
  cases hs : s.sr.s with
  | true =>
    have h7 : s.a[7] = .val sp := by rw [← hsp, State.ssp, if_pos hs]
    rw [State.enterPrivileged_same hmode, ha, hsh, State.usp, if_pos hs, ← h7, Vector.set_getElem_self]
    exact ⟨rfl, rfl⟩
  | false =>
    have h7 : s.shadowSP = .val sp := by rw [← hsp, State.ssp, hs]; rfl
    rw [State.enterPrivileged_switch (by simp [hmode])]
    simp [ha, hsh, State.usp, hs, h7]

/-- Settles O56: the frame gives back the pc and the status word, and the mode the stack pointers. -/
theorem deliverThenResumeRestoresContext : Obligations.DeliverThenResumeRestoresContext := by
  intro s t l sp r hd hp hwf hsp h
  obtain ⟨v, rest, rfl⟩ := maybeDeliverInterrupt_next hd hp hsp h
  obtain ⟨hsr, hpc⟩ := s.pushedFrame_peek hwf sp
  obtain ⟨ha, hsh⟩ := s.delivered_stack l v rest hsp s.pc
  have h7 : (s.delivered l v rest sp).value (.a 7) = sp - 6 :=
    State.value_of_cell (by simp [State.cell, State.delivered])
  have hword : (s.delivered l v rest sp).bus.peekWord (sp - 6) = s.sr.word := hsr
  have hlong : (s.delivered l v rest sp).bus.peekLong (sp - 6 + 2) = s.pc := by
    rw [show sp - 6 + 2 = sp - 4 by bv_omega]
    exact hpc
  refine ⟨_, runSteps_resumeCalls _ r, ?_⟩
  rw [h7, hword, hlong, State.setStatus_compose, show sp - 6 + 6 = sp by bv_omega]
  obtain ⟨hd', hpc', hq, -, -, hb, -⟩ :=
    State.enterPrivileged_fields (((s.delivered l v rest sp).setA 7 (.val sp)).setPC s.pc) s.sr.s
  exact ⟨hd', ha, hsh, hpc', rfl, hq, hb, rfl⟩

/-! ### The step (R258) -/

/-- Settles O8: the delivery answers, and the loop's instruction is the handler's first. -/
theorem stepDeliversThenRunsTheHandler : Obligations.StepDeliversThenRunsTheHandler := by
  intro s t l i rest hc hd h hp hm hdec
  have hstep : step s = decodeAndExecute t := by simp only [step, hc, loopIteration, h]
  rw [hstep, decodeAndExecute_plain hp hm hdec]

end Sys2Proof.Machine
end

section
/-! SUPPORT. How a transaction stops (R240-R247, R264): never with a refusal, leaving everything but the bus as it was, and
with the fault of the first access that the bus fails. -/

namespace Sys2Proof.Machine

/-! ### No refusal (R111, R154, R246) -/

/-- Every Dn,`<ea>` instruction is a logical one (R92). -/
theorem logicalOp_of_toEa {i : Instr} {h : Handler} {sz : Size} {rx : Reg} {ea : EA sz} (hv : i.view = .toEa h sz rx ea) :
    ∃ op, h.logicalOp = some op := by
  have hreal := view_real i
  rw [hv] at hreal
  rcases hreal with rfl | rfl | rfl <;> exact ⟨_, rfl⟩

/-- The handler of a well-formed instruction stops only with a fault. -/
theorem runView_error_fault {i : Instr} {s t : State} {e : Stop} (hw : i.wellFormed = true)
    (h : runView i.view s = .error e t) : ∃ f, e = .fault f := by
  cases hv : i.view with
  | toReg g sz ea rx =>
    have hb := sized_source hv hw
    rw [hv] at h
    rcases runView_toReg g ea rx with ⟨-, op, hr⟩ | ⟨rfl, hr⟩ | ⟨-, hr⟩ <;> rw [hr] at h
    · obtain ⟨-, -, hf | ⟨hsz, han⟩ | hro⟩ := logicalHandler_error h
      · exact hf
      · exact absurd han (hb hsz)
      · cases hro
    · obtain ⟨-, hf | hsz⟩ := compareAddressHandler_error h
      · exact hf
      · exact absurd hsz (cmpa_size hv)
    · obtain ⟨-, hf | ⟨hsz, han | han⟩⟩ := compareHandler_error h
      · exact hf
      · exact absurd han (hb hsz)
      · cases han
  | toEa g sz rx ea =>
    obtain ⟨op, ho⟩ := logicalOp_of_toEa hv
    rw [hv, runView_toEa_logical ho] at h
    obtain ⟨-, -, hf | ⟨-, han⟩ | hro⟩ := logicalHandler_error h
    · exact hf
    · cases han
    · simp [dest_writable hw ho (.inl ⟨rx, hv⟩)] at hro
  | immToEa g sz x ea =>
    rw [hv] at h
    cases ho : g.logicalOp with
    | some op =>
      rw [runView_immToEa_logical ho] at h
      obtain ⟨-, -, hf | ⟨-, han⟩ | hro⟩ := logicalHandler_error h
      · exact hf
      · cases han
      · simp [dest_writable hw ho (.inr ⟨x, hv⟩)] at hro
    | none =>
      simp only [runView, ho] at h
      obtain ⟨-, hf | ⟨hsz, han | han⟩⟩ := compareHandler_error h
      · exact hf
      · cases han
      · exact absurd han (sized_immToEa hv hw hsz)
  | postInc sz ay ax =>
    rw [hv] at h
    obtain ⟨-, hf | ⟨-, han | han⟩⟩ := compareHandler_error h
    · exact hf
    · cases han
    · cases han

/-- A result whose stop is a fault is no refusal. -/
theorem toOutcome_ne_refused {α : Type} {x : EStateM.Result Stop State α}
    (h : ∀ e t, x = .error e t → ∃ f, e = .fault f) (r : Refusal) : toOutcome x ≠ .refused r := by
  rw [Ne, toOutcome_eq_refused]
  rintro ⟨t, ht⟩
  obtain ⟨f, hf⟩ := h _ _ ht
  cases hf

theorem exec_ne_refused {i : Instr} (hw : i.wellFormed = true) (s : State) (r : Refusal) : exec i s ≠ .refused r := by
  rw [exec_eq]
  exact toOutcome_ne_refused (fun _ _ h => runView_error_fault hw h) r

/-- What is fetched is assembled from a row of the table, so it is well formed. -/
theorem decodeAndExecute_ne_refused (s : State) (r : Refusal) : decodeAndExecute s ≠ .refused r := by
  cases hf : fetchInstr s with
  | ok i u =>
    obtain ⟨w, f, imm, x, -, hl, ha, -⟩ := fetchInstr_ok hf
    rw [decodeAndExecute_ok hf]
    exact exec_ne_refused (wellFormed_of_assemble (lookup_row hl).1 ha) u r
  | error e u =>
    obtain ⟨-, f, rfl⟩ := fetchInstr_error hf
    rw [decodeAndExecute_fault hf]
    simp

theorem loopIteration_ne_refused (s : State) (r : Refusal) : loopIteration s ≠ .refused r := by
  unfold loopIteration
  cases hd : maybeDeliverInterrupt s with
  | ok u s' => exact decodeAndExecute_ne_refused s' r
  | error e s' =>
    obtain ⟨f, rfl⟩ := maybeDeliverInterrupt_error hd
    simp

theorem hostCall_ne_refused (c : HostCall) (s : State) (r : Refusal) : hostCall c s ≠ .refused r := by
  by_cases hc : c = .decodeAndExecute
  · subst hc
    exact decodeAndExecute_ne_refused _ r
  · rw [hostCall_eq hc]
    exact toOutcome_ne_refused (fun _ _ h => hostTransaction_error h) r

/-- Settles O11: a step is an iteration of the loop or a host call. -/
theorem stepNeverRefuses : Obligations.StepNeverRefuses := by
  intro s r
  unfold step
  cases s.port.calls with
  | nil => exact loopIteration_ne_refused s r
  | cons c rest => exact hostCall_ne_refused c _ r

/-! ### What a fault leaves (R264) -/

theorem Reads.precise {s t : State} {xs : List Access} (R : Reads s t xs) :
    t = s.setBus t.bus ∧ t.bus.mem = s.bus.mem := by
  unfold Reads at R
  subst R
  exact ⟨rfl, rfl⟩

/-- Settles O45: nothing but reads has gone out when an operation stops, unless it is the logical write that fails. -/
theorem faultsArePrecise : Obligations.FaultsArePrecise := by
  refine ⟨fun s t e h => ?fetch, fun sz src dst s t e h => ?compare, fun sz src n s t e h => ?compareAddress,
    fun op sz src dst s t e h => ?logical⟩
  case fetch =>
    obtain ⟨⟨xs, R⟩, -⟩ := fetchInstr_error h
    exact R.precise
  case compare =>
    obtain ⟨⟨xs, R⟩, -⟩ := compareHandler_error h
    exact R.precise
  case compareAddress =>
    obtain ⟨⟨xs, R⟩, -⟩ := compareAddressHandler_error h
    exact R.precise
  case logical =>
    obtain ⟨hshape, ⟨xs, R⟩ | ⟨a, xs, r, v, hl, he, R, rfl⟩, -⟩ := logicalHandler_error h
    · exact ⟨hshape, .inl R.precise.2⟩
    · refine ⟨hshape, .inr ⟨a, hl, he, fun c hc => ?_⟩⟩
      have hc' : r.bus.cell c ∉ r.bus.footprint a sz := by
        rwa [Bus.cell_congr R.busKept.addrBits, Bus.footprint_congr R.busKept.addrBits]
      exact (Bus.peekByte_writeAnswer_outside v hc').trans (R.peek c .b)

/-! ### Fetches the bus fails (R68, R242) -/

/-- The size of the access that reads an extension of `n` bytes (R65). -/
def extAccessSize (n : Nat) : Size := if n = 2 then .w else .l

theorem fetchExt_fails {c : Long} {n : Nat} {s : State} (hn : n = 2 ∨ n = 4) (hc : misaligned c .w = false)
    (hf : s.bus.failsAt 0 = true) :
    ∃ t, fetchExt c n s = .error (.fault (.busFault .extension s.progTag c (extAccessSize n))) t := by
  have hl : misaligned c .l = false := (misaligned_add (n := 0) rfl .l .l hc).2
  rcases hn with rfl | rfl
  · obtain ⟨t, ht⟩ := busRead_fails (k := .extension) (g := s.progTag) hc hf
    refine ⟨t, ?_⟩
    simp only [fetchExt, Op.get_bind]
    exact Op.bind_of_error ht
  · exact busRead_fails hl hf

theorem fetchExt_passes {c : Long} {n j : Nat} {s : State} (hn : n = 2 ∨ n = 4) (hc : misaligned c .w = false)
    (hf : s.bus.failsAt (j + 1) = true) :
    ∃ v t xs, fetchExt c n s = .ok v t ∧ Reads s t xs ∧ t.bus.failsAt j = true := by
  have hl : misaligned c .l = false := (misaligned_add (n := 0) rfl .l .l hc).2
  rcases hn with rfl | rfl
  · obtain ⟨v, t, ht, R, hft⟩ := busRead_passes (k := .extension) (g := s.progTag) hc hf
    exact ⟨_, t, _, Op.bind_of_ok ht, R, hft⟩
  · obtain ⟨v, t, ht, R, hft⟩ := busRead_passes (k := .extension) (g := s.progTag) hl hf
    exact ⟨v, t, _, ht, R, hft⟩

/-- The opcode fetch answers with the word the bus gives, and the next failure is one access nearer. -/
theorem opcodeRead_passes {s : State} {w : Word} {j : Nat} (ha : misaligned s.pc .w = false)
    (hw : s.bus.readAnswer s.pc .w = some w) (hf : s.bus.failsAt (j + 1) = true) :
    ∃ u xs, busRead .opcode s.progTag s.pc .w s = .ok w u ∧ Reads s u xs ∧ u.bus.failsAt j = true := by
  obtain ⟨v, u, hu, R, hfu⟩ := busRead_passes (k := .opcode) (g := s.progTag) ha hf
  obtain ⟨-, hv, -⟩ := busRead_ok.mp hu
  obtain rfl : w = v := by simpa [hw] using hv
  exact ⟨u, _, hu, R, hfu⟩

section
variable {s u : State} {w : Word} {f : Form} (h : busRead .opcode s.progTag s.pc .w s = .ok w u)
  (hl : lookup (dispatchTable s.families) w = some f)
  (hs : ((sourceRegs f w).all fun r => (u.cell r).written) = true) {t : State} {e : Stop}
include h hl hs

theorem fetchInstr_imm_stop (h1 : fetchExt (s.pc + 2) f.immSize u = .error e t) : fetchInstr s = .error e t := by
  simp only [fetchInstr, Op.get_bind, Op.bind_of_ok h, hl, Op.bind_of_ok (requireRegs_written hs)]
  exact Op.bind_of_error h1

theorem fetchInstr_ea_stop {u' : State} {imm : Long} (h1 : fetchExt (s.pc + 2) f.immSize u = .ok imm u')
    (h2 : fetchExt (s.pc + 2 + BitVec.ofNat 32 f.immSize) f.eaSize u' = .error e t) : fetchInstr s = .error e t := by
  simp only [fetchInstr, Op.get_bind, Op.bind_of_ok h, hl, Op.bind_of_ok (requireRegs_written hs), Op.bind_of_ok h1]
  exact Op.bind_of_error h2

end

theorem decodeAndExecute_opcode_fails {s : State} (ha : misaligned s.pc .w = false) (hf : s.bus.failsAt 0 = true) :
    decodeAndExecute s = .fault (.busFault .opcode s.progTag s.pc .w) := by
  obtain ⟨t, ht⟩ := busRead_fails (k := .opcode) (g := s.progTag) ha hf
  have hfetch : fetchInstr s = .error (.fault (.busFault .opcode s.progTag s.pc .w)) t := by
    simp only [fetchInstr, Op.get_bind]
    exact Op.bind_of_error ht
  exact decodeAndExecute_fault hfetch

section
variable {s : State} {w : Word} {f : Form} (ha : misaligned s.pc .w = false) (hw : s.bus.readAnswer s.pc .w = some w)
  (hl : lookup (dispatchTable s.families) w = some f) (hs : ((sourceRegs f w).all fun r => (s.cell r).written) = true)
include ha hw hl hs

theorem decodeAndExecute_imm_fails (hi : f.immSize ≠ 0) (hf : s.bus.failsAt 1 = true) :
    decodeAndExecute s = .fault (.busFault .extension s.progTag (s.pc + 2) (extAccessSize f.immSize)) := by
  obtain ⟨u, xs, hu, R, hfu⟩ := opcodeRead_passes ha hw hf
  have c1 : misaligned (s.pc + 2) .w = false := (misaligned_add (n := 2) rfl .w .w ha).1
  obtain ⟨t, ht⟩ := fetchExt_fails (f.sizes.1.resolve_left hi) c1 hfu
  rw [R.tags.2] at ht
  exact decodeAndExecute_fault (fetchInstr_imm_stop hu hl (by simpa only [R.cell] using hs) ht)

/-- Without an immediate the `<ea>`'s extension is the first one. -/
theorem decodeAndExecute_ea_fails (hi : f.immSize = 0) (he : f.eaSize ≠ 0) (hf : s.bus.failsAt 1 = true) :
    decodeAndExecute s = .fault (.busFault .extension s.progTag (s.pc + 2) (extAccessSize f.eaSize)) := by
  obtain ⟨u, xs, hu, R, hfu⟩ := opcodeRead_passes ha hw hf
  have c1 : misaligned (s.pc + 2) .w = false := (misaligned_add (n := 2) rfl .w .w ha).1
  obtain ⟨t, ht⟩ := fetchExt_fails (f.sizes.2.resolve_left he) c1 hfu
  rw [R.tags.2] at ht
  have h1 : fetchExt (s.pc + 2) f.immSize u = .ok 0 u := by rw [hi]; rfl
  exact decodeAndExecute_fault (fetchInstr_ea_stop hu hl (by simpa only [R.cell] using hs) h1
    (by rwa [hi, BitVec.ofNat_eq_ofNat, BitVec.add_zero]))

theorem decodeAndExecute_second_ext_fails (hi : f.immSize ≠ 0) (he : f.eaSize ≠ 0) (hf : s.bus.failsAt 2 = true) :
    decodeAndExecute s = .fault
      (.busFault .extension s.progTag (s.pc + 2 + BitVec.ofNat 32 f.immSize) (extAccessSize f.eaSize)) := by
  obtain ⟨u, xs, hu, R, hfu⟩ := opcodeRead_passes ha hw hf
  obtain ⟨hisz, hesz⟩ := f.sizes
  have c1 : misaligned (s.pc + 2) .w = false := (misaligned_add (n := 2) rfl .w .w ha).1
  have c2 : misaligned (s.pc + 2 + BitVec.ofNat 32 f.immSize) .w = false := (misaligned_add (by omega) .w .w c1).1
  obtain ⟨imm, u', ys, h1, R', hfu'⟩ := fetchExt_passes (hisz.resolve_left hi) c1 hfu
  obtain ⟨t, ht⟩ := fetchExt_fails (hesz.resolve_left he) c2 hfu'
  rw [R'.tags.2, R.tags.2] at ht
  exact decodeAndExecute_fault (fetchInstr_ea_stop hu hl (by simpa only [R.cell] using hs) h1 ht)

end

/-! ### Operand accesses the bus fails -/

/-- An operand in program space whose read the bus fails. -/
theorem readOperand_prog_fails {sz : Size} {ea : EA sz} {c a : Long} {s : State} (hr : ea.ready s c = true)
    (hl : ea.loc s c = .prog a) (hf : s.bus.failsAt 0 = true) :
    ∃ t, readOperand ea c s = .error (.fault (.busFault .operandRead s.progTag a sz)) t := by
  obtain ⟨hw, ha, -⟩ := EA.ready_parts hr
  rw [readOperand_loc hw, hl]
  exact busRead_fails (by simpa [hl, Loc.aligned] using ha) hf

/-- The write back of a destination in memory, after a source that makes no access. -/
theorem logicalHandler_write_fails {op : LogicalOp} {sz : Size} {src dst : EA sz} {s : State} {a : Long}
    {x : BitVec sz.bits} (h1 : readOperand src (s.pc + 2) s = .ok x s)
    (hr : dst.ready s (s.pc + 2 + BitVec.ofNat 32 src.extSize) = true)
    (hl : dst.loc s (s.pc + 2 + BitVec.ofNat 32 src.extSize) = .mem a) (hf : s.bus.failsAt 1 = true) :
    ∃ t, logicalHandler op sz src dst s = .error (.fault (.busFault .operandWrite s.dataTag a sz)) t := by
  obtain ⟨-, ha, -⟩ := EA.ready_parts hr
  rw [hl] at ha
  have hm : misaligned a sz = false := by simpa [Loc.aligned] using ha
  obtain ⟨y, u, h2, R, hfu⟩ := readOperand_passes hr hl hf
  obtain ⟨t, ht⟩ := busWrite_fails (k := .operandWrite) (g := s.dataTag) (v := op.apply y x) hm hfu
  refine ⟨t, logicalHandler_write_stop h1 h2 ?_⟩
  rw [hl, Loc.put, Op.get_bind, R.tags.1]
  exact ht

theorem exec_toReg_read_fails {h : Handler} {sz : Size} {ea : EA sz} {rx : Reg} {i : Instr} {s : State} {a : Long}
    (hv : i.view = .toReg h sz ea rx) (hr : ea.ready s (s.pc + 2) = true) (hf : s.bus.failsAt 0 = true) :
    (ea.loc s (s.pc + 2) = .mem a → exec i s = .fault (.busFault .operandRead s.dataTag a sz)) ∧
    (ea.loc s (s.pc + 2) = .prog a → exec i s = .fault (.busFault .operandRead s.progTag a sz)) := by
  refine ⟨fun hl => ?_, fun hl => ?_⟩
  · obtain ⟨t, ht⟩ := readOperand_fails hr hl hf
    exact exec_fault hv (runView_toReg_source_stop ht)
  · obtain ⟨t, ht⟩ := readOperand_prog_fails hr hl hf
    exact exec_fault hv (runView_toReg_source_stop ht)

theorem exec_toEa_access_fails {h : Handler} {sz : Size} {dn : Reg} {ea : EA sz} {i : Instr} {s : State} {a : Long}
    (hv : i.view = .toEa h sz dn ea) (hd : (s.cell (.d dn)).written = true) (hr : ea.ready s (s.pc + 2) = true)
    (hl : ea.loc s (s.pc + 2) = .mem a) :
    (s.bus.failsAt 0 = true → exec i s = .fault (.busFault .operandRead s.dataTag a sz)) ∧
    (s.bus.failsAt 1 = true → exec i s = .fault (.busFault .operandWrite s.dataTag a sz)) := by
  refine ⟨fun hf => ?_, fun hf => ?_⟩
  · obtain ⟨t, ht⟩ := readOperand_fails hr hl hf
    exact exec_fault hv (runView_toEa_dest_stop hd ht)
  · obtain ⟨op, ho⟩ := logicalOp_of_toEa hv
    have hs : readOperand (.dn dn : EA sz) (s.pc + 2) s = .ok _ s :=
      readOperand_quiet (by simp [EA.variant]) (by simp [EA.regs, hd]) rfl
    have hcursor : s.pc + 2 + BitVec.ofNat 32 (EA.dn dn : EA sz).extSize = s.pc + 2 := BitVec.add_zero _
    obtain ⟨t, ht⟩ := logicalHandler_write_fails (op := op) hs (by rwa [hcursor]) (by rwa [hcursor]) hf
    rw [← runView_toEa_logical ho] at ht
    exact exec_fault hv ht

theorem exec_immToEa_access_fails {h : Handler} {sz : Size} {v : BitVec sz.bits} {ea : EA sz} {i : Instr} {s : State}
    {a : Long} (hv : i.view = .immToEa h sz v ea)
    (hr : ea.ready s (s.pc + 2 + BitVec.ofNat 32 (Variant.imm.extSize sz)) = true)
    (hl : ea.loc s (s.pc + 2 + BitVec.ofNat 32 (Variant.imm.extSize sz)) = .mem a) :
    (s.bus.failsAt 0 = true → exec i s = .fault (.busFault .operandRead s.dataTag a sz)) ∧
    (h.logicalOp ≠ none → s.bus.failsAt 1 = true → exec i s = .fault (.busFault .operandWrite s.dataTag a sz)) := by
  refine ⟨fun hf => ?_, fun ho hf => ?_⟩
  · obtain ⟨t, ht⟩ := readOperand_fails hr hl hf
    exact exec_fault hv (runView_immToEa_dest_stop ht)
  · obtain ⟨op, ho⟩ := Option.ne_none_iff_exists'.mp ho
    have hs : readOperand (.imm v : EA sz) (s.pc + 2) s = .ok _ s :=
      readOperand_quiet (by simp [EA.variant]) (by simp [EA.regs]) rfl
    obtain ⟨t, ht⟩ := logicalHandler_write_fails (op := op) hs hr hl hf
    rw [← runView_immToEa_logical ho] at ht
    exact exec_fault hv ht

theorem exec_postInc_read_fails {sz : Size} {ay ax : Reg} {i : Instr} {s : State} {y x : Long}
    (hv : i.view = .postInc sz ay ax) (hy : s.cell (.a ay) = .val y) (hx : s.cell (.a ax) = .val x)
    (hm : misaligned y sz = false) :
    (s.bus.failsAt 0 = true → exec i s = .fault (.busFault .operandRead s.dataTag y sz)) ∧
    (misaligned x sz = false → s.bus.failsAt 1 = true → exec i s = .fault (.busFault .operandRead s.dataTag x sz)) := by
  refine ⟨fun hf => ?_, fun hm' hf => ?_⟩
  · obtain ⟨t, ht⟩ := readOperand_fails (ready_postInc hy hm) (EA.loc_postInc hy) hf
    exact exec_fault hv (compareHandler_source_stop ht)
  · obtain ⟨_, u, hu, R, hfu⟩ := readOperand_passes (ready_postInc hy hm) (EA.loc_postInc hy) hf
    have hxu : u.cell (.a ax) = .val x := (R.cell _).trans hx
    obtain ⟨t, ht⟩ := readOperand_fails (ready_postInc hxu hm') (EA.loc_postInc hxu) hfu
    rw [R.tags.1] at ht
    exact exec_fault hv (compareHandler_dest_stop hu ht)

/-- Settles O47: the opcode fetch, the extension fetches, and the accesses of the four operand shapes. -/
theorem busFailuresFault : Obligations.BusFailuresFault :=
  ⟨fun _ => decodeAndExecute_opcode_fails,
    fun _ _ _ ha hw hl hs => ⟨decodeAndExecute_imm_fails ha hw hl hs, decodeAndExecute_ea_fails ha hw hl hs,
      decodeAndExecute_second_ext_fails ha hw hl hs⟩,
    fun _ _ _ _ _ _ _ hv hr hf => exec_toReg_read_fails hv hr hf,
    fun _ _ _ _ _ _ _ hv hd hr hl => exec_toEa_access_fails hv hd hr hl,
    fun _ _ _ _ _ _ _ hv hr hl => exec_immToEa_access_fails hv hr hl,
    fun _ _ _ _ _ _ _ hv hy hx hm => exec_postInc_read_fails hv hy hx hm⟩

end Sys2Proof.Machine
end

section
/-! SUPPORT. Every instruction executes alike in both modes (R250): two runs from states that differ in the mode and in the
tags of the accesses so far go through the same operations, which never look at either. -/

namespace Sys2Proof.Machine

/-! ### States that differ in the mode -/

/-- An access apart from its tag. -/
def Access.untagged (x : Access) : AccessKind × Long × Size × Option Long := (x.kind, x.addr, x.size, x.sent)

/-- The state in mode `b`, with `log` for its accesses so far. -/
def State.inMode (s : State) (b : Bool) (log : List Access) : State :=
  { s with sr := { s.sr with s := b }, bus := { s.bus with log := log } }

/-- The two lists hold the same accesses, apart from their tags. -/
def SameAccesses (xs ys : List Access) : Prop := xs.map Access.untagged = ys.map Access.untagged

theorem SameAccesses.append {xs ys : List Access} (h : SameAccesses xs ys) {x y : Access} (hxy : x.untagged = y.untagged) :
    SameAccesses (xs ++ [x]) (ys ++ [y]) := by
  simp only [SameAccesses, List.map_append, List.map_singleton, hxy] at h ⊢
  rw [h]

/-- When `x` answers from a state, `y` gives the same answer from that state in mode `b`, and the states they leave differ
again in the mode and the tags alone. -/
def AlikeInMode {α : Type} (b : Bool) (x y : Op α) : Prop :=
  ∀ (s t : State) (log : List Access) (a : α), SameAccesses log s.bus.log → x s = .ok a t →
    ∃ log', SameAccesses log' t.bus.log ∧ y (s.inMode b log) = .ok a (t.inMode b log')

/-! ### The rules of a run -/

section
variable {α β : Type} {b : Bool}

theorem AlikeInMode.bind {x y : Op α} {f g : α → Op β} (h : AlikeInMode b x y) (hf : ∀ a, AlikeInMode b (f a) (g a)) :
    AlikeInMode b (x >>= f) (y >>= g) := by
  intro s t log c hlog hx
  obtain ⟨a, u, hu, hft⟩ := Op.bind_eq_ok.mp hx
  obtain ⟨log1, hlog1, hy⟩ := h s u log a hlog hu
  obtain ⟨log2, hlog2, hg⟩ := hf a u t log1 c hlog1 hft
  exact ⟨log2, hlog2, (Op.bind_of_ok hy).trans hg⟩

theorem AlikeInMode.get {f g : State → Op β} (h : ∀ s log, AlikeInMode b (f s) (g (s.inMode b log))) :
    AlikeInMode b (MonadState.get >>= f) (MonadState.get >>= g) :=
  fun s t log c hlog hf => h s log s t log c hlog hf

theorem AlikeInMode.pure (a : α) : AlikeInMode b (Pure.pure a : Op α) (Pure.pure a) := by
  rintro s t log c hlog ⟨⟩
  exact ⟨log, hlog, rfl⟩

theorem AlikeInMode.throw (e : Stop) (y : Op α) : AlikeInMode b (MonadExcept.throw e : Op α) y := by
  rintro s t log c - ⟨⟩

/-- An update that leaves the log and does not look at the mode. -/
theorem AlikeInMode.modify {f : State → State} (hlog : ∀ s, (f s).bus.log = s.bus.log)
    (hf : ∀ s log, f (s.inMode b log) = (f s).inMode b log) : AlikeInMode b (modify f : Op PUnit) (modify f) := by
  rintro s t log c hs ⟨⟩
  exact ⟨log, hlog s ▸ hs, congrArg _ (hf s log)⟩

end

section
variable {b : Bool}

/-! ### Bus accesses, whatever their tags -/

theorem alike_busRead {k : AccessKind} {g g' : Tag} {a : Long} {sz : Size} :
    AlikeInMode b (busRead k g a sz) (busRead k g' a sz) := by
  intro s t log v hlog h
  obtain ⟨hm, hv, rfl⟩ := busRead_ok.mp h
  exact ⟨_, hlog.append (x := ⟨k, g', a, sz, none⟩) rfl, busRead_ok.mpr ⟨hm, hv, rfl⟩⟩

theorem Bus.writeAnswer_setLog (c : Bus) (log : List Access) (a : Long) (sz : Size) (v : BitVec sz.bits) :
    Bus.writeAnswer { c with log := log } a sz v =
      ({ (c.writeAnswer a sz v).1 with log := log }, (c.writeAnswer a sz v).2) := by
  have hpoke (u : BitVec sz.bits) : Bus.poke { c with log := log } a sz u = { c.poke a sz u with log := log } := by
    cases sz <;> rfl
  have hans : Bus.answer { c with log := log } = c.answer := rfl
  unfold Bus.writeAnswer
  rw [hans]
  split <;> simp only [hpoke]

theorem alike_busWrite {k : AccessKind} {g g' : Tag} {a : Long} {sz : Size} {v : BitVec sz.bits} :
    AlikeInMode b (busWrite k g a sz v) (busWrite k g' a sz v) := by
  intro s t log u hlog h
  obtain ⟨hm, hw, rfl⟩ := busWrite_ok.mp h
  have hset := Bus.writeAnswer_setLog s.bus log a sz v
  rw [← Bus.writeAnswer_log s.bus a sz v] at hlog
  refine ⟨_, hlog.append (x := ⟨k, g', a, sz, some (v.setWidth 32)⟩) rfl, busWrite_ok.mpr ⟨hm, ?_, ?_⟩⟩
  · exact (congrArg Prod.snd hset).trans hw
  · change _ = (s.inMode b log).setBus ((Bus.writeAnswer { s.bus with log := log } a sz v).1.issue _)
    rw [hset]
    rfl

/-! ### Registers and operands -/

theorem State.cell_inMode (s : State) (log : List Access) (r : RegName) : (s.inMode b log).cell r = s.cell r := by
  cases r <;> rfl

theorem State.value_inMode (s : State) (log : List Access) (r : RegName) : (s.inMode b log).value r = s.value r := by
  rw [State.value, State.value, State.cell_inMode]

theorem alike_readReg {r : RegName} : AlikeInMode b (readReg r) (readReg r) := by
  intro s t log v hlog h
  obtain ⟨hc, rfl⟩ := readReg_ok.mp h
  exact ⟨log, hlog, readReg_ok.mpr ⟨by rw [State.cell_inMode, hc], rfl⟩⟩

theorem alike_writeD {sz : Size} {n : Reg} {v : BitVec sz.bits} : AlikeInMode b (writeD sz n v) (writeD sz n v) := by
  intro s t log u hlog h
  obtain ⟨hw, rfl⟩ := writeD_ok.mp h
  exact ⟨log, hlog, writeD_ok.mpr ⟨by rwa [State.cell_inMode], by rw [State.value_inMode]; rfl⟩⟩

theorem alike_writeA {n : Reg} {v : Long} : AlikeInMode b (writeA n v) (writeA n v) :=
  .modify (fun _ => rfl) fun _ _ => rfl

theorem alike_resolve {sz : Size} {ea : EA sz} {c : Long} : AlikeInMode b (ea.resolve c) (ea.resolve c) := by
  intro s t log l hlog h
  obtain ⟨hw, rfl, rfl⟩ := EA.resolve_ok.mp h
  exact ⟨log, hlog, EA.resolve_ok.mpr ⟨by simpa only [State.cell_inMode] using hw,
    (EA.loc_congr (fun r => State.value_inMode _ log r) c ea).symm, rfl⟩⟩

theorem alike_get {sz : Size} {l : Loc sz} : AlikeInMode b l.get l.get := by
  cases l with
  | dreg n => exact alike_readReg.bind fun _ => .pure _
  | areg n =>
    simp only [Loc.get]
    split
    · exact .throw _ _
    · exact alike_readReg.bind fun _ => .pure _
  | mem a => exact .get fun _ _ => alike_busRead
  | prog a => exact .get fun _ _ => alike_busRead
  | imm v => exact .pure v

theorem alike_put {sz : Size} {v : BitVec sz.bits} {l : Loc sz} : AlikeInMode b (l.put v) (l.put v) := by
  cases l with
  | dreg n => exact alike_writeD
  | mem a => exact .get fun _ _ => alike_busWrite
  | areg n | prog a | imm w => exact .throw _ _

theorem alike_finish {sz : Size} {ea : EA sz} : AlikeInMode b ea.finish ea.finish := by
  cases ea with
  | postInc n | preDec n => exact alike_readReg.bind fun _ => alike_writeA
  | _ => exact .pure _

theorem alike_setFromCompare {w : Nat} {d v : BitVec w} : AlikeInMode b (setFromCompare d v) (setFromCompare d v) :=
  .modify (fun _ => rfl) fun _ _ => rfl

theorem alike_setFromValue {w : Nat} {r : BitVec w} : AlikeInMode b (setFromValue r) (setFromValue r) :=
  .modify (fun _ => rfl) fun _ _ => rfl

theorem alike_advance {n : Nat} : AlikeInMode b (advance n) (advance n) :=
  .modify (fun _ => rfl) fun _ _ => rfl

/-! ### The handlers -/

theorem alike_compareHandler {sz : Size} {src dst : EA sz} :
    AlikeInMode b (compareHandler sz src dst) (compareHandler sz src dst) :=
  .get fun _ _ => alike_resolve.bind fun _ => alike_get.bind fun _ => alike_resolve.bind fun _ =>
    alike_get.bind fun _ => alike_setFromCompare.bind fun _ => alike_finish.bind fun _ =>
      alike_finish.bind fun _ => alike_advance

theorem alike_compareAddressHandler {sz : Size} {src : EA sz} {n : Reg} :
    AlikeInMode b (compareAddressHandler sz src n) (compareAddressHandler sz src n) :=
  .get fun _ _ => alike_resolve.bind fun _ => alike_get.bind fun _ => alike_readReg.bind fun _ =>
    alike_setFromCompare.bind fun _ => alike_finish.bind fun _ => alike_advance

theorem alike_logicalHandler {op : LogicalOp} {sz : Size} {src dst : EA sz} :
    AlikeInMode b (logicalHandler op sz src dst) (logicalHandler op sz src dst) :=
  .get fun _ _ => alike_resolve.bind fun _ => alike_get.bind fun _ => alike_resolve.bind fun _ =>
    alike_get.bind fun _ => alike_put.bind fun _ => alike_setFromValue.bind fun _ =>
      alike_finish.bind fun _ => alike_finish.bind fun _ => alike_advance

theorem alike_runView {v : View} : AlikeInMode b (runView v) (runView v) := by
  cases v with
  | toReg g sz ea rx =>
    rcases runView_toReg g ea rx with ⟨-, op, hv⟩ | ⟨-, hv⟩ | ⟨-, hv⟩ <;> rw [hv]
    · exact alike_logicalHandler
    · exact alike_compareAddressHandler
    · exact alike_compareHandler
  | toEa g sz rx ea =>
    rcases runView_toEa g rx ea with ⟨op, hv⟩ | hv <;> rw [hv]
    · exact alike_logicalHandler
    · exact alike_compareHandler
  | immToEa g sz x ea =>
    rcases runView_immToEa g x ea with ⟨op, hv⟩ | hv <;> rw [hv]
    · exact alike_logicalHandler
    · exact alike_compareHandler
  | postInc sz ay ax => exact alike_compareHandler

end

/-- Settles O44: the second run starts with the log of the first. -/
theorem modesExecuteAlike : Obligations.ModesExecuteAlike := by
  intro i s t b h
  rw [exec_eq, toOutcome_eq_next] at h
  obtain ⟨a, h⟩ := h
  obtain ⟨log, hlog, hu⟩ := alike_runView s t s.bus.log a rfl h
  refine ⟨t.inMode b log, ?_, rfl, hlog⟩
  rw [exec_eq, toOutcome_eq_next]
  exact ⟨a, hu⟩

end Sys2Proof.Machine
end

section
/-! SUPPORT. The status word and the program counter at the host port (R29, R31, R292). -/

namespace Sys2Proof.Machine

theorem step_getStatus {s : State} {rest : List HostCall} (h : s.port.calls = .getStatus :: rest) :
    step s = .next (s.setPort ⟨rest, .value (s.sr.word.setWidth 32)⟩) := by
  rw [step_call h (by simp)]
  simp only [hostTransaction, Op.get_bind, answerHost_run, toOutcome_ok, State.setPort_setPort, State.setPort_port,
    State.setPort_sr]

theorem step_getPc {s : State} {rest : List HostCall} (h : s.port.calls = .getPc :: rest) :
    step s = .next (s.setPort ⟨rest, .value s.pc⟩) := by
  rw [step_call h (by simp)]
  simp only [hostTransaction, Op.get_bind, answerHost_run, toOutcome_ok, State.setPort_setPort, State.setPort_port,
    State.setPort_pc]

/-- Settles O59: one rule for each of the three calls. -/
theorem hostPortStatusAndPc : Obligations.HostPortStatusAndPc :=
  fun _ _ _ => ⟨step_getStatus, step_getPc, step_setPc⟩

end Sys2Proof.Machine
end
